-- ==== Sys2Proof/Word.lean ====
section
/-! DEFINITION. The word types of PDEC (spec/00_scope.md R8, R9). -/

namespace Sys2Proof

/-- A byte is 8 bits (R9). -/
abbrev Byte := BitVec 8

/-- A command frame: 128 bits, bit 127 most significant (R70, R71). -/
abbrev Frame := BitVec 128

/-- A register value or the value of a response: 64 bits (R8). -/
abbrev Word := BitVec 64

end Sys2Proof
end

