-- ==== Sys2Proof/Syntax.lean ====
section
/-! DEFINITION. The 22 commands of PDEC (spec/30_encoding.md R73, R74), one constructor per row of the opcode table,
with the operands each takes at the width its field has. -/

namespace Sys2Proof

/-- A signal level: LOW is 0 and HIGH is 1 (spec/00_scope.md R10). -/
inductive Level where
  | low
  | high
  deriving DecidableEq, Repr

/-- The polarity rule of a symbol, "a genuine 4-way enum" (R83). -/
inductive PolRule where
  | toggle
  | keep
  | forceLow
  | forceHigh
  deriving DecidableEq, Repr

/-- The two alphabets (spec/10_state.md R33): `pilot` is 0 and `data` is 1. -/
inductive AlphaSel where
  | pilot
  | data
  deriving DecidableEq, Repr

/-- The commands, in the order of R73. Every operand is unsigned and zero-extended from its field (R71). An operand
value out of range (an instance, an alphabet, a width or a register number) is still a command: its rule raises
IllegalCommand for it (R74); `Instr.WellFormed` names those. -/
inductive Instr where
  /-- NOP (R100) -/
  | nop
  /-- LVL_SET level (R101) -/
  | lvlSet (level : Level)
  /-- REG_READ n (R102) -/
  | regRead (reg : BitVec 16)
  /-- CFG_WRITE prle_format (R103) -/
  | cfgWrite (prleFormat : BitVec 1)
  /-- WARN_CLEAR (R104) -/
  | warnClear
  /-- CNT_CLEAR (R105) -/
  | cntClear
  /-- BSR_OPEN i, base, len (R141) -/
  | bsrOpen (inst : BitVec 8) (base len : BitVec 32)
  /-- BSR_RESTART i (R142) -/
  | bsrRestart (inst : BitVec 8)
  /-- BSR_READ i, w (R143) -/
  | bsrRead (inst : BitVec 8) (width : BitVec 16)
  /-- ALPHA_BIND a, count, maxp, base, len (R120) -/
  | alphaBind (alpha count maxp : BitVec 8) (base len : BitVec 32)
  /-- SYM_GET a, idx (R126) -/
  | symGet (alpha idx : BitVec 8)
  /-- SYM_DUR a, idx, j (R127) -/
  | symDur (alpha idx slot : BitVec 8)
  /-- PRLE_OPEN base, len, totp (R162) -/
  | prleOpen (base len totp : BitVec 32)
  /-- PRLE_RESTART (R163) -/
  | prleRestart
  /-- PRLE_NEXT (R164) -/
  | prleNext
  /-- DSS_OPEN i, base, len, totd (R182) -/
  | dssOpen (inst : BitVec 8) (base len totd : BitVec 32)
  /-- DSS_RESTART (R183) -/
  | dssRestart
  /-- DSS_NEXT (R184) -/
  | dssNext
  /-- EMIT rule, d (R207) -/
  | emit (rule : PolRule) (duration : BitVec 16)
  /-- EMIT_SYM a, idx (R208) -/
  | emitSym (alpha idx : BitVec 8)
  /-- SILENCE ms (R210) -/
  | silence (ms : BitVec 16)
  /-- DECODE_BLOCK base, declLen (R230) -/
  | decodeBlock (base declLen : BitVec 32)
  deriving DecidableEq, Repr

/-- The registers `REG_READ` can name (spec/10_state.md R37), each under its own name. -/
inductive Reg where
  | level
  | lastStatus
  | errInfo
  | warn
  | cfg
  | pulseCount
  | parity
  | totalDurLo
  | totalDurHi
  | blkPause
  | blkSize
  | paramNBsr
  | paramMemSize
  | alphaBase (a : AlphaSel)
  | alphaCount (a : AlphaSel)
  | alphaMaxp (a : AlphaSel)
  | prleBase
  | prleTotp
  | prleNext
  | prleAsp
  | dssInst
  | dssTotd
  | dssBps
  | dssAsd
  | dssProduced
  | bsrBase (i : Nat)
  | bsrLen (i : Nat)
  | bsrCursor (i : Nat)
  deriving DecidableEq, Repr

end Sys2Proof
end

