-- ==== Sys2Proof/Decode.lean ====
section
/-! DEFINITION. The encodings of spec/30_encoding.md: the fields of a frame (R71), the decoder (R72 to R75), the
encoder, the opcode table as masks (spec/opcode_table.json) and the register numbers (spec/10_state.md R37). -/

namespace Sys2Proof

/-- LOW = 0, HIGH = 1 (R10). -/
def Level.bit : Level → BitVec 1
  | .low => 0
  | .high => 1

/-- `not L`: the other level (R10). -/
def Level.flip : Level → Level
  | .low => .high
  | .high => .low

def Level.ofBit (b : BitVec 1) : Level := if b = 1 then .high else .low

/-- The polarity field (R83): 0b00 TOGGLE, 0b01 KEEP, 0b10 FORCE_LOW, 0b11 FORCE_HIGH. -/
def PolRule.bits : PolRule → BitVec 2
  | .toggle => 0
  | .keep => 1
  | .forceLow => 2
  | .forceHigh => 3

def PolRule.ofBits (b : BitVec 2) : PolRule :=
  if b = 0 then .toggle else if b = 1 then .keep else if b = 2 then .forceLow else .forceHigh

/-- Alphabet select values: 0 pilot, 1 data (D38). -/
def AlphaSel.bit : AlphaSel → BitVec 1
  | .pilot => 0
  | .data => 1

/-- The fields of a frame (R71). -/
structure Fields where
  op : BitVec 8
  a  : BitVec 8
  b  : BitVec 16
  c  : BitVec 32
  d  : BitVec 32
  e  : BitVec 32
  deriving DecidableEq, Repr

/-- OP F[127:120], A F[119:112], B F[111:96], C F[95:64], D F[63:32], E F[31:0] (R71). -/
def Fields.ofFrame (f : Frame) : Fields where
  op := f.extractLsb' 120 8
  a  := f.extractLsb' 112 8
  b  := f.extractLsb' 96 16
  c  := f.extractLsb' 64 32
  d  := f.extractLsb' 32 32
  e  := f.extractLsb' 0 32

def Fields.toFrame (x : Fields) : Frame := x.op ++ x.a ++ x.b ++ x.c ++ x.d ++ x.e

/-- Why a frame spells no command (R72). Both raise IllegalCommand with cause 0. -/
inductive Reject where
  | unknownOpcode (op : BitVec 8)
  | reservedBits (op : BitVec 8)
  deriving DecidableEq, Repr

/-- The OP of a rejected frame, which `ERR_INFO[7:0]` records (R72). -/
def Reject.op : Reject → BitVec 8
  | .unknownOpcode op => op
  | .reservedBits op => op

/-- Step (2) of R75: the reserved bits of the row must be zero. -/
def Fields.accept (x : Fields) (reservedZero : Prop) [Decidable reservedZero] (i : Instr) : Except Reject Instr :=
  if reservedZero then .ok i else .error (.reservedBits x.op)

/-- Two 8-bit operands packed in B: `B[7:0]` is the first (R71). -/
def Fields.bLo (x : Fields) : BitVec 8 := x.b.extractLsb' 0 8

/-- Two 8-bit operands packed in B: `B[15:8]` is the second (R71). -/
def Fields.bHi (x : Fields) : BitVec 8 := x.b.extractLsb' 8 8

/-- R73 and R74, row by row: the OP, the fields that must be zero, and the operands. -/
def decodeFields (x : Fields) : Except Reject Instr :=
  match x.op with
  | 0x00#8 => x.accept (x.a = 0 ∧ x.b = 0 ∧ x.c = 0 ∧ x.d = 0 ∧ x.e = 0) .nop
  | 0x01#8 => x.accept (x.a.extractLsb' 1 7 = 0 ∧ x.b = 0 ∧ x.c = 0 ∧ x.d = 0 ∧ x.e = 0) (.lvlSet (Level.ofBit (x.a.extractLsb' 0 1)))
  | 0x02#8 => x.accept (x.a = 0 ∧ x.c = 0 ∧ x.d = 0 ∧ x.e = 0) (.regRead x.b)
  | 0x03#8 => x.accept (x.a.extractLsb' 1 7 = 0 ∧ x.b = 0 ∧ x.c = 0 ∧ x.d = 0 ∧ x.e = 0) (.cfgWrite (x.a.extractLsb' 0 1))
  | 0x04#8 => x.accept (x.a = 0 ∧ x.b = 0 ∧ x.c = 0 ∧ x.d = 0 ∧ x.e = 0) .warnClear
  | 0x05#8 => x.accept (x.a = 0 ∧ x.b = 0 ∧ x.c = 0 ∧ x.d = 0 ∧ x.e = 0) .cntClear
  | 0x10#8 => x.accept (x.b = 0 ∧ x.e = 0) (.bsrOpen x.a x.c x.d)
  | 0x11#8 => x.accept (x.b = 0 ∧ x.c = 0 ∧ x.d = 0 ∧ x.e = 0) (.bsrRestart x.a)
  | 0x12#8 => x.accept (x.c = 0 ∧ x.d = 0 ∧ x.e = 0) (.bsrRead x.a x.b)
  | 0x20#8 => x.accept (x.e = 0) (.alphaBind x.a x.bLo x.bHi x.c x.d)
  | 0x21#8 => x.accept (x.bHi = 0 ∧ x.c = 0 ∧ x.d = 0 ∧ x.e = 0) (.symGet x.a x.bLo)
  | 0x22#8 => x.accept (x.c = 0 ∧ x.d = 0 ∧ x.e = 0) (.symDur x.a x.bLo x.bHi)
  | 0x30#8 => x.accept (x.a = 0 ∧ x.b = 0) (.prleOpen x.c x.d x.e)
  | 0x31#8 => x.accept (x.a = 0 ∧ x.b = 0 ∧ x.c = 0 ∧ x.d = 0 ∧ x.e = 0) .prleRestart
  | 0x32#8 => x.accept (x.a = 0 ∧ x.b = 0 ∧ x.c = 0 ∧ x.d = 0 ∧ x.e = 0) .prleNext
  | 0x40#8 => x.accept (x.b = 0) (.dssOpen x.a x.c x.d x.e)
  | 0x41#8 => x.accept (x.a = 0 ∧ x.b = 0 ∧ x.c = 0 ∧ x.d = 0 ∧ x.e = 0) .dssRestart
  | 0x42#8 => x.accept (x.a = 0 ∧ x.b = 0 ∧ x.c = 0 ∧ x.d = 0 ∧ x.e = 0) .dssNext
  | 0x50#8 => x.accept (x.a.extractLsb' 2 6 = 0 ∧ x.c = 0 ∧ x.d = 0 ∧ x.e = 0) (.emit (PolRule.ofBits (x.a.extractLsb' 0 2)) x.b)
  | 0x51#8 => x.accept (x.bHi = 0 ∧ x.c = 0 ∧ x.d = 0 ∧ x.e = 0) (.emitSym x.a x.bLo)
  | 0x52#8 => x.accept (x.a = 0 ∧ x.c = 0 ∧ x.d = 0 ∧ x.e = 0) (.silence x.b)
  | 0x60#8 => x.accept (x.a = 0 ∧ x.b = 0 ∧ x.e = 0) (.decodeBlock x.c x.d)
  | op => .error (.unknownOpcode op)

/-- The decoder: total, "every 128-bit value either decodes to exactly one command of rule R73 with its operands, or is
IllegalCommand" (R75). -/
def decode (f : Frame) : Except Reject Instr := decodeFields (Fields.ofFrame f)

/-- The OP of each command (R73). -/
def Instr.opcode : Instr → BitVec 8
  | .nop => 0x00
  | .lvlSet _ => 0x01
  | .regRead _ => 0x02
  | .cfgWrite _ => 0x03
  | .warnClear => 0x04
  | .cntClear => 0x05
  | .bsrOpen _ _ _ => 0x10
  | .bsrRestart _ => 0x11
  | .bsrRead _ _ => 0x12
  | .alphaBind _ _ _ _ _ => 0x20
  | .symGet _ _ => 0x21
  | .symDur _ _ _ => 0x22
  | .prleOpen _ _ _ => 0x30
  | .prleRestart => 0x31
  | .prleNext => 0x32
  | .dssOpen _ _ _ _ => 0x40
  | .dssRestart => 0x41
  | .dssNext => 0x42
  | .emit _ _ => 0x50
  | .emitSym _ _ => 0x51
  | .silence _ => 0x52
  | .decodeBlock _ _ => 0x60

/-- The operand fields of each command, reserved bits zero (R74); `op` is left 0 here and filled by `encodeFields`. -/
def Instr.operandFields : Instr → Fields
  | .nop => { op := 0, a := 0, b := 0, c := 0, d := 0, e := 0 }
  | .lvlSet level => { op := 0, a := 0#7 ++ level.bit, b := 0, c := 0, d := 0, e := 0 }
  | .regRead reg => { op := 0, a := 0, b := reg, c := 0, d := 0, e := 0 }
  | .cfgWrite prleFormat => { op := 0, a := 0#7 ++ prleFormat, b := 0, c := 0, d := 0, e := 0 }
  | .warnClear => { op := 0, a := 0, b := 0, c := 0, d := 0, e := 0 }
  | .cntClear => { op := 0, a := 0, b := 0, c := 0, d := 0, e := 0 }
  | .bsrOpen inst base len => { op := 0, a := inst, b := 0, c := base, d := len, e := 0 }
  | .bsrRestart inst => { op := 0, a := inst, b := 0, c := 0, d := 0, e := 0 }
  | .bsrRead inst width => { op := 0, a := inst, b := width, c := 0, d := 0, e := 0 }
  | .alphaBind alpha count maxp base len => { op := 0, a := alpha, b := maxp ++ count, c := base, d := len, e := 0 }
  | .symGet alpha idx => { op := 0, a := alpha, b := 0#8 ++ idx, c := 0, d := 0, e := 0 }
  | .symDur alpha idx slot => { op := 0, a := alpha, b := slot ++ idx, c := 0, d := 0, e := 0 }
  | .prleOpen base len totp => { op := 0, a := 0, b := 0, c := base, d := len, e := totp }
  | .prleRestart => { op := 0, a := 0, b := 0, c := 0, d := 0, e := 0 }
  | .prleNext => { op := 0, a := 0, b := 0, c := 0, d := 0, e := 0 }
  | .dssOpen inst base len totd => { op := 0, a := inst, b := 0, c := base, d := len, e := totd }
  | .dssRestart => { op := 0, a := 0, b := 0, c := 0, d := 0, e := 0 }
  | .dssNext => { op := 0, a := 0, b := 0, c := 0, d := 0, e := 0 }
  | .emit rule duration => { op := 0, a := 0#6 ++ rule.bits, b := duration, c := 0, d := 0, e := 0 }
  | .emitSym alpha idx => { op := 0, a := alpha, b := 0#8 ++ idx, c := 0, d := 0, e := 0 }
  | .silence ms => { op := 0, a := 0, b := ms, c := 0, d := 0, e := 0 }
  | .decodeBlock base declLen => { op := 0, a := 0, b := 0, c := base, d := declLen, e := 0 }

def encodeFields (i : Instr) : Fields := { i.operandFields with op := i.opcode }

/-- The frame of a command (R71, R73, R74). -/
def encode (i : Instr) : Frame := (encodeFields i).toFrame

/-- The mnemonic of each command as the opcode table spells it (R73). -/
def Instr.mnemonic : Instr → String
  | .nop => "NOP"
  | .lvlSet _ => "LVL_SET"
  | .regRead _ => "REG_READ"
  | .cfgWrite _ => "CFG_WRITE"
  | .warnClear => "WARN_CLEAR"
  | .cntClear => "CNT_CLEAR"
  | .bsrOpen _ _ _ => "BSR_OPEN"
  | .bsrRestart _ => "BSR_RESTART"
  | .bsrRead _ _ => "BSR_READ"
  | .alphaBind _ _ _ _ _ => "ALPHA_BIND"
  | .symGet _ _ => "SYM_GET"
  | .symDur _ _ _ => "SYM_DUR"
  | .prleOpen _ _ _ => "PRLE_OPEN"
  | .prleRestart => "PRLE_RESTART"
  | .prleNext => "PRLE_NEXT"
  | .dssOpen _ _ _ _ => "DSS_OPEN"
  | .dssRestart => "DSS_RESTART"
  | .dssNext => "DSS_NEXT"
  | .emit _ _ => "EMIT"
  | .emitSym _ _ => "EMIT_SYM"
  | .silence _ => "SILENCE"
  | .decodeBlock _ _ => "DECODE_BLOCK"

/-- A row of spec/opcode_table.json: a frame `F` encodes the row's command exactly when `F & mask == pattern`
(spec/INDEX.md). -/
structure OpcodeRow where
  mnemonic : String
  pattern  : Frame
  mask     : Frame
  deriving DecidableEq, Repr

/-- spec/opcode_table.json, row by row. The decoder does not read it; that the two agree is a statement. -/
def opcodeTable : List OpcodeRow :=
  [ ⟨"NOP", 0x00000000000000000000000000000000, 0xFFFFFFFFFFFFFFFFFFFFFFFFFFFFFFFF⟩,
    ⟨"LVL_SET", 0x01000000000000000000000000000000, 0xFFFEFFFFFFFFFFFFFFFFFFFFFFFFFFFF⟩,
    ⟨"REG_READ", 0x02000000000000000000000000000000, 0xFFFF0000FFFFFFFFFFFFFFFFFFFFFFFF⟩,
    ⟨"CFG_WRITE", 0x03000000000000000000000000000000, 0xFFFEFFFFFFFFFFFFFFFFFFFFFFFFFFFF⟩,
    ⟨"WARN_CLEAR", 0x04000000000000000000000000000000, 0xFFFFFFFFFFFFFFFFFFFFFFFFFFFFFFFF⟩,
    ⟨"CNT_CLEAR", 0x05000000000000000000000000000000, 0xFFFFFFFFFFFFFFFFFFFFFFFFFFFFFFFF⟩ ] ++
  [ ⟨"BSR_OPEN", 0x10000000000000000000000000000000, 0xFF00FFFF0000000000000000FFFFFFFF⟩,
    ⟨"BSR_RESTART", 0x11000000000000000000000000000000, 0xFF00FFFFFFFFFFFFFFFFFFFFFFFFFFFF⟩,
    ⟨"BSR_READ", 0x12000000000000000000000000000000, 0xFF000000FFFFFFFFFFFFFFFFFFFFFFFF⟩,
    ⟨"ALPHA_BIND", 0x20000000000000000000000000000000, 0xFF0000000000000000000000FFFFFFFF⟩,
    ⟨"SYM_GET", 0x21000000000000000000000000000000, 0xFF00FF00FFFFFFFFFFFFFFFFFFFFFFFF⟩,
    ⟨"SYM_DUR", 0x22000000000000000000000000000000, 0xFF000000FFFFFFFFFFFFFFFFFFFFFFFF⟩ ] ++
  [ ⟨"PRLE_OPEN", 0x30000000000000000000000000000000, 0xFFFFFFFF000000000000000000000000⟩,
    ⟨"PRLE_RESTART", 0x31000000000000000000000000000000, 0xFFFFFFFFFFFFFFFFFFFFFFFFFFFFFFFF⟩,
    ⟨"PRLE_NEXT", 0x32000000000000000000000000000000, 0xFFFFFFFFFFFFFFFFFFFFFFFFFFFFFFFF⟩,
    ⟨"DSS_OPEN", 0x40000000000000000000000000000000, 0xFF00FFFF000000000000000000000000⟩,
    ⟨"DSS_RESTART", 0x41000000000000000000000000000000, 0xFFFFFFFFFFFFFFFFFFFFFFFFFFFFFFFF⟩,
    ⟨"DSS_NEXT", 0x42000000000000000000000000000000, 0xFFFFFFFFFFFFFFFFFFFFFFFFFFFFFFFF⟩ ] ++
  [ ⟨"EMIT", 0x50000000000000000000000000000000, 0xFFFC0000FFFFFFFFFFFFFFFFFFFFFFFF⟩,
    ⟨"EMIT_SYM", 0x51000000000000000000000000000000, 0xFF00FF00FFFFFFFFFFFFFFFFFFFFFFFF⟩,
    ⟨"SILENCE", 0x52000000000000000000000000000000, 0xFFFF0000FFFFFFFFFFFFFFFFFFFFFFFF⟩,
    ⟨"DECODE_BLOCK", 0x60000000000000000000000000000000, 0xFFFFFFFF0000000000000000FFFFFFFF⟩ ]

/-- A frame matches a row of the table (spec/INDEX.md). -/
abbrev OpcodeRow.Matches (r : OpcodeRow) (f : Frame) : Prop := f &&& r.mask = r.pattern

/-- The registers of one bit-stream reader instance: number 0x100 + 4i + k (R36, R37); k = 3 is unassigned. -/
def Reg.ofReaderNumber (nBsr i k : Nat) : Option Reg :=
  if nBsr ≤ i then none
  else match k with
    | 0 => some (.bsrBase i)
    | 1 => some (.bsrLen i)
    | 2 => some (.bsrCursor i)
    | _ => none

/-- The register map (R37): which register a number names on a machine with `nBsr` reader instances; every other
number is unassigned. -/
def Reg.ofNumber (nBsr : Nat) (n : BitVec 16) : Option Reg :=
  match n with
  | 0x000#16 => some .level
  | 0x001#16 => some .lastStatus
  | 0x002#16 => some .errInfo
  | 0x003#16 => some .warn
  | 0x004#16 => some .cfg
  | 0x005#16 => some .pulseCount
  | 0x006#16 => some .parity
  | 0x007#16 => some .totalDurLo
  | 0x008#16 => some .totalDurHi
  | 0x009#16 => some .blkPause
  | 0x00A#16 => some .blkSize
  | 0x00B#16 => some .paramNBsr
  | 0x00C#16 => some .paramMemSize
  | 0x010#16 => some (.alphaBase .pilot)
  | 0x011#16 => some (.alphaCount .pilot)
  | 0x012#16 => some (.alphaMaxp .pilot)
  | 0x014#16 => some (.alphaBase .data)
  | 0x015#16 => some (.alphaCount .data)
  | 0x016#16 => some (.alphaMaxp .data)
  | 0x020#16 => some .prleBase
  | 0x021#16 => some .prleTotp
  | 0x022#16 => some .prleNext
  | 0x023#16 => some .prleAsp
  | 0x030#16 => some .dssInst
  | 0x031#16 => some .dssTotd
  | 0x032#16 => some .dssBps
  | 0x033#16 => some .dssAsd
  | 0x034#16 => some .dssProduced
  | n => if n.toNat < 0x100 then none else Reg.ofReaderNumber nBsr ((n.toNat - 0x100) / 4) ((n.toNat - 0x100) % 4)

/-- The frame whose low `nbits` bits are `w` and whose other bits are 0. A frame is ONE 128-bit word, so the opcode
table's bit numbers are the frame's own. -/
def tableFrame (nbits w : Nat) : Frame := BitVec.ofNat 128 (w % 2 ^ nbits)

/-- What the decoder reads from the instruction whose bits are `w`, numbered as spec/opcode_table.json numbers them. -/
def decodeTableWord (nbits w : Nat) : Option Instr :=
  match decode (tableFrame nbits w) with
  | .ok i => some i
  | .error _ => none

end Sys2Proof
end

