-- ==== Sys2Proof/Config.lean ====
section
/-! DEFINITION. What one implementation of PDEC fixes (spec/00_scope.md R6), and the values the spec leaves free. -/

namespace Sys2Proof

/-- The two named parameters of R6. They do not change while the machine runs (R43). -/
structure Params where
  /-- `N_BSR`: the number of bit-stream reader instances. -/
  nBsr    : Nat
  /-- `MEM_SIZE`: the number of bytes of the input memory. -/
  memSize : Nat
  deriving DecidableEq, Repr

/-- The ranges R6 gives the parameters. -/
abbrev Params.Valid (p : Params) : Prop :=
  2 ≤ p.nBsr ∧ p.nBsr ≤ 16 ∧ 14 ≤ p.memSize ∧ p.memSize ≤ 2 ^ 32

/-- The parameters of `State.reset`. `N_BSR` is the default of R6. `MEM_SIZE` is OPEN in R6;
DESIGN CHOICE: the value the vectors of spec/95_test_vectors.md use (log entry 1). -/
def Config.params : Params := { nBsr := 2, memSize := 0x10000 }

/-- What a byte of the input memory reads as that the host has not written since power-on: a FREE VALUE, one for
each address (R51: "every byte a free value"). It has no body, so a claim holds of it only if it holds of every
value (log entry 2). Reading twice gives the same byte (R57), since it depends on the address alone. -/
opaque Config.unwrittenByte : Nat → Byte

end Sys2Proof
end

