-- ==== Sys2Proof/Machine/State.lean ====
section
/-! DEFINITION. The state of PDEC (spec/10_state.md), as plain data, and its value after reset (R42, R290). -/

namespace Sys2Proof.Machine

/-- Status codes (R260). Codes 10 to 15 are reserved and "never returned", so the type omits them (I8, log entry 9). -/
inductive Status where
  | ok
  | endOfStream
  | structuralError
  | truncatedStream
  | invalidSymbolReference
  | invalidAlphabetSize
  | outOfRange
  | illegalCommand
  | badRegion
  | unsupported
  deriving DecidableEq, Repr

/-- The unit of a TruncatedStream's extent (R263): 0 bytes, 1 bits. -/
inductive ExtentUnit where
  | bytes
  | bits
  deriving DecidableEq, Repr

/-- What an OutOfRange is about (R263): 0 symbol index, 1 pulse slot. -/
inductive RangeKind where
  | index
  | slot
  deriving DecidableEq, Repr

/-- The cause of an IllegalCommand (R263): 0 unknown opcode or nonzero reserved bit, 1 operand value out of range. -/
inductive IllegalCause where
  | frame
  | operand
  deriving DecidableEq, Repr

/-- The errors a command can raise, with the information `ERR_INFO` records of each (R260, R263). An error is a
response, not a stop of the machine (R261). -/
inductive CmdError where
  | structuralError (size : Nat)
  | truncatedStream (extent : Nat) (unit : ExtentUnit)
  | invalidSymbolReference (index : BitVec 8) (alphabet : AlphaSel) (position : BitVec 32)
  | invalidAlphabetSize (alphabet : AlphaSel)
  | outOfRange (value : BitVec 8) (which : RangeKind)
  | illegalCommand (op : BitVec 8) (cause : IllegalCause)
  | badRegion (sum : Nat)
  | unsupported (op : BitVec 8)
  deriving DecidableEq, Repr

/-- A response (status, value) (R78). -/
structure Response where
  status : Status
  value  : Word
  deriving DecidableEq, Repr

/-- Kinds of output record (R81): 0 PULSE, 1 CORRECTIVE, 2 PAUSE; kind 3 is "reserved, never emitted" and is omitted
(I8, log entry 9). -/
inductive RecordKind where
  | pulse
  | corrective
  | pause
  deriving DecidableEq, Repr

/-- An output record (R80): a duration (T-states, or milliseconds for a PAUSE), a level and a kind. `OutRecord.word` is
its 64-bit word. -/
structure OutRecord where
  kind     : RecordKind
  duration : BitVec 32
  level    : Level
  deriving DecidableEq, Repr

/-- The pulse emitter's state: the level (R22), the three diagnostics (R27 to R29) and the output stream (R38), oldest
record first. -/
structure Emitter where
  /-- `LEVEL`, register 0x000 -/
  level      : Level
  /-- `PULSE_COUNT`, register 0x005 -/
  pulseCount : BitVec 64
  /-- `PARITY`, register 0x006 -/
  parity     : BitVec 1
  /-- `TOTAL_DUR`, registers 0x007 and 0x008 -/
  totalDur   : BitVec 72
  /-- `OUT` -/
  out        : List OutRecord
  deriving DecidableEq, Repr

/-- An alphabet descriptor `ALPHA[a]` (R33): a view of symbol records in the input memory. -/
structure Alphabet where
  base  : BitVec 32
  count : BitVec 8
  maxp  : BitVec 8
  deriving DecidableEq, Repr

/-- The run-length decoder's state `PRLE` (R34). -/
structure Prle where
  base : BitVec 32
  totp : BitVec 32
  next : BitVec 32
  asp  : BitVec 8
  deriving DecidableEq, Repr

/-- The data-symbol stream's state `DSS` (R35). -/
structure Dss where
  inst     : BitVec 4
  totd     : BitVec 32
  bps      : BitVec 4
  asd      : BitVec 8
  produced : BitVec 32
  deriving DecidableEq, Repr

/-- One bit-stream reader instance `BSR[i]` (R36). -/
structure Bsr where
  base   : BitVec 32
  len    : BitVec 32
  cursor : BitVec 35
  deriving DecidableEq, Repr

/-- The bytes of the input memory the host has written, by address, addresses strictly rising (`Memory.wf`). An address
that is not listed holds no value the host gave it: it reads as the free value `Config.unwrittenByte` (R51, log entry 2). -/
abbrev Memory := List Host.Cell

/-- What the host does to PDEC from outside (log entry 3): it issues a command frame (R60, R70), writes a byte of the
input memory between commands (R61), or asserts reset (R290). -/
inductive HostEvent where
  | command (frame : Frame)
  | write (addr : BitVec 32) (value : Byte)
  | reset
  deriving DecidableEq, Repr

/-- Why the machine stops. No command of a run from reset raises one (`Obligations.EveryCommandCompletes`): errors of a
command are responses (R261). -/
inductive Fault where
  /-- Raised by SYM_GET, SYM_DUR, EMIT_SYM, PRLE_NEXT, BSR_READ and DSS_NEXT in a state whose descriptor points outside
  the input memory, at an address that does not exist (R50). R56: every read is inside a checked region, so no reachable
  state raises it. Safe (log entry 5). -/
  | readOutsideMemory (firstAbsent : Nat)
  /-- Raised by DSS_RESTART and DSS_NEXT in a state whose `DSS.INST` names no reader instance (R36). No reachable state
  raises it. Safe (log entry 5). -/
  | missingReader (inst : Nat)
  /-- Raised by a host write to an address at or above MEM_SIZE, which does not exist (R50). Safe (log entry 6). -/
  | hostWriteOutsideMemory (addr : Nat)
  deriving DecidableEq, Repr

/-- Why a command has no meaning. -/
inductive Refusal where
  /-- Raised by `exec` for an instruction without a meaning; no arm of this model raises it. Safe. -/
  | notModelled (mnemonic : String)
  deriving DecidableEq, Repr

/-- All the state the spec gives PDEC (R22 to R39; R40: there is no hidden state), with the host's pending actions and
the responses returned. -/
structure State where
  /-- `LEVEL`, `PULSE_COUNT`, `PARITY`, `TOTAL_DUR` and `OUT` (R22, R27 to R29, R38) -/
  emitter    : Emitter
  /-- `LAST_STATUS`, register 0x001 (R23) -/
  lastStatus : Status
  /-- `ERR_INFO`, register 0x002 (R24) -/
  errInfo    : Word
  /-- `WARN`, register 0x003 (R25): bit 0 W_FLAGBITS, bit 1 W_ZEROTAIL -/
  warn       : BitVec 2
  /-- `CFG`, register 0x004 (R26): bit 0 PRLE_FORMAT -/
  cfg        : BitVec 1
  /-- `BLK_PAUSE`, register 0x009 (R30) -/
  blkPause   : BitVec 16
  /-- `BLK_SIZE`, register 0x00A (R31) -/
  blkSize    : Word
  /-- `PARAM_MEM_SIZE`, register 0x00C, hardwired (R32): no step writes it -/
  memSize    : Nat
  /-- `ALPHA[0]` (R33) -/
  alphaPilot : Alphabet
  /-- `ALPHA[1]` (R33) -/
  alphaData  : Alphabet
  /-- `PRLE` (R34) -/
  prle       : Prle
  /-- `DSS` (R35) -/
  dss        : Dss
  /-- `BSR[0]`, `BSR[1]`, … (R36): N_BSR of them, a number no step changes (log entry 1) -/
  bsr        : List Bsr
  /-- The input memory `M` (R39, R50): the bytes the host has written -/
  mem        : Memory
  /-- The model's own: what the host has done and PDEC has not yet taken, the oldest first (log entry 3) -/
  port       : List HostEvent
  /-- The model's own: the responses returned, the oldest first (R78, log entry 4) -/
  responses  : List Response
  deriving DecidableEq, Repr

/-- `N_BSR`, which `PARAM_N_BSR` (register 0x00B) reads (R32): the number of reader instances. -/
abbrev State.nBsr (s : State) : Nat := s.bsr.length

/-- `ALPHA[a]` (R33). -/
def State.alpha (s : State) : AlphaSel → Alphabet
  | .pilot => s.alphaPilot
  | .data => s.alphaData

/-- The machine right after reset with the parameters `p` and the memory image `m` (R42, R290): reset leaves `M` as
it is. -/
def State.resetWith (p : Params) (m : Memory) : State where
  emitter    := { level := .low, pulseCount := 0, parity := 0, totalDur := 0, out := [] }
  lastStatus := .ok
  errInfo    := 0
  warn       := 0
  cfg        := 0
  blkPause   := 0
  blkSize    := 0
  memSize    := p.memSize
  alphaPilot := { base := 0, count := 0, maxp := 0 }
  alphaData  := { base := 0, count := 0, maxp := 0 }
  prle       := { base := 0, totp := 0, next := 0, asp := 0 }
  dss        := { inst := 0, totd := 0, bps := 1, asd := 0, produced := 0 }
  bsr        := List.replicate p.nBsr { base := 0, len := 0, cursor := 0 }
  mem        := m
  port       := []
  responses  := []

/-- The machine right after power-on reset: the parameters of `Config.params`, no byte of `M` written, and no command
issued yet ("After reset PDEC waits for the first command", R291). -/
def State.reset : State := State.resetWith Config.params []

end Sys2Proof.Machine
end

