-- ==== Sys2Proof/Machine/Flags.lean ====
section
/-! DEFINITION. Every status, information and diagnostic value PDEC computes: status codes (R260), the layouts of
`ERR_INFO` (R263), the word of an output record (R80) and the counters of a PULSE record (R205). -/

namespace Sys2Proof.Machine

/-- The 4-bit status code (R260). -/
def Status.code : Status → BitVec 4
  | .ok => 0
  | .endOfStream => 1
  | .structuralError => 2
  | .truncatedStream => 3
  | .invalidSymbolReference => 4
  | .invalidAlphabetSize => 5
  | .outOfRange => 6
  | .illegalCommand => 7
  | .badRegion => 8
  | .unsupported => 9

/-- Codes 2 to 9 are errors; 0 and 1 are successes (R260). -/
def Status.isError (st : Status) : Bool := 2 ≤ st.code.toNat

def ExtentUnit.bit : ExtentUnit → BitVec 1
  | .bytes => 0
  | .bits => 1

def RangeKind.bit : RangeKind → BitVec 1
  | .index => 0
  | .slot => 1

def IllegalCause.bit : IllegalCause → BitVec 1
  | .frame => 0
  | .operand => 1

/-- The status an error reports (R260). -/
def CmdError.status : CmdError → Status
  | .structuralError _ => .structuralError
  | .truncatedStream _ _ => .truncatedStream
  | .invalidSymbolReference _ _ _ => .invalidSymbolReference
  | .invalidAlphabetSize _ => .invalidAlphabetSize
  | .outOfRange _ _ => .outOfRange
  | .illegalCommand _ _ => .illegalCommand
  | .badRegion _ => .badRegion
  | .unsupported _ => .unsupported

/-- The layout of `ERR_INFO` per error (R263); bits not listed are 0. No size, extent or sum a command computes is too
wide for its field (log entry 10). -/
def CmdError.info : CmdError → Word
  | .structuralError size => BitVec.ofNat 64 size
  | .truncatedStream extent unit => unit.bit ++ BitVec.ofNat 63 extent
  | .invalidSymbolReference index alphabet position => 0#16 ++ position ++ 0#7 ++ alphabet.bit ++ index
  | .invalidAlphabetSize alphabet => 0#63 ++ alphabet.bit
  | .outOfRange value which => 0#55 ++ which.bit ++ value
  | .illegalCommand op cause => 0#55 ++ cause.bit ++ op
  | .badRegion sum => BitVec.ofNat 64 sum
  | .unsupported op => 0#56 ++ op

/-- Record kinds (R81). -/
def RecordKind.bits : RecordKind → BitVec 2
  | .pulse => 0
  | .corrective => 1
  | .pause => 2

/-- The 64-bit word of an output record (R80): duration [31:0], level [32], kind [34:33], zero above. -/
def OutRecord.word (r : OutRecord) : Word := 0#29 ++ r.kind.bits ++ r.level.bit ++ r.duration

/-- The diagnostics of a PULSE record of duration `d` (R205). -/
def Emitter.countPulse (d : BitVec 32) (e : Emitter) : Emitter :=
  { e with
    pulseCount := e.pulseCount + 1
    parity     := ~~~ e.parity
    totalDur   := e.totalDur + d.setWidth 72 }

/-- Clearing `PULSE_COUNT`, `PARITY` and `TOTAL_DUR` together (R105, R236). -/
def Emitter.clearCounters (e : Emitter) : Emitter :=
  { e with pulseCount := 0, parity := 0, totalDur := 0 }

end Sys2Proof.Machine
end

