-- ==== Sys2Proof/Machine/Ops.lean ====
section
/-! DEFINITION. The shared operations: reading and writing the input memory (R50 to R57), ending a command (R11, R23,
R78, R262), appending an output record (R38, R205), reset (R290) and what else the host does (R61). -/

namespace Sys2Proof.Machine

/-- The outcome of a command or a step. -/
abbrev Result := Host.Outcome State Fault Refusal

/-! ## The input memory -/

/-- The canonical form: addresses strictly rising, so each is listed once. -/
def Memory.wf : Memory → Bool
  | [] => true
  | [_] => true
  | (a, _) :: (b, y) :: rest => a < b && Memory.wf ((b, y) :: rest)

/-- The byte the host last wrote at an address, if it has written one. -/
def Memory.written : Memory → Nat → Option Byte
  | [], _ => none
  | (x, v) :: rest, a => if x = a then some v else Memory.written rest a

/-- The byte `M[a]` (R50): what the host wrote, or the free value of that address (R51). -/
def Memory.byte (m : Memory) (a : Nat) : Byte :=
  match m.written a with
  | some v => v
  | none => Config.unwrittenByte a

/-- A host write of one byte (R61), keeping the canonical form. -/
def Memory.store : Memory → Nat → Byte → Memory
  | [], a, v => [(a, v)]
  | (x, w) :: rest, a, v =>
    if a < x then (a, v) :: (x, w) :: rest
    else if a = x then (a, v) :: rest
    else (x, w) :: Memory.store rest a v

/-- `MemRead(addr, n)`: the n-byte little-endian value at `addr` (R52). -/
def Memory.read (m : Memory) (addr : Nat) : Nat → Nat
  | 0 => 0
  | n + 1 => (m.byte addr).toNat + 256 * Memory.read m (addr + 1) n

/-- `MemBit_b(p)`: bit `p` of the buffer at `b`, MSB-first and byte-major (R54). -/
def Memory.bit (m : Memory) (b p : Nat) : Nat :=
  ((m.byte (b + p / 8)).toNat >>> (7 - p % 8)) &&& 1

/-- `Code`: the `w` bits from cursor `c` of the buffer at `b`, the bit at the cursor the most significant (R140). -/
def Memory.code (m : Memory) (b c : Nat) : Nat → Nat
  | 0 => 0
  | w + 1 => 2 * Memory.code m b c w + m.bit b (c + w)

/-- Whether a region of `len` bytes at `base` is in memory (R56), without wrap-around. -/
abbrev State.hasRegion (s : State) (base len : Nat) : Prop := base + len ≤ s.memSize

/-- A command that reads the `len` bytes at `base`: it goes on when they exist. Every read is inside a checked region
(R56), so in no reachable state does it stop here (log entry 5). -/
def State.reading (s : State) (base len : Nat) (goOn : Result) : Result :=
  if s.hasRegion base len then goOn else .fault (.readOutsideMemory (max base s.memSize))

/-! ## Ending a command -/

/-- The one response of a command (R78). -/
def State.respond (r : Response) (s : State) : State :=
  { s with lastStatus := r.status, responses := s.responses ++ [r] }

/-- `return v`: end the command with status OK and response value `v` (R11). -/
def State.complete (v : Word) (s : State) : State := s.respond { status := .ok, value := v }

/-- `end_of_stream`: end the command with status END (R11); it writes only `LAST_STATUS` (R262). -/
def State.finishStream (s : State) : State := s.respond { status := .endOfStream, value := 0 }

/-- `raise E(info)`: end the command with status E (R11). This is all PDEC has of an exception (R261): `LAST_STATUS` and
`ERR_INFO` are written, the response value is 0, and nothing else changes (R262). -/
def State.raise (e : CmdError) (s : State) : State :=
  { s.respond { status := e.status, value := 0 } with errInfo := e.info }

/-- A frame that spells no command (R72): IllegalCommand with its OP and cause 0. -/
def State.rejectFrame (r : Reject) (s : State) : State := s.raise (.illegalCommand r.op .frame)

/-! ## Output -/

/-- `Emit(kind, dur, level)`: append one record (R38), with the diagnostics of a PULSE record (R205). -/
def Emitter.emit (kind : RecordKind) (duration : BitVec 32) (level : Level) (e : Emitter) : Emitter :=
  let e' := { e with out := e.out ++ [{ kind := kind, duration := duration, level := level }] }
  match kind with
  | .pulse => e'.countPulse duration
  | .corrective => e'
  | .pause => e'

/-- The corrective transition of a FORCE rule: a zero-duration record only if the level changes (R202, R203). -/
def Emitter.force (l : Level) (e : Emitter) : Emitter :=
  if e.level = l then e else { e.emit .corrective 0 l with level := l }

/-- `EmitPulse(d, rule)` (R200 to R203). -/
def Emitter.emitPulse (d : BitVec 16) (rule : PolRule) (e : Emitter) : Emitter :=
  match rule with
  | .toggle => { e.emit .pulse (d.setWidth 32) e.level with level := e.level.flip }
  | .keep => e.emit .pulse (d.setWidth 32) e.level
  | .forceLow => (e.force .low).emit .pulse (d.setWidth 32) .low
  | .forceHigh => (e.force .high).emit .pulse (d.setWidth 32) .high

/-- `Silence(ms)` (R209). -/
def Emitter.silence (ms : BitVec 16) (e : Emitter) : Emitter :=
  if ms = 0 then e
  else match e.level with
    | .high => { (e.emit .pause 1 .high).emit .pause (ms.setWidth 32 - 1) .low with level := .low }
    | .low => e.emit .pause (ms.setWidth 32) .low

/-! ## The host's other actions -/

/-- The reset event (R290): every register to its reset value (R42), `OUT` emptied, `M` and the parameters unchanged;
what the host has already issued after it stays pending (log entries 3 and 4). -/
def State.applyReset (s : State) : State :=
  { State.resetWith { nBsr := s.nBsr, memSize := s.memSize } s.mem with port := s.port }

/-- A host write of one byte between commands (R61). An address at or above MEM_SIZE does not exist (R50). -/
def State.hostWrite (addr : BitVec 32) (v : Byte) (s : State) : Result :=
  if addr.toNat < s.memSize then .next { s with mem := s.mem.store addr.toNat v }
  else .fault (.hostWriteOutsideMemory addr.toNat)

/-- The next thing the host did, and the state in which PDEC takes it. -/
def State.takeEvent (s : State) : Option (HostEvent × State) :=
  match s.port with
  | [] => none
  | ev :: rest => some (ev, { s with port := rest })

/-- The host issues this frame before everything pending. -/
def State.issueFirst (f : Frame) (s : State) : State := { s with port := .command f :: s.port }

end Sys2Proof.Machine
end

