-- ==== Sys2Proof/Machine/Operands.lean ====
section
/-! DEFINITION. What the operands of a command name: registers (R37), alphabets and their symbols (R82, R83, R121 to
R125), reader instances (R36), PRLE entries (R84, R161) and data codes (R87, R180, R181). -/

namespace Sys2Proof.Machine

/-! ## Registers -/

/-- `BSR[i]`, if there is such an instance (R36). -/
def State.reader (s : State) (i : Nat) : Option Bsr := s.bsr[i]?

/-- Writing `BSR[i]`. -/
def State.setReader (i : Nat) (r : Bsr) (s : State) : State := { s with bsr := s.bsr.set i r }

/-- A field of `BSR[i]` as a register value; `Reg.ofNumber` names only instances that exist. -/
def State.readerField (s : State) (i : Nat) (field : Bsr → Word) : Word :=
  match s.reader i with
  | some r => field r
  | none => 0

/-- The value of a register, zero-extended to 64 bits (R37, R41). -/
def State.readReg (s : State) : Reg → Word
  | .level => s.emitter.level.bit.setWidth 64
  | .lastStatus => s.lastStatus.code.setWidth 64
  | .errInfo => s.errInfo
  | .warn => s.warn.setWidth 64
  | .cfg => s.cfg.setWidth 64
  | .pulseCount => s.emitter.pulseCount
  | .parity => s.emitter.parity.setWidth 64
  | .totalDurLo => s.emitter.totalDur.extractLsb' 0 64
  | .totalDurHi => (s.emitter.totalDur.extractLsb' 64 8).setWidth 64
  | .blkPause => s.blkPause.setWidth 64
  | .blkSize => s.blkSize
  | .paramNBsr => BitVec.ofNat 64 s.nBsr
  | .paramMemSize => BitVec.ofNat 64 s.memSize
  | .alphaBase a => (s.alpha a).base.setWidth 64
  | .alphaCount a => (s.alpha a).count.setWidth 64
  | .alphaMaxp a => (s.alpha a).maxp.setWidth 64
  | .prleBase => s.prle.base.setWidth 64
  | .prleTotp => s.prle.totp.setWidth 64
  | .prleNext => s.prle.next.setWidth 64
  | .prleAsp => s.prle.asp.setWidth 64
  | .dssInst => s.dss.inst.setWidth 64
  | .dssTotd => s.dss.totd.setWidth 64
  | .dssBps => s.dss.bps.setWidth 64
  | .dssAsd => s.dss.asd.setWidth 64
  | .dssProduced => s.dss.produced.setWidth 64
  | .bsrBase i => s.readerField i fun r => r.base.setWidth 64
  | .bsrLen i => s.readerField i fun r => r.len.setWidth 64
  | .bsrCursor i => s.readerField i fun r => r.cursor.setWidth 64

/-! ## Alphabets and symbols -/

/-- The alphabet an operand selects: 0 pilot, 1 data, anything else none (R120, D38). -/
def alphaOf (alpha : BitVec 8) : Option AlphaSel :=
  if alpha = 0 then some .pilot else if alpha = 1 then some .data else none

/-- Writing `ALPHA[a]`. -/
def State.setAlpha (a : AlphaSel) (d : Alphabet) (s : State) : State :=
  match a with
  | .pilot => { s with alphaPilot := d }
  | .data => { s with alphaData := d }

/-- A view of an alphabet's symbol records: a descriptor of R33, or a private one of `DECODE_BLOCK` (R231, R233), whose
base may be the end of the address space when it is empty. -/
structure SymTable where
  base  : Nat
  count : Nat
  maxp  : Nat
  deriving DecidableEq, Repr

def Alphabet.table (d : Alphabet) : SymTable :=
  { base := d.base.toNat, count := d.count.toNat, maxp := d.maxp.toNat }

/-- The bytes of one symbol record (R82). -/
def symbolBytes (maxp : Nat) : Nat := 1 + 2 * maxp

/-- `SymAddr` (R121). -/
def SymTable.symAddr (t : SymTable) (idx : Nat) : Nat := t.base + idx * symbolBytes t.maxp

/-- `Flag` (R121). -/
def SymTable.flag (t : SymTable) (m : Memory) (idx : Nat) : Byte := m.byte (t.symAddr idx)

/-- `Slot` (R121). -/
def SymTable.slot (t : SymTable) (m : Memory) (idx j : Nat) : BitVec 16 :=
  BitVec.ofNat 16 (m.read (t.symAddr idx + 1 + 2 * j) 2)

/-- `PolRule(f)`: bits 1:0 alone, whatever bits 7:2 hold (R121). -/
def polRuleOf (flag : Byte) : PolRule := PolRule.ofBits (flag.extractLsb' 0 2)

/-- `Rule` (R121). -/
def SymTable.rule (t : SymTable) (m : Memory) (idx : Nat) : PolRule := polRuleOf (t.flag m idx)

/-- All the slots of a symbol, in declared order. -/
def SymTable.slots (t : SymTable) (m : Memory) (idx : Nat) : List (BitVec 16) :=
  (List.range t.maxp).map (t.slot m idx)

/-- The active pulses: the slots before the first zero (R122). -/
def SymTable.activePulses (t : SymTable) (m : Memory) (idx : Nat) : List (BitVec 16) :=
  (t.slots m idx).takeWhile fun d => d ≠ 0

/-- `ActiveCount` (R122). -/
def SymTable.activeCount (t : SymTable) (m : Memory) (idx : Nat) : Nat := (t.activePulses m idx).length

/-- `FlagWarn`: any of flag bits 7:2 nonzero (R123). -/
def SymTable.flagWarn (t : SymTable) (m : Memory) (idx : Nat) : Bool :=
  (t.flag m idx).extractLsb' 2 6 ≠ 0

/-- `ZeroTailWarn`: a nonzero slot after the first zero (R124). -/
def SymTable.zeroTailWarn (t : SymTable) (m : Memory) (idx : Nat) : Bool :=
  ((t.slots m idx).dropWhile fun d => d ≠ 0).any fun d => d ≠ 0

/-- The `WARN` bits that examining a symbol sets: bit 0 W_FLAGBITS, bit 1 W_ZEROTAIL (R125). -/
def SymTable.warnBits (t : SymTable) (m : Memory) (idx : Nat) : BitVec 2 :=
  BitVec.ofBool (t.zeroTailWarn m idx) ++ BitVec.ofBool (t.flagWarn m idx)

/-- `Examine` of every symbol of an alphabet (R236): the bits it sets, or-ed together. -/
def SymTable.allWarnBits (t : SymTable) (m : Memory) : BitVec 2 :=
  (List.range t.count).foldl (fun w idx => w ||| t.warnBits m idx) 0

/-- `Examine(a, idx)`: it sets bits of `WARN` and never clears one (R125). -/
def State.examine (t : SymTable) (idx : Nat) (s : State) : State :=
  { s with warn := s.warn ||| t.warnBits s.mem idx }

/-- `EmitSymbol(a, idx)`: every active pulse in declared order, each with the symbol's own rule (R204). -/
def Emitter.emitSymbol (t : SymTable) (m : Memory) (idx : Nat) (e : Emitter) : Emitter :=
  (t.activePulses m idx).foldl (fun e d => e.emitPulse d (t.rule m idx)) e

/-! ## PRLE entries and data codes -/

/-- `EntrySym(b, k)` (R161). -/
def entrySym (m : Memory) (b k : Nat) : BitVec 8 := m.byte (b + 3 * k)

/-- `EntryRep(b, k)` (R161). -/
def entryRep (m : Memory) (b k : Nat) : BitVec 16 := BitVec.ofNat 16 (m.read (b + 3 * k + 1) 2)

/-- `bitsPerSymbol(asd)` for the 8-bit alphabet sizes (R180), row by row of its table. -/
def bitsPerSymbol (asd : Nat) : Nat :=
  if asd ≤ 2 then 1
  else if asd ≤ 4 then 2
  else if asd ≤ 8 then 3
  else if asd ≤ 16 then 4
  else if asd ≤ 32 then 5
  else if asd ≤ 64 then 6
  else if asd ≤ 128 then 7
  else 8

/-- `PayloadBytes(bps, totd) = ceil(bps * totd / 8)` (R181). -/
def payloadBytes (bps totd : Nat) : Nat := (bps * totd + 7) / 8

/-- The data code of index `n` of the payload at `b` (R87, R181). -/
def dataIndex (m : Memory) (b bps n : Nat) : BitVec 8 := BitVec.ofNat 8 (m.code b (n * bps) bps)

/-- The bytes that hold the bits `c .. c + w - 1` of a buffer, counted from the byte that holds bit `c`. -/
def codeBytes (c w : Nat) : Nat := (c % 8 + w + 7) / 8

end Sys2Proof.Machine
end

