-- ==== Sys2Proof/Machine/Alphabet.lean ====
section
/-! DEFINITION. The alphabet commands (spec/41_alphabet.md). -/

namespace Sys2Proof.Machine

/-- ALPHA_BIND (R120): symbol bytes are not read. -/
def execAlphaBind (alpha count maxp : BitVec 8) (base len : BitVec 32) (s : State) : Result :=
  match alphaOf alpha with
  | none => .next (s.raise (.illegalCommand 0x20 .operand))
  | some a =>
    let size := count.toNat * symbolBytes maxp.toNat
    if ¬ s.hasRegion base.toNat len.toNat then .next (s.raise (.badRegion (base.toNat + len.toNat)))
    else if len.toNat < size then .next (s.raise (.truncatedStream size .bytes))
    else .next ((s.setAlpha a { base := base, count := count, maxp := maxp }).complete 0)

/-- The packed response of SYM_GET (R79, R126): flag, active count, polarity rule. -/
def symbolSummary (t : SymTable) (m : Memory) (idx : Nat) : Word :=
  (t.flag m idx).setWidth 64
    ||| (BitVec.ofNat 64 (t.activeCount m idx) <<< 8)
    ||| ((t.rule m idx).bits.setWidth 64 <<< 16)

/-- SYM_GET (R126). -/
def execSymGet (alpha idx : BitVec 8) (s : State) : Result :=
  match alphaOf alpha with
  | none => .next (s.raise (.illegalCommand 0x21 .operand))
  | some a =>
    let t := (s.alpha a).table
    if t.count = 0 then .next (s.raise (.invalidAlphabetSize a))
    else if t.count ≤ idx.toNat then .next (s.raise (.outOfRange idx .index))
    else s.reading (t.symAddr idx.toNat) (symbolBytes t.maxp)
      (.next ((s.examine t idx.toNat).complete (symbolSummary t s.mem idx.toNat)))

/-- SYM_DUR (R127): a slot after the first zero is readable. -/
def execSymDur (alpha idx slot : BitVec 8) (s : State) : Result :=
  match alphaOf alpha with
  | none => .next (s.raise (.illegalCommand 0x22 .operand))
  | some a =>
    let t := (s.alpha a).table
    if t.count = 0 then .next (s.raise (.invalidAlphabetSize a))
    else if t.count ≤ idx.toNat then .next (s.raise (.outOfRange idx .index))
    else if t.maxp ≤ slot.toNat then .next (s.raise (.outOfRange slot .slot))
    else s.reading (t.symAddr idx.toNat + 1 + 2 * slot.toNat) 2
      (.next (s.complete ((t.slot s.mem idx.toNat slot.toNat).setWidth 64)))

end Sys2Proof.Machine
end

