-- ==== Sys2Proof/Machine/Bitstream.lean ====
section
/-! DEFINITION. The bit-stream reader commands (spec/42_bitstream.md). -/

namespace Sys2Proof.Machine

/-- BSR_OPEN (R141). -/
def execBsrOpen (inst : BitVec 8) (base len : BitVec 32) (s : State) : Result :=
  if s.nBsr ≤ inst.toNat then .next (s.raise (.illegalCommand 0x10 .operand))
  else if ¬ s.hasRegion base.toNat len.toNat then .next (s.raise (.badRegion (base.toNat + len.toNat)))
  else .next ((s.setReader inst.toNat { base := base, len := len, cursor := 0 }).complete 0)

/-- BSR_RESTART (R142). -/
def execBsrRestart (inst : BitVec 8) (s : State) : Result :=
  match s.reader inst.toNat with
  | none => .next (s.raise (.illegalCommand 0x11 .operand))
  | some r => .next ((s.setReader inst.toNat { r with cursor := 0 }).complete 0)

/-- BSR_READ (R143): a width outside 1..16 is IllegalCommand; too few bits leave the cursor where it was. -/
def execBsrRead (inst : BitVec 8) (width : BitVec 16) (s : State) : Result :=
  match s.reader inst.toNat with
  | none => .next (s.raise (.illegalCommand 0x12 .operand))
  | some r =>
    let c := r.cursor.toNat
    let w := width.toNat
    if w < 1 ∨ 16 < w then .next (s.raise (.illegalCommand 0x12 .operand))
    else if 8 * r.len.toNat < c + w then .next (s.raise (.truncatedStream (c + w) .bits))
    else s.reading (r.base.toNat + c / 8) (codeBytes c w)
      (.next ((s.setReader inst.toNat { r with cursor := BitVec.ofNat 35 (c + w) }).complete
        (BitVec.ofNat 64 (s.mem.code r.base.toNat c w))))

end Sys2Proof.Machine
end

