-- ==== Sys2Proof/Machine/Block.lean ====
section
/-! DEFINITION. The block decoder (spec/46_block.md): validate the whole block, then emit it. Its descriptors exist only
during the command (R231). -/

namespace Sys2Proof.Machine

/-- The header fields of a block (R85, R232). -/
structure Header where
  pause : BitVec 16
  totp  : Nat
  npp   : Nat
  asp   : Nat
  totd  : Nat
  npd   : Nat
  asd   : Nat
  deriving DecidableEq, Repr

/-- Reading the header at the block base (R232). -/
def readHeader (m : Memory) (base : Nat) : Header where
  pause := BitVec.ofNat 16 (m.read (base + 0) 2)
  totp  := m.read (base + 2) 4
  npp   := m.read (base + 6) 1
  asp   := m.read (base + 7) 1
  totd  := m.read (base + 8) 4
  npd   := m.read (base + 12) 1
  asd   := m.read (base + 13) 1

/-- The offset of the pilot alphabet: after the 14-byte header (R233). -/
def Header.pilotOffset (_ : Header) : Nat := 14

/-- The offset of the pilot PRLE (R233). -/
def Header.prleOffset (h : Header) : Nat := h.pilotOffset + h.asp * symbolBytes h.npp

/-- The offset of the data alphabet (R233). -/
def Header.dataOffset (h : Header) : Nat := h.prleOffset + 3 * h.totp

/-- The offset of the data payload (R233). -/
def Header.payloadOffset (h : Header) : Nat := h.dataOffset + h.asd * symbolBytes h.npd

/-- `bps` of the block (R233). -/
def Header.bps (h : Header) : Nat := bitsPerSymbol h.asd

/-- `S`, the computed size (R233), in exact arithmetic (R8). -/
def Header.size (h : Header) : Nat := h.payloadOffset + payloadBytes h.bps h.totd

/-- `Pilot` (R233). -/
def Header.pilotTable (h : Header) (base : Nat) : SymTable :=
  { base := base + h.pilotOffset, count := h.asp, maxp := h.npp }

/-- `Data` (R233). -/
def Header.dataTable (h : Header) (base : Nat) : SymTable :=
  { base := base + h.dataOffset, count := h.asd, maxp := h.npd }

/-- The symbol index of entry `k` (R233). -/
def Header.blockSym (h : Header) (m : Memory) (base k : Nat) : BitVec 8 := entrySym m (base + h.prleOffset) k

/-- The repeat count of entry `k` (R233). -/
def Header.blockRep (h : Header) (m : Memory) (base k : Nat) : BitVec 16 := entryRep m (base + h.prleOffset) k

/-- `Index n` (R233). -/
def Header.blockIndex (h : Header) (m : Memory) (base n : Nat) : BitVec 8 :=
  dataIndex m (base + h.payloadOffset) h.bps n

/-- The first of `0 .. n-1` at which `f` answers an error, and that error. -/
def firstError (f : Nat → Option CmdError) (n : Nat) : Option CmdError := (List.range n).findSome? f

/-- Step 9 of R234 at entry `k`. -/
def Header.entryError (h : Header) (m : Memory) (base k : Nat) : Option CmdError :=
  if h.asp ≤ (h.blockSym m base k).toNat then
    some (.invalidSymbolReference (h.blockSym m base k) .pilot (BitVec.ofNat 32 k))
  else none

/-- Step 10 of R234 at data symbol `n`. -/
def Header.indexError (h : Header) (m : Memory) (base n : Nat) : Option CmdError :=
  if h.asd ≤ (h.blockIndex m base n).toNat then
    some (.invalidSymbolReference (h.blockIndex m base n) .data (BitVec.ofNat 32 n))
  else none

/-- Steps 5 to 10 of R234, in order, on the header read at step 4. -/
def Header.check (h : Header) (m : Memory) (base declLen : Nat) : Option CmdError :=
  if 0 < h.totp ∧ h.asp = 0 then some (.invalidAlphabetSize .pilot)
  else if 0 < h.totd ∧ h.asd = 0 then some (.invalidAlphabetSize .data)
  else if declLen < h.size then some (.truncatedStream h.size .bytes)
  else if h.size < declLen then some (.structuralError h.size)
  else match firstError (h.entryError m base) h.totp with
    | some e => some e
    | none => firstError (h.indexError m base) h.totd

/-- `Check(base, declLen)` (R234) after the frame checks: the first check that fails, or none. -/
def State.blockError (s : State) (base declLen : Nat) : Option CmdError :=
  if ¬ s.hasRegion base declLen then some (.badRegion (base + declLen))
  else if declLen < 14 then some (.truncatedStream 14 .bytes)
  else (readHeader s.mem base).check s.mem base declLen

/-- One entry of the pilot phase: `EmitSymbol` of its symbol, `rep` times (R237). -/
def Header.emitEntry (h : Header) (m : Memory) (base k : Nat) (e : Emitter) : Emitter :=
  (Emitter.emitSymbol (h.pilotTable base) m (h.blockSym m base k).toNat)^[(h.blockRep m base k).toNat] e

/-- `PilotPhase` (R237). -/
def Header.pilotPhase (h : Header) (m : Memory) (base : Nat) (e : Emitter) : Emitter :=
  (List.range h.totp).foldl (fun e k => h.emitEntry m base k e) e

/-- `DataPhase` (R238). -/
def Header.dataPhase (h : Header) (m : Memory) (base : Nat) (e : Emitter) : Emitter :=
  (List.range h.totd).foldl (fun e n => e.emitSymbol (h.dataTable base) m (h.blockIndex m base n).toNat) e

/-- The emission of `Commit` (R236): clear the counters, pilot phase, data phase, pause. `LEVEL` is not reset. -/
def Header.emitBlock (h : Header) (m : Memory) (base : Nat) (e : Emitter) : Emitter :=
  (h.dataPhase m base (h.pilotPhase m base e.clearCounters)).silence h.pause

/-- `Commit(base, declLen)` (R236). -/
def State.commitBlock (base : Nat) (s : State) : State :=
  let h := readHeader s.mem base
  { s with
    warn     := s.warn ||| (h.pilotTable base).allWarnBits s.mem ||| (h.dataTable base).allWarnBits s.mem
    emitter  := h.emitBlock s.mem base s.emitter
    blkPause := h.pause
    blkSize  := BitVec.ofNat 64 h.size }

/-- DECODE_BLOCK (R230): it returns `PULSE_COUNT`. -/
def execDecodeBlock (base declLen : BitVec 32) (s : State) : Result :=
  match s.blockError base.toNat declLen.toNat with
  | some e => .next (s.raise e)
  | none => .next ((s.commitBlock base.toNat).complete (s.commitBlock base.toNat).emitter.pulseCount)

end Sys2Proof.Machine
end

