-- ==== Sys2Proof/Machine/Control.lean ====
section
/-! DEFINITION. The control commands (spec/40_control.md). -/

namespace Sys2Proof.Machine

/-- NOP (R100): no effect. -/
def execNop (s : State) : Result := .next (s.complete 0)

/-- LVL_SET (R101): `LEVEL <- A[0]`, and no output record. -/
def execLvlSet (level : Level) (s : State) : Result :=
  .next ({ s with emitter := { s.emitter with level := level } }.complete 0)

/-- REG_READ (R102): the register is read before `LAST_STATUS` is written. -/
def execRegRead (reg : BitVec 16) (s : State) : Result :=
  match Reg.ofNumber s.nBsr reg with
  | none => .next (s.raise (.illegalCommand 0x02 .operand))
  | some r => .next (s.complete (s.readReg r))

/-- CFG_WRITE (R103): the bit-packed PRLE format is Unsupported. -/
def execCfgWrite (prleFormat : BitVec 1) (s : State) : Result :=
  if prleFormat = 1 then .next (s.raise (.unsupported 0x03))
  else .next ({ s with cfg := 0 }.complete 0)

/-- WARN_CLEAR (R104). -/
def execWarnClear (s : State) : Result := .next ({ s with warn := 0 }.complete 0)

/-- CNT_CLEAR (R105): `LEVEL` is not touched. -/
def execCntClear (s : State) : Result :=
  .next ({ s with emitter := s.emitter.clearCounters }.complete 0)

end Sys2Proof.Machine
end

