-- ==== Sys2Proof/Machine/Datastream.lean ====
section
/-! DEFINITION. The data-symbol stream commands (spec/44_datastream.md). -/

namespace Sys2Proof.Machine

/-- DSS_OPEN (R182): the data alphabet's size and its bitsPerSymbol are captured, and instance `i` is opened. -/
def execDssOpen (inst : BitVec 8) (base len totd : BitVec 32) (s : State) : Result :=
  let asd := s.alphaData.count
  let bps := bitsPerSymbol asd.toNat
  let need := payloadBytes bps totd.toNat
  if s.nBsr ≤ inst.toNat then .next (s.raise (.illegalCommand 0x40 .operand))
  else if ¬ s.hasRegion base.toNat len.toNat then .next (s.raise (.badRegion (base.toNat + len.toNat)))
  else if 0 < totd.toNat ∧ asd = 0 then .next (s.raise (.invalidAlphabetSize .data))
  else if len.toNat < need then .next (s.raise (.truncatedStream need .bytes))
  else .next (({ s with dss :=
      { inst := inst.setWidth 4, totd := totd, bps := BitVec.ofNat 4 bps, asd := asd, produced := 0 } }.setReader
        inst.toNat { base := base, len := len, cursor := 0 }).complete 0)

/-- DSS_RESTART (R183). -/
def execDssRestart (s : State) : Result :=
  match s.reader s.dss.inst.toNat with
  | none => .fault (.missingReader s.dss.inst.toNat)
  | some r => .next (({ s with dss := { s.dss with produced := 0 } }.setReader s.dss.inst.toNat
      { r with cursor := 0 }).complete 0)

/-- DSS_NEXT (R184): on an error neither the cursor nor `PRODUCED` advances. -/
def execDssNext (s : State) : Result :=
  let d := s.dss
  if d.produced = d.totd then .next s.finishStream
  else match s.reader d.inst.toNat with
    | none => .fault (.missingReader d.inst.toNat)
    | some r =>
      let c := r.cursor.toNat
      let w := d.bps.toNat
      if 8 * r.len.toNat < c + w then .next (s.raise (.truncatedStream (c + w) .bits))
      else s.reading (r.base.toNat + c / 8) (codeBytes c w)
        (let idx := s.mem.code r.base.toNat c w
         if d.asd.toNat ≤ idx then
           .next (s.raise (.invalidSymbolReference (BitVec.ofNat 8 idx) .data d.produced))
         else .next (({ s with dss := { d with produced := d.produced + 1 } }.setReader d.inst.toNat
           { r with cursor := BitVec.ofNat 35 (c + w) }).complete (BitVec.ofNat 64 idx)))

end Sys2Proof.Machine
end

