-- ==== Sys2Proof/Machine/Emit.lean ====
section
/-! DEFINITION. The emitter commands (spec/45_emitter.md). -/

namespace Sys2Proof.Machine

/-- EMIT (R207). -/
def execEmit (rule : PolRule) (duration : BitVec 16) (s : State) : Result :=
  .next ({ s with emitter := s.emitter.emitPulse duration rule }.complete 0)

/-- EMIT_SYM (R208): it returns the number of PULSE records it emitted. -/
def execEmitSym (alpha idx : BitVec 8) (s : State) : Result :=
  match alphaOf alpha with
  | none => .next (s.raise (.illegalCommand 0x51 .operand))
  | some a =>
    let t := (s.alpha a).table
    if t.count = 0 then .next (s.raise (.invalidAlphabetSize a))
    else if t.count ≤ idx.toNat then .next (s.raise (.invalidSymbolReference idx a 0))
    else s.reading (t.symAddr idx.toNat) (symbolBytes t.maxp)
      (.next ({ s.examine t idx.toNat with emitter := s.emitter.emitSymbol t s.mem idx.toNat }.complete
        (BitVec.ofNat 64 (t.activeCount s.mem idx.toNat))))

/-- SILENCE (R210). -/
def execSilence (ms : BitVec 16) (s : State) : Result :=
  .next ({ s with emitter := s.emitter.silence ms }.complete 0)

end Sys2Proof.Machine
end

