-- ==== Sys2Proof/Machine/Runlength.lean ====
section
/-! DEFINITION. The run-length decoder commands (spec/43_runlength.md): the fixed 3-byte record only (R160). -/

namespace Sys2Proof.Machine

/-- PRLE_OPEN (R162): the pilot alphabet's size is captured. -/
def execPrleOpen (base len totp : BitVec 32) (s : State) : Result :=
  let asp := s.alphaPilot.count
  if ¬ s.hasRegion base.toNat len.toNat then .next (s.raise (.badRegion (base.toNat + len.toNat)))
  else if 0 < totp.toNat ∧ asp = 0 then .next (s.raise (.invalidAlphabetSize .pilot))
  else if len.toNat < 3 * totp.toNat then .next (s.raise (.truncatedStream (3 * totp.toNat) .bytes))
  else .next ({ s with prle := { base := base, totp := totp, next := 0, asp := asp } }.complete 0)

/-- PRLE_RESTART (R163). -/
def execPrleRestart (s : State) : Result :=
  .next ({ s with prle := { s.prle with next := 0 } }.complete 0)

/-- PRLE_NEXT (R164): a bad entry is never passed. -/
def execPrleNext (s : State) : Result :=
  let p := s.prle
  let k := p.next.toNat
  if p.next = p.totp then .next s.finishStream
  else s.reading (p.base.toNat + 3 * k) 3
    (let sym := entrySym s.mem p.base.toNat k
     let rep := entryRep s.mem p.base.toNat k
     if p.asp.toNat ≤ sym.toNat then .next (s.raise (.invalidSymbolReference sym .pilot p.next))
     else .next ({ s with prle := { p with next := p.next + 1 } }.complete
       (sym.setWidth 64 ||| (rep.setWidth 64 <<< 8))))

end Sys2Proof.Machine
end

