-- ==== Sys2Proof/Machine/Dispatch.lean ====
section
/-! DEFINITION. One arm per command (spec/30_encoding.md R73). -/

namespace Sys2Proof.Machine

def exec (i : Instr) (s : State) : Host.Outcome State Fault Refusal :=
  match i with
  -- 40_control.md
  | .nop => Sys2Proof.Machine.execNop s
  | .lvlSet level => Sys2Proof.Machine.execLvlSet level s
  | .regRead reg => Sys2Proof.Machine.execRegRead reg s
  | .cfgWrite prleFormat => Sys2Proof.Machine.execCfgWrite prleFormat s
  | .warnClear => Sys2Proof.Machine.execWarnClear s
  | .cntClear => Sys2Proof.Machine.execCntClear s
  -- 42_bitstream.md
  | .bsrOpen inst base len => Sys2Proof.Machine.execBsrOpen inst base len s
  | .bsrRestart inst => Sys2Proof.Machine.execBsrRestart inst s
  | .bsrRead inst width => Sys2Proof.Machine.execBsrRead inst width s
  -- 41_alphabet.md
  | .alphaBind alpha count maxp base len => Sys2Proof.Machine.execAlphaBind alpha count maxp base len s
  | .symGet alpha idx => Sys2Proof.Machine.execSymGet alpha idx s
  | .symDur alpha idx slot => Sys2Proof.Machine.execSymDur alpha idx slot s
  -- 43_runlength.md
  | .prleOpen base len totp => Sys2Proof.Machine.execPrleOpen base len totp s
  | .prleRestart => Sys2Proof.Machine.execPrleRestart s
  | .prleNext => Sys2Proof.Machine.execPrleNext s
  -- 44_datastream.md
  | .dssOpen inst base len totd => Sys2Proof.Machine.execDssOpen inst base len totd s
  | .dssRestart => Sys2Proof.Machine.execDssRestart s
  | .dssNext => Sys2Proof.Machine.execDssNext s
  -- 45_emitter.md
  | .emit rule duration => Sys2Proof.Machine.execEmit rule duration s
  | .emitSym alpha idx => Sys2Proof.Machine.execEmitSym alpha idx s
  | .silence ms => Sys2Proof.Machine.execSilence ms s
  -- 46_block.md
  | .decodeBlock base declLen => Sys2Proof.Machine.execDecodeBlock base declLen s

end Sys2Proof.Machine
end

