-- ==== Sys2Proof/Machine/Step.lean ====
section
/-! DEFINITION. One step: PDEC takes the next thing the host did (log entry 3). A command is decoded (R75) and executed
whole (R3, R60); with nothing pending PDEC "holds its state" (R275). -/

namespace Sys2Proof.Machine

def step (s : State) : Host.Outcome State Fault Refusal :=
  match s.takeEvent with
  | none => .next s
  | some (.command f, s') =>
    match decode f with
    | .ok i => exec i s'
    | .error r => .next (s'.rejectFrame r)
  | some (.write addr v, s') => s'.hostWrite addr v
  | some (.reset, s') => .next s'.applyReset

/-- `s` with the command of these bits issued before everything pending, so that the very next step runs it. -/
def State.withFetchWord (s : State) (nbits w : Nat) : State := s.issueFirst (tableFrame nbits w)

end Sys2Proof.Machine
end

