-- ==== Sys2Proof/Safety.lean ====
section
/-! DEFINITION. What the spec says of every state PDEC can be in: the ranges of its registers, the consistency of its
descriptors with the input memory, and the shape of its outputs. `State.Inv` is their conjunction; that reset has it and
every step keeps it are statements. -/

namespace Sys2Proof.Machine

/-- The parameters stay in the ranges of R6. -/
abbrev State.ParamsValid (s : State) : Prop := Params.Valid { nBsr := s.nBsr, memSize := s.memSize }

/-- The memory keeps its canonical form, and every byte written has an address that exists (R50). -/
abbrev State.MemoryValid (s : State) : Prop := s.mem.wf = true ∧ ∀ c ∈ s.mem, c.1 < s.memSize

/-- "`PARITY = PULSE_COUNT[0]` always" (R28). -/
abbrev State.ParityValid (s : State) : Prop := s.emitter.parity = s.emitter.pulseCount.extractLsb' 0 1

/-- "`CFG` always reads 0" (R26). -/
abbrev State.CfgValid (s : State) : Prop := s.cfg = 0

/-- `BLK_SIZE` holds values at most 2^32 - 1 (R31). -/
abbrev State.BlkSizeValid (s : State) : Prop := s.blkSize.toNat ≤ 2 ^ 32 - 1

/-- The symbol records of an alphabet lie in the region ALPHA_BIND checked (R120, R121). -/
abbrev State.AlphabetValid (s : State) (d : Alphabet) : Prop :=
  s.hasRegion d.base.toNat (d.count.toNat * symbolBytes d.maxp.toNat)

/-- 0 <= NEXT <= TOTP (R34), the entries lie in the region PRLE_OPEN checked, and a nonempty stream has a nonempty
alphabet (R162). -/
abbrev State.PrleValid (s : State) : Prop :=
  s.prle.next.toNat ≤ s.prle.totp.toNat ∧ s.hasRegion s.prle.base.toNat (3 * s.prle.totp.toNat) ∧
    (0 < s.prle.totp.toNat → s.prle.asp ≠ 0)

/-- `INST` names an instance, BPS is bitsPerSymbol of ASD (so 1 to 8), and 0 <= PRODUCED <= TOTD (R35). -/
abbrev State.DssValid (s : State) : Prop :=
  s.dss.inst.toNat < s.nBsr ∧ s.dss.bps.toNat = bitsPerSymbol s.dss.asd.toNat ∧
    s.dss.produced.toNat ≤ s.dss.totd.toNat ∧ (0 < s.dss.totd.toNat → s.dss.asd ≠ 0)

/-- 0 <= CURSOR <= 8*LEN, and the buffer is in memory (R36, R141). -/
abbrev State.ReaderValid (s : State) (r : Bsr) : Prop :=
  r.cursor.toNat ≤ 8 * r.len.toNat ∧ s.hasRegion r.base.toNat r.len.toNat

/-- A CORRECTIVE record has duration 0, and no record is longer than the 16 bits a duration or a pause has (R81, R7). -/
abbrev OutRecord.Valid (r : OutRecord) : Prop :=
  (r.kind = .corrective → r.duration = 0) ∧ r.duration.toNat < 2 ^ 16

/-- The value of a response is 0 for every status other than OK (R78). -/
abbrev Response.Valid (r : Response) : Prop := r.status ≠ .ok → r.value = 0

/-- `LAST_STATUS` is the status of the last response; before the first one it is OK (R23, R42). -/
abbrev State.LastStatusValid (s : State) : Prop :=
  s.lastStatus = (s.responses.getLast?.map Response.status).getD .ok

/-- What the spec says of every state. -/
abbrev State.Inv (s : State) : Prop :=
  s.ParamsValid ∧ s.MemoryValid ∧ s.ParityValid ∧ s.CfgValid ∧ s.BlkSizeValid ∧
  s.AlphabetValid s.alphaPilot ∧ s.AlphabetValid s.alphaData ∧ s.PrleValid ∧ s.DssValid ∧
  (∀ r ∈ s.bsr, s.ReaderValid r) ∧ (∀ r ∈ s.emitter.out, r.Valid) ∧ (∀ r ∈ s.responses, r.Valid) ∧
  s.LastStatusValid

/-! ## Terms of the claims -/

/-- `s` after a command that answered (st, v) and wrote no register but `LAST_STATUS` (R23, R78). -/
abbrev State.answered (s : State) (st : Status) (v : Word) : State :=
  { s with lastStatus := st, responses := s.responses ++ [{ status := st, value := v }] }

/-- `s` after a command that ended with the error status `st` and recorded `info` (R262). -/
abbrev State.failed (s : State) (st : Status) (info : Word) : State :=
  { s with lastStatus := st, errInfo := info, responses := s.responses ++ [{ status := st, value := 0 }] }

/-- A frame with the OP of a row whose reserved bits (`mask` without the OP) are not all zero raises IllegalCommand with
cause 0, and nothing else changes (R72, R74). -/
abbrev ReservedBitsRefused (op : BitVec 8) (mask : Frame) : Prop :=
  ∀ (s : State) (f : Frame) (rest : List HostEvent),
    s.port = .command f :: rest → f.extractLsb' 120 8 = op → f &&& mask ≠ op ++ 0#120 →
      step s = .next (State.failed { s with port := rest } .illegalCommand (op.setWidth 64))

/-- A sequence of commands in issue order: "the composition of their effects" (R60). -/
def runCommands : List Instr → State → Result
  | [], s => .next s
  | i :: rest, s =>
    match exec i s with
    | .next t => runCommands rest t
    | .fault r => .fault r
    | .refused r => .refused r

/-- The statuses each command can end with (R264), IllegalCommand for a frame that spells no command apart. -/
def statusesOf : Instr → List Status
  | .nop => [.ok]
  | .lvlSet _ => [.ok]
  | .regRead _ => [.ok, .illegalCommand]
  | .cfgWrite _ => [.ok, .unsupported]
  | .warnClear => [.ok]
  | .cntClear => [.ok]
  | .bsrOpen _ _ _ => [.ok, .illegalCommand, .badRegion]
  | .bsrRestart _ => [.ok, .illegalCommand]
  | .bsrRead _ _ => [.ok, .illegalCommand, .truncatedStream]
  | .alphaBind _ _ _ _ _ => [.ok, .illegalCommand, .badRegion, .truncatedStream]
  | .symGet _ _ => [.ok, .illegalCommand, .invalidAlphabetSize, .outOfRange]
  | .symDur _ _ _ => [.ok, .illegalCommand, .invalidAlphabetSize, .outOfRange]
  | .prleOpen _ _ _ => [.ok, .badRegion, .invalidAlphabetSize, .truncatedStream]
  | .prleRestart => [.ok]
  | .prleNext => [.ok, .endOfStream, .invalidSymbolReference]
  | .dssOpen _ _ _ _ => [.ok, .illegalCommand, .badRegion, .invalidAlphabetSize, .truncatedStream]
  | .dssRestart => [.ok]
  | .dssNext => [.ok, .endOfStream, .truncatedStream, .invalidSymbolReference]
  | .emit _ _ => [.ok]
  | .emitSym _ _ => [.ok, .illegalCommand, .invalidAlphabetSize, .invalidSymbolReference]
  | .silence _ => [.ok]
  | .decodeBlock _ _ =>
    [.ok, .badRegion, .truncatedStream, .invalidAlphabetSize, .structuralError, .invalidSymbolReference]

/-! What an emission is, without the machine: a list of pulses, each a duration and a rule, and the records it makes. -/

/-- The level after one pulse (R200 to R203). -/
def levelAfter (l : Level) : PolRule → Level
  | .toggle => l.flip
  | .keep => l
  | .forceLow => .low
  | .forceHigh => .high

/-- The records of one pulse (R200 to R203): a CORRECTIVE record first, if a FORCE rule changes the level. -/
def pulseRecords (l : Level) (d : BitVec 16) (rule : PolRule) : List OutRecord :=
  match rule with
  | .toggle => [{ kind := .pulse, duration := d.setWidth 32, level := l }]
  | .keep => [{ kind := .pulse, duration := d.setWidth 32, level := l }]
  | .forceLow =>
    (if l = .low then [] else [{ kind := .corrective, duration := 0, level := .low }]) ++
      [{ kind := .pulse, duration := d.setWidth 32, level := .low }]
  | .forceHigh =>
    (if l = .high then [] else [{ kind := .corrective, duration := 0, level := .high }]) ++
      [{ kind := .pulse, duration := d.setWidth 32, level := .high }]

/-- The records of a list of pulses from a start level, the level carried from one to the next. -/
def renderRecords : Level → List (BitVec 16 × PolRule) → List OutRecord
  | _, [] => []
  | l, (d, r) :: ps => pulseRecords l d r ++ renderRecords (levelAfter l r) ps

/-- The level after a list of pulses. -/
def renderLevel : Level → List (BitVec 16 × PolRule) → Level
  | l, [] => l
  | l, (_, r) :: ps => renderLevel (levelAfter l r) ps

/-- The sum of the durations of a list of pulses, in T-states. -/
def totalOf (ps : List (BitVec 16 × PolRule)) : Nat := (ps.map fun p => p.1.toNat).sum

/-- The pulses of one symbol: its active durations, each with the symbol's rule (R204). -/
def SymTable.pulses (t : SymTable) (m : Memory) (idx : Nat) : List (BitVec 16 × PolRule) :=
  (t.activePulses m idx).map fun d => (d, t.rule m idx)

/-- The pulses of the pilot phase (R237): each entry's symbol, `rep` times. -/
def Header.pilotPulses (h : Header) (m : Memory) (base : Nat) : List (BitVec 16 × PolRule) :=
  (List.range h.totp).flatMap fun k =>
    (List.replicate (h.blockRep m base k).toNat ((h.pilotTable base).pulses m (h.blockSym m base k).toNat)).flatten

/-- The pulses of the data phase (R238). -/
def Header.dataPulses (h : Header) (m : Memory) (base : Nat) : List (BitVec 16 × PolRule) :=
  (List.range h.totd).flatMap fun n => (h.dataTable base).pulses m (h.blockIndex m base n).toNat

/-- The pulses of a block, in the order it emits them. -/
def Header.blockPulses (h : Header) (m : Memory) (base : Nat) : List (BitVec 16 × PolRule) :=
  h.pilotPulses m base ++ h.dataPulses m base

/-- The PAUSE records of a pause entered at level `l` (R209). -/
def pauseRecords (l : Level) (ms : BitVec 16) : List OutRecord :=
  if ms = 0 then []
  else match l with
    | .high =>
      [{ kind := .pause, duration := 1, level := .high },
       { kind := .pause, duration := BitVec.ofNat 32 (ms.toNat - 1), level := .low }]
    | .low => [{ kind := .pause, duration := BitVec.ofNat 32 ms.toNat, level := .low }]

/-- What the parity law (R206) asks of a command carried out in state `s`: its pulses, if any, are TOGGLE pulses; it does
not clear the counters, and neither LVL_SET nor a pause writes `LEVEL`. A command that emits nothing is allowed. -/
def State.TogglesOnly (s : State) : Instr → Prop
  | .nop => True
  | .lvlSet _ => False
  | .regRead _ => True
  | .cfgWrite _ => True
  | .warnClear => True
  | .cntClear => False
  | .bsrOpen _ _ _ => True
  | .bsrRestart _ => True
  | .bsrRead _ _ => True
  | .alphaBind _ _ _ _ _ => True
  | .symGet _ _ => True
  | .symDur _ _ _ => True
  | .prleOpen _ _ _ => True
  | .prleRestart => True
  | .prleNext => True
  | .dssOpen _ _ _ _ => True
  | .dssRestart => True
  | .dssNext => True
  | .emit rule _ => rule = .toggle
  | .emitSym alpha idx =>
    ∀ a : AlphaSel, alpha.toNat = a.bit.toNat → idx.toNat < (s.alpha a).count.toNat →
      ∀ p ∈ (s.alpha a).table.pulses s.mem idx.toNat, p.2 = .toggle
  | .silence ms => ms = 0 ∨ s.emitter.level = .low
  | .decodeBlock base declLen => s.blockError base.toNat declLen.toNat ≠ none

/-- Commands in issue order, each as R206 asks in the state it is carried out in. -/
def State.AllToggleOnly : State → List Instr → Prop
  | _, [] => True
  | s, i :: rest => s.TogglesOnly i ∧ ∀ t, exec i s = .next t → State.AllToggleOnly t rest

/-- The component commands that replay a block whose alphabets are bound (45_emitter.md R208): every entry's EMIT_SYM
`rep` times, every data index's EMIT_SYM, then the pause. -/
def Header.componentCommands (h : Header) (m : Memory) (base : Nat) : List Instr :=
  ((List.range h.totp).flatMap fun k =>
      List.replicate (h.blockRep m base k).toNat (Instr.emitSym 0 (h.blockSym m base k))) ++
    ((List.range h.totd).map fun n => Instr.emitSym 1 (h.blockIndex m base n)) ++
    [.silence h.pause]

end Sys2Proof.Machine
end

