-- ==== Sys2Proof/WellFormed.lean ====
section
/-! DEFINITION. The value checks on operands that R74 of spec/30_encoding.md lists: an instruction whose operands are
all in range. The others are commands too, and raise IllegalCommand with cause 1. -/

namespace Sys2Proof

/-- Instance below N_BSR. -/
def instanceInRange (nBsr : Nat) (inst : BitVec 8) : Bool := inst.toNat < nBsr

/-- Alphabet 0 or 1. -/
def alphabetInRange (alpha : BitVec 8) : Bool := alpha.toNat ≤ 1

/-- Reader width 1 to 16. -/
def widthInRange (width : BitVec 16) : Bool := 1 ≤ width.toNat && width.toNat ≤ 16

/-- Register number assigned (R37). -/
def registerAssigned (nBsr : Nat) (reg : BitVec 16) : Bool := (Reg.ofNumber nBsr reg).isSome

/-- The value checks of R74, on a machine with `nBsr` reader instances. -/
def Instr.WellFormed (nBsr : Nat) : Instr → Bool
  | .nop => true
  | .lvlSet _ => true
  | .regRead reg => registerAssigned nBsr reg
  | .cfgWrite _ => true
  | .warnClear => true
  | .cntClear => true
  | .bsrOpen inst _ _ => instanceInRange nBsr inst
  | .bsrRestart inst => instanceInRange nBsr inst
  | .bsrRead inst width => instanceInRange nBsr inst && widthInRange width
  | .alphaBind alpha _ _ _ _ => alphabetInRange alpha
  | .symGet alpha _ => alphabetInRange alpha
  | .symDur alpha _ _ => alphabetInRange alpha
  | .prleOpen _ _ _ => true
  | .prleRestart => true
  | .prleNext => true
  | .dssOpen inst _ _ _ => instanceInRange nBsr inst
  | .dssRestart => true
  | .dssNext => true
  | .emit _ _ => true
  | .emitSym alpha _ => alphabetInRange alpha
  | .silence _ => true
  | .decodeBlock _ _ => true

end Sys2Proof
end

