-- ==== Sys2Proof/Certificates/Slice0/Obligations.lean ====
section
/-! DEFINITION. The statements for the provers, from the numbered rules of spec/. A step's effect is stated as the whole
next state: every field not named in it is unchanged. `State.answered` and `State.failed` are how a command ends. -/

open Sys2Proof Sys2Proof.Machine

/-! ## The interface: steps, frames, reset -/

/-- A step runs the command of the frame at the head of the port (R60, R75); the port is the model's own (log entry 3). -/
def Obligations.StepRunsTheDecodedCommand : Prop :=
  ∀ (s : State) (f : Frame) (i : Instr) (rest : List HostEvent),
    s.port = .command f :: rest → decode f = .ok i → step s = exec i { s with port := rest }

/-- R72: "A frame with a nonzero reserved bit, or with an OP value not listed in rule R73, spells no command: PDEC raises
IllegalCommand with `ERR_INFO[7:0]` = OP". Such a frame matches no row of the opcode table. Nothing else changes. -/
def Obligations.FrameWithoutACommandIsIllegal : Prop :=
  ∀ (s : State) (f : Frame) (rest : List HostEvent),
    s.port = .command f :: rest → (∀ r ∈ opcodeTable, ¬ r.Matches f) →
      step s = .next (State.failed { s with port := rest } .illegalCommand (BitVec.ofNat 64 (f.toNat / 2 ^ 120)))

/-- With nothing pending PDEC holds its state (R275); a host write between commands is what the next read of that byte
sees, and it changes nothing else (R61); a write to an address that does not exist stops the machine (log entry 6). -/
def Obligations.IdleStepsAndHostWrites : Prop :=
  ∀ s : State,
    (s.port = [] → step s = .next s) ∧
    (∀ addr v rest, s.port = .write addr v :: rest →
      (addr.toNat < s.memSize →
        ∃ m, step s = .next { s with port := rest, mem := m } ∧ m.byte addr.toNat = v ∧
          ∀ a, a ≠ addr.toNat → m.byte a = s.mem.byte a) ∧
      (s.memSize ≤ addr.toNat → step s = .fault (.hostWriteOutsideMemory addr.toNat)))

/-- R290: a reset event sets every register to its reset value, empties `OUT`, leaves `M` and the parameters unchanged.
That it empties the list of responses and keeps what is pending is the model's choice (log entries 3 and 4). -/
def Obligations.ResetEventRestoresEveryRegister : Prop :=
  ∀ (s : State) (rest : List HostEvent), s.port = .reset :: rest →
    ∃ t, step s = .next t ∧
      (∀ r : Reg, t.readReg r = match r with
        | .dssBps => 1
        | .paramNBsr => BitVec.ofNat 64 s.nBsr
        | .paramMemSize => BitVec.ofNat 64 s.memSize
        | _ => 0) ∧
      t.emitter.out = [] ∧ t.mem = s.mem ∧ t.memSize = s.memSize ∧ t.nBsr = s.nBsr ∧
      t.port = rest ∧ t.responses = []

/-- R42: the reset values, whatever the parameters and the memory image. `State.reset` is the reset of one machine R6
allows; which one is the model's choice (log entry 1). -/
def Obligations.ResetLeavesTheStatedValues : Prop :=
  ∀ (p : Params) (m : Memory),
    (∀ r : Reg, (State.resetWith p m).readReg r = match r with
      | .dssBps => 1
      | .paramNBsr => BitVec.ofNat 64 p.nBsr
      | .paramMemSize => BitVec.ofNat 64 p.memSize
      | _ => 0) ∧
    (State.resetWith p m).emitter.out = [] ∧ (State.resetWith p m).mem = m ∧
    (State.resetWith p m).bsr = List.replicate p.nBsr { base := 0, len := 0, cursor := 0 } ∧
    ∃ p' : Params, p'.Valid ∧ State.reset = State.resetWith p' []

/-- R292: after reset `PRLE_NEXT` and `DSS_NEXT` return END, `BSR_READ` raises TruncatedStream, and `SYM_GET`, `SYM_DUR`,
`EMIT_SYM` raise InvalidAlphabetSize. -/
def Obligations.AfterResetStreamsAndAlphabetsAreEmpty : Prop :=
  ∀ (p : Params) (m : Memory), p.Valid →
    let s := State.resetWith p m
    exec .prleNext s = .next (s.answered .endOfStream 0) ∧
    exec .dssNext s = .next (s.answered .endOfStream 0) ∧
    (∀ (inst : BitVec 8) (width : BitVec 16), inst.toNat < p.nBsr → 1 ≤ width.toNat → width.toNat ≤ 16 →
      exec (.bsrRead inst width) s =
        .next (s.failed .truncatedStream (BitVec.ofNat 64 (2 ^ 63 + width.toNat)))) ∧
    (∀ alpha idx slot : BitVec 8, alpha.toNat ≤ 1 →
      exec (.symGet alpha idx) s = .next (s.failed .invalidAlphabetSize (alpha.setWidth 64)) ∧
      exec (.symDur alpha idx slot) s = .next (s.failed .invalidAlphabetSize (alpha.setWidth 64)) ∧
      exec (.emitSym alpha idx) s = .next (s.failed .invalidAlphabetSize (alpha.setWidth 64)))

/-! ## Encodings -/

/-- Decoding the frame of a command gives the command back, with every operand at every value its field admits. -/
def Obligations.DecodeOfEncodeIsTheCommand : Prop :=
  ∀ i : Instr, decode (encode i) = .ok i

/-- A frame that decodes to a command is the frame of that command: no bit of it is ignored (R72, R75). -/
def Obligations.EncodeOfDecodeIsTheFrame : Prop :=
  ∀ (f : Frame) (i : Instr), decode f = .ok i → encode i = f

/-- A frame decodes to a row's command exactly when it matches the row's mask and pattern in the opcode table
(spec/INDEX.md), and no frame matches two rows. -/
def Obligations.DecoderAgreesWithTheOpcodeTable : Prop :=
  (∀ (f : Frame) (r : OpcodeRow), r ∈ opcodeTable →
    (r.Matches f ↔ ∃ i, decode f = .ok i ∧ i.mnemonic = r.mnemonic)) ∧
  (∀ (f : Frame) (r r' : OpcodeRow), r ∈ opcodeTable → r' ∈ opcodeTable → r.Matches f → r'.Matches f → r = r')

/-- Frames of spec/95_test_vectors.md, one of each family, decode to the commands they stand for. -/
def Obligations.FramesOfTheVectorsDecode : Prop :=
  decode 0x01010000000000000000000000000000 = .ok (.lvlSet .high) ∧
  decode 0x02000106000000000000000000000000 = .ok (.regRead 0x106) ∧
  decode 0x10010000000002000000000300000000 = .ok (.bsrOpen 1 0x200 3) ∧
  decode 0x20010202000001000000000A00000000 = .ok (.alphaBind 1 2 2 0x100 10) ∧
  decode 0x22010201000000000000000000000000 = .ok (.symDur 1 1 2) ∧
  decode 0x30000000000003000000000900000003 = .ok (.prleOpen 0x300 9 3) ∧
  decode 0x40010000000004000000000100000002 = .ok (.dssOpen 1 0x400 1 2) ∧
  decode 0x500301F4000000000000000000000000 = .ok (.emit .forceHigh 500) ∧
  decode 0x60000000000000140000001700000000 = .ok (.decodeBlock 0x14 23) ∧
  decode 0x01020000000000000000000000000000 = .error (.reservedBits 0x01) ∧
  decode 0x06000000000000000000000000000000 = .error (.unknownOpcode 0x06)

/-! ## Control commands -/

/-- NOP, LVL_SET, WARN_CLEAR and CNT_CLEAR complete from every state with exactly these effects (R100, R101, R104,
R105). -/
def Obligations.ControlCommandsComplete : Prop :=
  ∀ s : State,
    (encode .nop = 0 ∧ exec .nop s = .next (s.answered .ok 0)) ∧
    (∀ l : Level, encode (.lvlSet l) = 0x01#8 ++ 0#7 ++ l.bit ++ 0#112 ∧
      exec (.lvlSet l) s = .next (State.answered { s with emitter := { s.emitter with level := l } } .ok 0)) ∧
    (encode .warnClear = 0x04#8 ++ 0#120 ∧
      exec .warnClear s = .next (State.answered { s with warn := 0 } .ok 0)) ∧
    (encode .cntClear = 0x05#8 ++ 0#120 ∧
      exec .cntClear s = .next (State.answered
        { s with emitter := { s.emitter with pulseCount := 0, parity := 0, totalDur := 0 } } .ok 0)) ∧
    ReservedBitsRefused 0x00 0xFFFFFFFFFFFFFFFFFFFFFFFFFFFFFFFF ∧
    ReservedBitsRefused 0x01 0xFFFEFFFFFFFFFFFFFFFFFFFFFFFFFFFF ∧
    ReservedBitsRefused 0x04 0xFFFFFFFFFFFFFFFFFFFFFFFFFFFFFFFF ∧
    ReservedBitsRefused 0x05 0xFFFFFFFFFFFFFFFFFFFFFFFFFFFFFFFF

/-- CFG_WRITE (R103): 0 writes `CFG`, 1 is refused with Unsupported and `ERR_INFO` = 0x03. -/
def Obligations.CfgWriteRefusesBitPackedPrle : Prop :=
  ∀ s : State,
    (∀ b : BitVec 1, encode (.cfgWrite b) = 0x03#8 ++ 0#7 ++ b ++ 0#112) ∧
    ReservedBitsRefused 0x03 0xFFFEFFFFFFFFFFFFFFFFFFFFFFFFFFFF ∧
    exec (.cfgWrite 0) s = .next (State.answered { s with cfg := 0 } .ok 0) ∧
    exec (.cfgWrite 1) s = .next (s.failed .unsupported 0x03)

/-- REG_READ (R102) over the register map (R37): every assigned number answers its register, zero-extended, and every
other number raises IllegalCommand with `ERR_INFO` = 0x102. `LAST_STATUS` reads as the codes of R260. -/
def Obligations.RegisterReadsFollowTheMap : Prop :=
  ∀ s : State, s.nBsr ≤ 16 →
    let reads := fun (n v : Nat) => exec (.regRead (BitVec.ofNat 16 n)) s = .next (s.answered .ok (BitVec.ofNat 64 v))
    (∀ n, encode (.regRead n) = 0x02#8 ++ 0#8 ++ n ++ 0#96) ∧
    ReservedBitsRefused 0x02 0xFFFF0000FFFFFFFFFFFFFFFFFFFFFFFF ∧
    (reads 0x000 (match s.emitter.level with | .low => 0 | .high => 1) ∧
      reads 0x001 (match s.lastStatus with
        | .ok => 0
        | .endOfStream => 1
        | .structuralError => 2
        | .truncatedStream => 3
        | .invalidSymbolReference => 4
        | .invalidAlphabetSize => 5
        | .outOfRange => 6
        | .illegalCommand => 7
        | .badRegion => 8
        | .unsupported => 9) ∧
      reads 0x002 s.errInfo.toNat ∧ reads 0x003 s.warn.toNat ∧
      reads 0x004 s.cfg.toNat ∧ reads 0x005 s.emitter.pulseCount.toNat ∧ reads 0x006 s.emitter.parity.toNat ∧
      reads 0x007 (s.emitter.totalDur.toNat % 2 ^ 64) ∧ reads 0x008 (s.emitter.totalDur.toNat / 2 ^ 64) ∧
      reads 0x009 s.blkPause.toNat ∧ reads 0x00A s.blkSize.toNat ∧ reads 0x00B s.nBsr ∧ reads 0x00C s.memSize) ∧
    (reads 0x010 s.alphaPilot.base.toNat ∧ reads 0x011 s.alphaPilot.count.toNat ∧ reads 0x012 s.alphaPilot.maxp.toNat ∧
      reads 0x014 s.alphaData.base.toNat ∧ reads 0x015 s.alphaData.count.toNat ∧ reads 0x016 s.alphaData.maxp.toNat ∧
      reads 0x020 s.prle.base.toNat ∧ reads 0x021 s.prle.totp.toNat ∧ reads 0x022 s.prle.next.toNat ∧
      reads 0x023 s.prle.asp.toNat ∧ reads 0x030 s.dss.inst.toNat ∧ reads 0x031 s.dss.totd.toNat ∧
      reads 0x032 s.dss.bps.toNat ∧ reads 0x033 s.dss.asd.toNat ∧ reads 0x034 s.dss.produced.toNat) ∧
    (∀ (i : Nat) (r : Bsr), s.bsr[i]? = some r →
      reads (0x100 + 4 * i) r.base.toNat ∧ reads (0x101 + 4 * i) r.len.toNat ∧
      reads (0x102 + 4 * i) r.cursor.toNat) ∧
    (∀ n : BitVec 16,
      0x00C < n.toNat → ¬ (0x010 ≤ n.toNat ∧ n.toNat ≤ 0x012) → ¬ (0x014 ≤ n.toNat ∧ n.toNat ≤ 0x016) →
      ¬ (0x020 ≤ n.toNat ∧ n.toNat ≤ 0x023) → ¬ (0x030 ≤ n.toNat ∧ n.toNat ≤ 0x034) →
      (∀ i k, i < s.nBsr → k < 3 → n.toNat ≠ 0x100 + 4 * i + k) →
      exec (.regRead n) s = .next (s.failed .illegalCommand 0x102))

/-! ## Bit-stream reader -/

/-- R52: multi-byte values are little-endian. -/
def Obligations.MemReadIsTheLittleEndianSum : Prop :=
  ∀ (m : Memory) (addr n : Nat),
    m.read addr n = ∑ k ∈ Finset.range n, (m.byte (addr + k)).toNat * 2 ^ (8 * k)

/-- R140 over R54: a code is the MSB-first sum of its bits, bit 0 the most significant bit of the first byte, and it is
below 2^w; the last clause is R54 itself. -/
def Obligations.CodeIsTheMsbFirstSumOfItsBits : Prop :=
  ∀ (m : Memory) (b c w : Nat),
    m.code b c w = ∑ k ∈ Finset.range w,
      ((m.byte (b + (c + k) / 8)).getLsbD (7 - (c + k) % 8)).toNat * 2 ^ (w - 1 - k) ∧
    m.code b c w < 2 ^ w ∧
    (∀ p, m.bit b p = (m.byte (b + p / 8)).toNat / 2 ^ (7 - p % 8) % 2)

/-- BSR_OPEN (R141): its encoding, its errors in order, and its effect. -/
def Obligations.BsrOpenBindsTheInstance : Prop :=
  ∀ (s : State) (inst : BitVec 8) (base len : BitVec 32),
    encode (.bsrOpen inst base len) = 0x10#8 ++ inst ++ 0#16 ++ base ++ len ++ 0#32 ∧
    ReservedBitsRefused 0x10 0xFF00FFFF0000000000000000FFFFFFFF ∧
    (s.nBsr ≤ inst.toNat →
      exec (.bsrOpen inst base len) s = .next (s.failed .illegalCommand 0x110)) ∧
    (inst.toNat < s.nBsr → s.memSize < base.toNat + len.toNat →
      exec (.bsrOpen inst base len) s = .next (s.failed .badRegion (BitVec.ofNat 64 (base.toNat + len.toNat)))) ∧
    (inst.toNat < s.nBsr → base.toNat + len.toNat ≤ s.memSize →
      exec (.bsrOpen inst base len) s = .next (State.answered
        { s with bsr := s.bsr.set inst.toNat { base := base, len := len, cursor := 0 } } .ok 0))

/-- BSR_RESTART (R142). -/
def Obligations.BsrRestartRewindsTheInstance : Prop :=
  ∀ (s : State) (inst : BitVec 8),
    encode (.bsrRestart inst) = 0x11#8 ++ inst ++ 0#112 ∧
    ReservedBitsRefused 0x11 0xFF00FFFFFFFFFFFFFFFFFFFFFFFFFFFF ∧
    (s.nBsr ≤ inst.toNat → exec (.bsrRestart inst) s = .next (s.failed .illegalCommand 0x111)) ∧
    (∀ r : Bsr, s.bsr[inst.toNat]? = some r →
      exec (.bsrRestart inst) s = .next (State.answered
        { s with bsr := s.bsr.set inst.toNat { r with cursor := 0 } } .ok 0))

/-- BSR_READ (R143): on TruncatedStream the cursor does not move; otherwise the code is answered and the cursor advances
by the width. -/
def Obligations.BsrReadDeliversTheCode : Prop :=
  ∀ (s : State) (inst : BitVec 8) (width : BitVec 16),
    encode (.bsrRead inst width) = 0x12#8 ++ inst ++ width ++ 0#96 ∧
    ReservedBitsRefused 0x12 0xFF000000FFFFFFFFFFFFFFFFFFFFFFFF ∧
    (s.nBsr ≤ inst.toNat → exec (.bsrRead inst width) s = .next (s.failed .illegalCommand 0x112)) ∧
    (∀ r : Bsr, s.bsr[inst.toNat]? = some r →
      let c := r.cursor.toNat
      let w := width.toNat
      (w < 1 ∨ 16 < w → exec (.bsrRead inst width) s = .next (s.failed .illegalCommand 0x112)) ∧
      (1 ≤ w → w ≤ 16 → 8 * r.len.toNat < c + w →
        exec (.bsrRead inst width) s = .next (s.failed .truncatedStream (BitVec.ofNat 64 (2 ^ 63 + (c + w))))) ∧
      (1 ≤ w → w ≤ 16 → c + w ≤ 8 * r.len.toNat → r.base.toNat + r.len.toNat ≤ s.memSize →
        ∃ c' : BitVec 35, c'.toNat = c + w ∧
          exec (.bsrRead inst width) s = .next (State.answered
            { s with bsr := s.bsr.set inst.toNat { r with cursor := c' } } .ok
            (BitVec.ofNat 64 (s.mem.code r.base.toNat c w)))))

/-- R145: reading w1 then w2 gives x then y with `x * 2^w2 + y` the single read of width w1 + w2, and leaves the same
cursor; the commands run one after the other through `runCommands`. -/
def Obligations.ReadsSplit : Prop :=
  ∀ (s : State) (inst : BitVec 8) (w1 w2 : BitVec 16) (r : Bsr),
    s.bsr[inst.toNat]? = some r → r.base.toNat + r.len.toNat ≤ s.memSize →
    1 ≤ w1.toNat → 1 ≤ w2.toNat → w1.toNat + w2.toNat ≤ 16 →
    r.cursor.toNat + w1.toNat + w2.toNat ≤ 8 * r.len.toNat →
    ∃ (x y : Nat) (t u : State),
      runCommands [.bsrRead inst w1, .bsrRead inst w2] s = .next t ∧
      exec (.bsrRead inst (w1 + w2)) s = .next u ∧
      t.responses = s.responses ++ [⟨.ok, BitVec.ofNat 64 x⟩, ⟨.ok, BitVec.ofNat 64 y⟩] ∧
      u.responses = s.responses ++ [⟨.ok, BitVec.ofNat 64 (x * 2 ^ w2.toNat + y)⟩] ∧
      x < 2 ^ w1.toNat ∧ y < 2 ^ w2.toNat ∧ t.bsr = u.bsr

/-- R144: a reader command naming instance i changes no instance j != i, and what BSR_READ answers depends only on
`BSR[i]`, the width and `M`. -/
def Obligations.ReaderInstancesAreIndependent : Prop :=
  (∀ (s t : State) (inst : BitVec 8) (base len : BitVec 32) (width : BitVec 16) (i : Instr),
    i = .bsrOpen inst base len ∨ i = .bsrRestart inst ∨ i = .bsrRead inst width → exec i s = .next t →
    ∀ j, j ≠ inst.toNat → t.bsr[j]? = s.bsr[j]?) ∧
  (∀ (s s' t t' : State) (inst : BitVec 8) (width : BitVec 16),
    s.bsr[inst.toNat]? = s'.bsr[inst.toNat]? → (∀ a, s.mem.byte a = s'.mem.byte a) →
    exec (.bsrRead inst width) s = .next t → exec (.bsrRead inst width) s' = .next t' →
    t.responses.getLast? = t'.responses.getLast? ∧ t.bsr[inst.toNat]? = t'.bsr[inst.toNat]?)

/-! ## Alphabets -/

/-- R122: the active count is the least slot that is 0, or `MAXP`; the active pulses are the slots before it. -/
def Obligations.ActiveCountIsTheFirstZeroSlot : Prop :=
  ∀ (t : SymTable) (m : Memory) (idx : Nat),
    t.activeCount m idx ≤ t.maxp ∧
    (∀ j, j < t.activeCount m idx → t.slot m idx j ≠ 0) ∧
    (t.activeCount m idx < t.maxp → t.slot m idx (t.activeCount m idx) = 0) ∧
    t.activePulses m idx = (List.range (t.activeCount m idx)).map (t.slot m idx)

/-- R121: flag, slot and rule of a symbol by the addresses of its record (R82), the rule from flag bits 1:0 alone (R83);
the bytes of a symbol of the alphabet lie in the region ALPHA_BIND checked. -/
def Obligations.SymbolFieldsLieInTheRecord : Prop :=
  ∀ (d : Alphabet) (m : Memory) (idx j : Nat),
    let a := d.base.toNat + idx * (1 + 2 * d.maxp.toNat)
    d.table.flag m idx = m.byte a ∧
    (d.table.slot m idx j).toNat = (m.byte (a + 1 + 2 * j)).toNat + 256 * (m.byte (a + 2 + 2 * j)).toNat ∧
    ((d.table.rule m idx).bits).toNat = (m.byte a).toNat % 4 ∧
    (PolRule.toggle.bits = 0 ∧ PolRule.keep.bits = 1 ∧ PolRule.forceLow.bits = 2 ∧ PolRule.forceHigh.bits = 3) ∧
    (idx < d.count.toNat → a < d.base.toNat + d.count.toNat * (1 + 2 * d.maxp.toNat)) ∧
    (idx < d.count.toNat → j < d.maxp.toNat →
      a + 2 + 2 * j < d.base.toNat + d.count.toNat * (1 + 2 * d.maxp.toNat))

/-- R123 and R124: the two warning conditions. -/
def Obligations.WarningConditions : Prop :=
  ∀ (t : SymTable) (m : Memory) (idx : Nat),
    (t.flagWarn m idx = true ↔ (t.flag m idx).toNat / 4 ≠ 0) ∧
    (t.zeroTailWarn m idx = true ↔
      ∃ j k, j < k ∧ k < t.maxp ∧ t.slot m idx j = 0 ∧ t.slot m idx k ≠ 0) ∧
    (t.warnBits m idx).toNat =
      (if t.flagWarn m idx = true then 1 else 0) + 2 * (if t.zeroTailWarn m idx = true then 1 else 0)

/-- ALPHA_BIND (R120). -/
def Obligations.AlphaBindBindsTheAlphabet : Prop :=
  ∀ (s : State) (alpha count maxp : BitVec 8) (base len : BitVec 32),
    let size := count.toNat * (1 + 2 * maxp.toNat)
    encode (.alphaBind alpha count maxp base len) = 0x20#8 ++ alpha ++ maxp ++ count ++ base ++ len ++ 0#32 ∧
    ReservedBitsRefused 0x20 0xFF0000000000000000000000FFFFFFFF ∧
    (1 < alpha.toNat →
      exec (.alphaBind alpha count maxp base len) s = .next (s.failed .illegalCommand 0x120)) ∧
    (alpha.toNat ≤ 1 → s.memSize < base.toNat + len.toNat →
      exec (.alphaBind alpha count maxp base len) s =
        .next (s.failed .badRegion (BitVec.ofNat 64 (base.toNat + len.toNat)))) ∧
    (alpha.toNat ≤ 1 → base.toNat + len.toNat ≤ s.memSize → len.toNat < size →
      exec (.alphaBind alpha count maxp base len) s = .next (s.failed .truncatedStream (BitVec.ofNat 64 size))) ∧
    (alpha.toNat = 0 → base.toNat + len.toNat ≤ s.memSize → size ≤ len.toNat →
      exec (.alphaBind alpha count maxp base len) s =
        .next (State.answered { s with alphaPilot := { base := base, count := count, maxp := maxp } } .ok 0)) ∧
    (alpha.toNat = 1 → base.toNat + len.toNat ≤ s.memSize → size ≤ len.toNat →
      exec (.alphaBind alpha count maxp base len) s =
        .next (State.answered { s with alphaData := { base := base, count := count, maxp := maxp } } .ok 0))

/-- SYM_GET (R126): the answer is flag + 256 * active count + 65536 * rule, and `WARN` gains the symbol's bits. -/
def Obligations.SymGetAnswersTheSymbol : Prop :=
  ∀ (s : State) (alpha idx : BitVec 8),
    encode (.symGet alpha idx) = 0x21#8 ++ alpha ++ 0#8 ++ idx ++ 0#96 ∧
    ReservedBitsRefused 0x21 0xFF00FF00FFFFFFFFFFFFFFFFFFFFFFFF ∧
    (1 < alpha.toNat → exec (.symGet alpha idx) s = .next (s.failed .illegalCommand 0x121)) ∧
    (∀ a : AlphaSel, alpha.toNat = a.bit.toNat →
      let d := s.alpha a
      (d.count = 0 → exec (.symGet alpha idx) s = .next (s.failed .invalidAlphabetSize (alpha.setWidth 64))) ∧
      (d.count ≠ 0 → d.count.toNat ≤ idx.toNat →
        exec (.symGet alpha idx) s = .next (s.failed .outOfRange (idx.setWidth 64))) ∧
      (idx.toNat < d.count.toNat → d.base.toNat + d.count.toNat * (1 + 2 * d.maxp.toNat) ≤ s.memSize →
        exec (.symGet alpha idx) s = .next (State.answered
          { s with warn := s.warn ||| d.table.warnBits s.mem idx.toNat } .ok
          (BitVec.ofNat 64 ((d.table.flag s.mem idx.toNat).toNat + 256 * d.table.activeCount s.mem idx.toNat +
            65536 * (d.table.rule s.mem idx.toNat).bits.toNat)))))

/-- SYM_DUR (R127): the slot as stored, also after the first zero. -/
def Obligations.SymDurAnswersTheSlot : Prop :=
  ∀ (s : State) (alpha idx slot : BitVec 8),
    encode (.symDur alpha idx slot) = 0x22#8 ++ alpha ++ slot ++ idx ++ 0#96 ∧
    ReservedBitsRefused 0x22 0xFF000000FFFFFFFFFFFFFFFFFFFFFFFF ∧
    (1 < alpha.toNat → exec (.symDur alpha idx slot) s = .next (s.failed .illegalCommand 0x122)) ∧
    (∀ a : AlphaSel, alpha.toNat = a.bit.toNat →
      let d := s.alpha a
      (d.count = 0 → exec (.symDur alpha idx slot) s = .next (s.failed .invalidAlphabetSize (alpha.setWidth 64))) ∧
      (d.count ≠ 0 → d.count.toNat ≤ idx.toNat →
        exec (.symDur alpha idx slot) s = .next (s.failed .outOfRange (idx.setWidth 64))) ∧
      (idx.toNat < d.count.toNat → d.maxp.toNat ≤ slot.toNat →
        exec (.symDur alpha idx slot) s = .next (s.failed .outOfRange (BitVec.ofNat 64 (0x100 + slot.toNat)))) ∧
      (idx.toNat < d.count.toNat → slot.toNat < d.maxp.toNat →
        d.base.toNat + d.count.toNat * (1 + 2 * d.maxp.toNat) ≤ s.memSize →
        exec (.symDur alpha idx slot) s = .next (s.answered .ok
          (BitVec.ofNat 64 (d.table.slot s.mem idx.toNat slot.toNat).toNat))))

/-! ## Run-length decoder -/

/-- PRLE_OPEN (R162). -/
def Obligations.PrleOpenBindsTheStream : Prop :=
  ∀ (s : State) (base len totp : BitVec 32),
    encode (.prleOpen base len totp) = 0x30#8 ++ 0#24 ++ base ++ len ++ totp ∧
    ReservedBitsRefused 0x30 0xFFFFFFFF000000000000000000000000 ∧
    (s.memSize < base.toNat + len.toNat →
      exec (.prleOpen base len totp) s = .next (s.failed .badRegion (BitVec.ofNat 64 (base.toNat + len.toNat)))) ∧
    (base.toNat + len.toNat ≤ s.memSize → 0 < totp.toNat → s.alphaPilot.count = 0 →
      exec (.prleOpen base len totp) s = .next (s.failed .invalidAlphabetSize 0)) ∧
    (base.toNat + len.toNat ≤ s.memSize → (totp.toNat = 0 ∨ s.alphaPilot.count ≠ 0) → len.toNat < 3 * totp.toNat →
      exec (.prleOpen base len totp) s = .next (s.failed .truncatedStream (BitVec.ofNat 64 (3 * totp.toNat)))) ∧
    (base.toNat + len.toNat ≤ s.memSize → (totp.toNat = 0 ∨ s.alphaPilot.count ≠ 0) → 3 * totp.toNat ≤ len.toNat →
      exec (.prleOpen base len totp) s = .next (State.answered
        { s with prle := { base := base, totp := totp, next := 0, asp := s.alphaPilot.count } } .ok 0))

/-- PRLE_RESTART (R163) and PRLE_NEXT (R164): END at the end, InvalidSymbolReference without advancing at a bad entry,
else the entry sym + 256 * rep (R161, R84). -/
def Obligations.PrleNextDeliversTheEntry : Prop :=
  ∀ s : State,
    encode .prleRestart = 0x31#8 ++ 0#120 ∧ encode .prleNext = 0x32#8 ++ 0#120 ∧
    ReservedBitsRefused 0x31 0xFFFFFFFFFFFFFFFFFFFFFFFFFFFFFFFF ∧
    ReservedBitsRefused 0x32 0xFFFFFFFFFFFFFFFFFFFFFFFFFFFFFFFF ∧
    exec .prleRestart s = .next (State.answered { s with prle := { s.prle with next := 0 } } .ok 0) ∧
    (s.prle.next = s.prle.totp → exec .prleNext s = .next (s.answered .endOfStream 0)) ∧
    (s.prle.next ≠ s.prle.totp → s.prle.base.toNat + 3 * s.prle.next.toNat + 3 ≤ s.memSize →
      let k := s.prle.next.toNat
      let b := s.prle.base.toNat
      let sym := s.mem.byte (b + 3 * k)
      let rep := (s.mem.byte (b + 3 * k + 1)).toNat + 256 * (s.mem.byte (b + 3 * k + 2)).toNat
      (s.prle.asp.toNat ≤ sym.toNat →
        exec .prleNext s =
          .next (s.failed .invalidSymbolReference (BitVec.ofNat 64 (sym.toNat + 65536 * k)))) ∧
      (sym.toNat < s.prle.asp.toNat →
        exec .prleNext s = .next (State.answered
          { s with prle := { s.prle with next := s.prle.next + 1 } } .ok
          (BitVec.ofNat 64 (sym.toNat + 256 * rep)))))

/-- R267: a stream at an offending entry stays there, so repeating the command repeats the error. -/
def Obligations.BadEntryErrorRepeats : Prop :=
  ∀ (s t : State) (i : Instr), i = .prleNext ∨ i = .dssNext →
    exec i s = .next t → t.lastStatus.isError = true →
    ∃ u, exec i t = .next u ∧ u.lastStatus = t.lastStatus ∧ u.errInfo = t.errInfo ∧
      u.prle = s.prle ∧ u.dss = s.dss ∧ u.bsr = s.bsr

/-! ## Data-symbol stream -/

/-- R180: bitsPerSymbol is `max(1, ceil(log2(asd)))` for 1 <= asd <= 255, and 1 for 0; R181: PayloadBytes is the ceiling
of bps * totd / 8. -/
def Obligations.BitsPerSymbolAndPayloadSize : Prop :=
  bitsPerSymbol 0 = 1 ∧
  (∀ asd, 1 ≤ asd → asd ≤ 255 →
    bitsPerSymbol asd = max 1 (Nat.clog 2 asd) ∧ asd ≤ 2 ^ bitsPerSymbol asd ∧
      1 ≤ bitsPerSymbol asd ∧ bitsPerSymbol asd ≤ 8) ∧
  (∀ bps totd, bps * totd ≤ 8 * payloadBytes bps totd ∧ 8 * payloadBytes bps totd < bps * totd + 8)

/-- DSS_OPEN (R182). -/
def Obligations.DssOpenBindsTheStream : Prop :=
  ∀ (s : State) (inst : BitVec 8) (base len totd : BitVec 32), s.nBsr ≤ 16 →
    let asd := s.alphaData.count
    let bps := bitsPerSymbol asd.toNat
    let need := (bps * totd.toNat + 7) / 8
    encode (.dssOpen inst base len totd) = 0x40#8 ++ inst ++ 0#16 ++ base ++ len ++ totd ∧
    ReservedBitsRefused 0x40 0xFF00FFFF000000000000000000000000 ∧
    (s.nBsr ≤ inst.toNat → exec (.dssOpen inst base len totd) s = .next (s.failed .illegalCommand 0x140)) ∧
    (inst.toNat < s.nBsr → s.memSize < base.toNat + len.toNat →
      exec (.dssOpen inst base len totd) s =
        .next (s.failed .badRegion (BitVec.ofNat 64 (base.toNat + len.toNat)))) ∧
    (inst.toNat < s.nBsr → base.toNat + len.toNat ≤ s.memSize → 0 < totd.toNat → asd = 0 →
      exec (.dssOpen inst base len totd) s = .next (s.failed .invalidAlphabetSize 1)) ∧
    (inst.toNat < s.nBsr → base.toNat + len.toNat ≤ s.memSize → (totd.toNat = 0 ∨ asd ≠ 0) → len.toNat < need →
      exec (.dssOpen inst base len totd) s = .next (s.failed .truncatedStream (BitVec.ofNat 64 need))) ∧
    (inst.toNat < s.nBsr → base.toNat + len.toNat ≤ s.memSize → (totd.toNat = 0 ∨ asd ≠ 0) → need ≤ len.toNat →
      ∃ (inst4 bps4 : BitVec 4), inst4.toNat = inst.toNat ∧ bps4.toNat = bps ∧
        exec (.dssOpen inst base len totd) s = .next (State.answered
          { s with
            bsr := s.bsr.set inst.toNat { base := base, len := len, cursor := 0 }
            dss := { inst := inst4, totd := totd, bps := bps4, asd := asd, produced := 0 } } .ok 0))

/-- DSS_RESTART (R183) and DSS_NEXT (R184): END at the end, an error without advancing, else the index. -/
def Obligations.DssNextDeliversTheIndex : Prop :=
  ∀ (s : State) (r : Bsr), s.bsr[s.dss.inst.toNat]? = some r →
    let c := r.cursor.toNat
    let w := s.dss.bps.toNat
    let idx := s.mem.code r.base.toNat c w
    encode .dssRestart = 0x41#8 ++ 0#120 ∧ encode .dssNext = 0x42#8 ++ 0#120 ∧
    ReservedBitsRefused 0x41 0xFFFFFFFFFFFFFFFFFFFFFFFFFFFFFFFF ∧
    ReservedBitsRefused 0x42 0xFFFFFFFFFFFFFFFFFFFFFFFFFFFFFFFF ∧
    exec .dssRestart s = .next (State.answered
      { s with
        bsr := s.bsr.set s.dss.inst.toNat { r with cursor := 0 }
        dss := { s.dss with produced := 0 } } .ok 0) ∧
    (s.dss.produced = s.dss.totd → exec .dssNext s = .next (s.answered .endOfStream 0)) ∧
    (s.dss.produced ≠ s.dss.totd → 8 * r.len.toNat < c + w →
      exec .dssNext s = .next (s.failed .truncatedStream (BitVec.ofNat 64 (2 ^ 63 + (c + w))))) ∧
    (s.dss.produced ≠ s.dss.totd → c + w ≤ 8 * r.len.toNat → r.base.toNat + r.len.toNat ≤ s.memSize →
      (s.dss.asd.toNat ≤ idx → w ≤ 8 →
        exec .dssNext s = .next (s.failed .invalidSymbolReference
          (BitVec.ofNat 64 (idx + 256 + 65536 * s.dss.produced.toNat)))) ∧
      (idx < s.dss.asd.toNat →
        ∃ c' : BitVec 35, c'.toNat = c + w ∧
          exec .dssNext s = .next (State.answered
            { s with
              bsr := s.bsr.set s.dss.inst.toNat { r with cursor := c' }
              dss := { s.dss with produced := s.dss.produced + 1 } } .ok (BitVec.ofNat 64 idx))))

/-- R185: from a stream just opened or restarted, n DSS_NEXT commands deliver the data codes of indices 0 to n-1, when
those are in range. -/
def Obligations.DssStreamDeliversItsIndicesInOrder : Prop :=
  ∀ (s : State) (r : Bsr) (n : Nat),
    s.bsr[s.dss.inst.toNat]? = some r → r.cursor = 0 → s.dss.produced = 0 →
    r.base.toNat + r.len.toNat ≤ s.memSize → payloadBytes s.dss.bps.toNat s.dss.totd.toNat ≤ r.len.toNat →
    s.dss.bps.toNat ≤ 8 → n ≤ s.dss.totd.toNat →
    (∀ k, k < n → (dataIndex s.mem r.base.toNat s.dss.bps.toNat k).toNat < s.dss.asd.toNat) →
    ∃ t, runCommands (List.replicate n .dssNext) s = .next t ∧
      t.responses = s.responses ++ (List.range n).map (fun k =>
        ⟨.ok, (dataIndex s.mem r.base.toNat s.dss.bps.toNat k).setWidth 64⟩) ∧
      t.dss.produced.toNat = n ∧
      ∃ r', t.bsr[s.dss.inst.toNat]? = some r' ∧ r'.cursor.toNat = n * s.dss.bps.toNat

/-! ## Emitter -/

/-- EMIT (R207) by the four rules (R200 to R203), with the diagnostics of a PULSE record (R205). -/
def Obligations.EmitFollowsThePolarityRule : Prop :=
  ∀ (s : State) (d : BitVec 16),
    let e := s.emitter
    let emits := fun (rule : PolRule) (l : Level) (records : List OutRecord) =>
      exec (.emit rule d) s = .next (State.answered
        { s with emitter :=
            { level := l, pulseCount := e.pulseCount + 1, parity := e.parity + 1,
              totalDur := BitVec.ofNat 72 (e.totalDur.toNat + d.toNat), out := e.out ++ records } } .ok 0)
    let pulse := fun (l : Level) => OutRecord.mk .pulse (BitVec.ofNat 32 d.toNat) l
    let corrective := fun (l : Level) => OutRecord.mk .corrective 0 l
    (∀ rule, encode (.emit rule d) = 0x50#8 ++ 0#6 ++ rule.bits ++ d ++ 0#96) ∧
    ReservedBitsRefused 0x50 0xFFFC0000FFFFFFFFFFFFFFFFFFFFFFFF ∧
    (e.level = .low → emits .toggle .high [pulse .low]) ∧
    (e.level = .high → emits .toggle .low [pulse .high]) ∧
    (emits .keep e.level [pulse e.level]) ∧
    (e.level = .low → emits .forceLow .low [pulse .low]) ∧
    (e.level = .high → emits .forceLow .low [corrective .low, pulse .low]) ∧
    (e.level = .high → emits .forceHigh .high [pulse .high]) ∧
    (e.level = .low → emits .forceHigh .high [corrective .high, pulse .high])

/-- EMIT_SYM (R208): the symbol's active pulses in order, each with its rule (R204), and the number of them. -/
def Obligations.EmitSymEmitsTheActivePulses : Prop :=
  ∀ (s : State) (alpha idx : BitVec 8),
    encode (.emitSym alpha idx) = 0x51#8 ++ alpha ++ 0#8 ++ idx ++ 0#96 ∧
    ReservedBitsRefused 0x51 0xFF00FF00FFFFFFFFFFFFFFFFFFFFFFFF ∧
    (1 < alpha.toNat → exec (.emitSym alpha idx) s = .next (s.failed .illegalCommand 0x151)) ∧
    (∀ a : AlphaSel, alpha.toNat = a.bit.toNat →
      let d := s.alpha a
      let ps := d.table.pulses s.mem idx.toNat
      (d.count = 0 → exec (.emitSym alpha idx) s = .next (s.failed .invalidAlphabetSize (alpha.setWidth 64))) ∧
      (d.count ≠ 0 → d.count.toNat ≤ idx.toNat →
        exec (.emitSym alpha idx) s =
          .next (s.failed .invalidSymbolReference (BitVec.ofNat 64 (idx.toNat + 256 * alpha.toNat)))) ∧
      (idx.toNat < d.count.toNat → d.base.toNat + d.count.toNat * (1 + 2 * d.maxp.toNat) ≤ s.memSize →
        exec (.emitSym alpha idx) s = .next (State.answered
          { s with
            warn := s.warn ||| d.table.warnBits s.mem idx.toNat
            emitter :=
              { level := renderLevel s.emitter.level ps
                pulseCount := s.emitter.pulseCount + BitVec.ofNat 64 ps.length
                parity := s.emitter.parity + BitVec.ofNat 1 ps.length
                totalDur := s.emitter.totalDur + BitVec.ofNat 72 (totalOf ps)
                out := s.emitter.out ++ renderRecords s.emitter.level ps } } .ok
          (BitVec.ofNat 64 (d.table.activeCount s.mem idx.toNat)))))

/-- SILENCE (R210) by R209. -/
def Obligations.SilenceAppendsThePause : Prop :=
  ∀ (s : State) (ms : BitVec 16),
    encode (.silence ms) = 0x52#8 ++ 0#8 ++ ms ++ 0#96 ∧
    ReservedBitsRefused 0x52 0xFFFF0000FFFFFFFFFFFFFFFFFFFFFFFF ∧
    (ms = 0 → exec (.silence ms) s = .next (s.answered .ok 0)) ∧
    (ms ≠ 0 → s.emitter.level = .high →
      exec (.silence ms) s = .next (State.answered
        { s with emitter := { s.emitter with
            level := .low
            out := s.emitter.out ++ [⟨.pause, 1, .high⟩, ⟨.pause, BitVec.ofNat 32 (ms.toNat - 1), .low⟩] } } .ok 0)) ∧
    (ms ≠ 0 → s.emitter.level = .low →
      exec (.silence ms) s = .next (State.answered
        { s with emitter := { s.emitter with
            out := s.emitter.out ++ [⟨.pause, BitVec.ofNat 32 ms.toNat, .low⟩] } } .ok 0))

/-- R211: after a pause of ms > 0 the level is LOW, after 0 level and `OUT` are unchanged, and the PAUSE durations sum to
ms. -/
def Obligations.PauseLaws : Prop :=
  ∀ (s t : State) (ms : BitVec 16), exec (.silence ms) s = .next t →
    (0 < ms.toNat → t.emitter.level = .low) ∧
    (ms.toNat = 0 → t.emitter.level = s.emitter.level ∧ t.emitter.out = s.emitter.out) ∧
    ∃ records, t.emitter.out = s.emitter.out ++ records ∧ (∀ r ∈ records, r.kind = .pause) ∧
      (records.map fun r => r.duration.toNat).sum = ms.toNat

/-- R206: if every pulse since the counters were cleared came from TOGGLE and `LEVEL` was not written otherwise, `LEVEL` =
L0 xor `PARITY`. The clear is CNT_CLEAR or reset (the first clause) or a DECODE_BLOCK, whose own pulses count (the second);
the commands after it are any that `State.TogglesOnly` allows. The third clause: EMIT TOGGLE commands alone always run. -/
def Obligations.ParityLawForToggles : Prop :=
  (∀ (s t : State) (is : List Instr), s.emitter.pulseCount = 0 → s.emitter.parity = 0 →
    s.AllToggleOnly is → runCommands is s = .next t →
      t.emitter.level.bit = s.emitter.level.bit ^^^ t.emitter.parity) ∧
  (∀ (s s' t : State) (base declLen : BitVec 32) (is : List Instr),
    let h := readHeader s.mem base.toNat
    let ps := h.blockPulses s.mem base.toNat
    exec (.decodeBlock base declLen) s = .next s' → s'.lastStatus = .ok →
    (∀ p ∈ ps, p.2 = .toggle) → (h.pause = 0 ∨ renderLevel s.emitter.level ps = .low) →
    s'.AllToggleOnly is → runCommands is s' = .next t →
      t.emitter.level.bit = s.emitter.level.bit ^^^ t.emitter.parity) ∧
  (∀ (s : State) (ds : List (BitVec 16)), s.emitter.pulseCount = 0 → s.emitter.parity = 0 →
    ∃ t, runCommands (ds.map (Instr.emit .toggle)) s = .next t ∧
      t.emitter.level.bit = s.emitter.level.bit ^^^ t.emitter.parity ∧
      t.emitter.pulseCount = BitVec.ofNat 64 ds.length)

/-- R80 and R81: the word of an output record, with the numbers of the kinds and levels; that no two records share a word;
that kind 3 is never emitted, and a CORRECTIVE record a command appends has duration 0. -/
def Obligations.OutputRecordWord : Prop :=
  (RecordKind.pulse.bits = 0 ∧ RecordKind.corrective.bits = 1 ∧ RecordKind.pause.bits = 2 ∧
    (∀ k : RecordKind, k.bits ≠ 3) ∧ Level.low.bit = 0 ∧ Level.high.bit = 1) ∧
  (∀ r : OutRecord, r.word.toNat =
    r.duration.toNat + 2 ^ 32 * r.level.bit.toNat + 2 ^ 33 * r.kind.bits.toNat) ∧
  (∀ r r' : OutRecord, r.word = r'.word → r = r') ∧
  (∀ (i : Instr) (s t : State), exec i s = .next t →
    ∃ records, t.emitter.out = s.emitter.out ++ records ∧ ∀ r ∈ records, r.kind = .corrective → r.duration = 0)

/-! ## Block decoder -/

/-- R232 and R233: the header's fields by their bytes, and the layout's offsets and computed size. -/
def Obligations.BlockHeaderAndLayout : Prop :=
  ∀ (m : Memory) (b : Nat),
    let h := readHeader m b
    let byte := fun k => (m.byte (b + k)).toNat
    (h.pause.toNat = byte 0 + 2 ^ 8 * byte 1 ∧
      h.totp = byte 2 + 2 ^ 8 * byte 3 + 2 ^ 16 * byte 4 + 2 ^ 24 * byte 5 ∧ h.npp = byte 6 ∧ h.asp = byte 7 ∧
      h.totd = byte 8 + 2 ^ 8 * byte 9 + 2 ^ 16 * byte 10 + 2 ^ 24 * byte 11 ∧ h.npd = byte 12 ∧ h.asd = byte 13) ∧
    (let oPR := 14 + h.asp * (1 + 2 * h.npp)
     let oDA := oPR + 3 * h.totp
     let oDP := oDA + h.asd * (1 + 2 * h.npd)
     h.pilotTable b = { base := b + 14, count := h.asp, maxp := h.npp } ∧
     h.dataTable b = { base := b + oDA, count := h.asd, maxp := h.npd } ∧
     h.size = oDP + (bitsPerSymbol h.asd * h.totd + 7) / 8 ∧
     (∀ k, h.blockSym m b k = m.byte (b + oPR + 3 * k) ∧
       (h.blockRep m b k).toNat =
         (m.byte (b + oPR + 3 * k + 1)).toNat + 256 * (m.byte (b + oPR + 3 * k + 2)).toNat) ∧
     (∀ n, (h.blockIndex m b n).toNat =
       m.code (b + oDP) (n * bitsPerSymbol h.asd) (bitsPerSymbol h.asd)))

/-- R234: the checks of DECODE_BLOCK in order, the frame's first; the first that fails ends the command. -/
def Obligations.DecodeBlockReportsTheFirstFailingCheck : Prop :=
  ∀ (s : State) (base declLen : BitVec 32),
    let b := base.toNat
    let n := declLen.toNat
    let h := readHeader s.mem b
    let fails := fun (st : Status) (info : Nat) =>
      exec (.decodeBlock base declLen) s = .next (s.failed st (BitVec.ofNat 64 info))
    ReservedBitsRefused 0x60 0xFFFFFFFF0000000000000000FFFFFFFF ∧
    (s.memSize < b + n → fails .badRegion (b + n)) ∧
    (b + n ≤ s.memSize → n < 14 → fails .truncatedStream 14) ∧
    (b + n ≤ s.memSize → 14 ≤ n →
      (0 < h.totp → h.asp = 0 → fails .invalidAlphabetSize 0) ∧
      ((h.totp = 0 ∨ h.asp ≠ 0) → 0 < h.totd → h.asd = 0 → fails .invalidAlphabetSize 1) ∧
      ((h.totp = 0 ∨ h.asp ≠ 0) → (h.totd = 0 ∨ h.asd ≠ 0) →
        (n < h.size → fails .truncatedStream h.size) ∧
        (h.size < n → fails .structuralError h.size) ∧
        (h.size = n →
          (∀ k, k < h.totp → (∀ k', k' < k → (h.blockSym s.mem b k').toNat < h.asp) →
            h.asp ≤ (h.blockSym s.mem b k).toNat →
            fails .invalidSymbolReference ((h.blockSym s.mem b k).toNat + 65536 * k)) ∧
          (∀ j, j < h.totd → (∀ k, k < h.totp → (h.blockSym s.mem b k).toNat < h.asp) →
            (∀ j', j' < j → (h.blockIndex s.mem b j').toNat < h.asd) →
            h.asd ≤ (h.blockIndex s.mem b j).toNat →
            fails .invalidSymbolReference ((h.blockIndex s.mem b j).toNat + 256 + 65536 * j)))))

/-- R236 to R239: a block that passes every check is emitted whole. Its PULSE and CORRECTIVE records are those of the
pilot pulses and then the data pulses from the entry level, its PAUSE records follow, the counters count its pulses
alone, and no register but those R230 names changes. -/
def Obligations.DecodeBlockEmitsTheWholeBlock : Prop :=
  ∀ (s : State) (base declLen : BitVec 32),
    let b := base.toNat
    let h := readHeader s.mem b
    let ps := h.blockPulses s.mem b
    let l := renderLevel s.emitter.level ps
    encode (.decodeBlock base declLen) = 0x60#8 ++ 0#24 ++ base ++ declLen ++ 0#32 ∧
    (b + declLen.toNat ≤ s.memSize → 14 ≤ declLen.toNat → h.size = declLen.toNat →
      (h.totp = 0 ∨ h.asp ≠ 0) → (h.totd = 0 ∨ h.asd ≠ 0) →
      (∀ k, k < h.totp → (h.blockSym s.mem b k).toNat < h.asp) →
      (∀ n, n < h.totd → (h.blockIndex s.mem b n).toNat < h.asd) →
      exec (.decodeBlock base declLen) s = .next (State.answered
        { s with
          warn := s.warn ||| (h.pilotTable b).allWarnBits s.mem ||| (h.dataTable b).allWarnBits s.mem
          emitter :=
            { level := if h.pause = 0 then l else .low
              pulseCount := BitVec.ofNat 64 ps.length
              parity := BitVec.ofNat 1 ps.length
              totalDur := BitVec.ofNat 72 (totalOf ps)
              out := s.emitter.out ++ renderRecords s.emitter.level ps ++ pauseRecords l h.pause }
          blkPause := h.pause
          blkSize := BitVec.ofNat 64 declLen.toNat } .ok (BitVec.ofNat 64 ps.length)))

/-- Examining every symbol of an alphabet sets each warning bit that some symbol's condition sets, and no other (R125,
R236). -/
def Obligations.BlockExaminesEverySymbol : Prop :=
  ∀ (t : SymTable) (m : Memory),
    ((t.allWarnBits m).getLsbD 0 = true ↔ ∃ idx, idx < t.count ∧ t.flagWarn m idx = true) ∧
    ((t.allWarnBits m).getLsbD 1 = true ↔ ∃ idx, idx < t.count ∧ t.zeroTailWarn m idx = true)

/-- R241: the pulse-count law of a successful DECODE_BLOCK, as exact numbers: `PULSE_COUNT` does not wrap. -/
def Obligations.PulseCountLaw : Prop :=
  ∀ (s t : State) (base declLen : BitVec 32),
    exec (.decodeBlock base declLen) s = .next t → t.lastStatus = .ok →
    let b := base.toNat
    let h := readHeader s.mem b
    t.emitter.pulseCount.toNat =
      ∑ k ∈ Finset.range h.totp,
        (h.blockRep s.mem b k).toNat * (h.pilotTable b).activeCount s.mem (h.blockSym s.mem b k).toNat +
      ∑ n ∈ Finset.range h.totd, (h.dataTable b).activeCount s.mem (h.blockIndex s.mem b n).toNat

/-- R240: the bounds of a block that passes every check; neither counter can wrap within it. -/
def Obligations.BlockBounds : Prop :=
  ∀ (s : State) (base declLen : BitVec 32), s.blockError base.toNat declLen.toNat = none →
    let h := readHeader s.mem base.toNat
    h.size = declLen.toNat ∧ h.totp ≤ 1431655760 ∧
    3 * h.totp + 14 + h.asp * (1 + 2 * h.npp) ≤ 2 ^ 32 - 1 ∧
    (h.pilotPulses s.mem base.toNat).length < 2 ^ 55 ∧ (h.dataPulses s.mem base.toNat).length < 2 ^ 40 ∧
    totalOf (h.blockPulses s.mem base.toNat) < 2 ^ 71

/-- R242: what DECODE_BLOCK appends, answers and leaves is a function of the block's bytes, base, declLen and the entry
level alone. -/
def Obligations.DecodeBlockIsAFunctionOfTheBlockAndLevel : Prop :=
  ∀ (s s' t t' : State) (base declLen : BitVec 32),
    s.memSize = s'.memSize → s.emitter.level = s'.emitter.level →
    (∀ a, base.toNat ≤ a → a < base.toNat + declLen.toNat → s.mem.byte a = s'.mem.byte a) →
    exec (.decodeBlock base declLen) s = .next t → exec (.decodeBlock base declLen) s' = .next t' →
    t.lastStatus = t'.lastStatus ∧ t.responses.getLast? = t'.responses.getLast? ∧
    t.emitter.level = t'.emitter.level ∧
    (∃ records w, t.emitter.out = s.emitter.out ++ records ∧ t'.emitter.out = s'.emitter.out ++ records ∧
      t.warn = s.warn ||| w ∧ t'.warn = s'.warn ||| w) ∧
    (t.lastStatus = .ok →
      t.emitter.pulseCount = t'.emitter.pulseCount ∧ t.emitter.parity = t'.emitter.parity ∧
      t.emitter.totalDur = t'.emitter.totalDur ∧ t.blkPause = t'.blkPause ∧ t.blkSize = t'.blkSize) ∧
    (t.lastStatus ≠ .ok → t.errInfo = t'.errInfo ∧
      t = s.failed t.lastStatus t.errInfo ∧ t' = s'.failed t'.lastStatus t'.errInfo)

/-- The components compose into the block decoder (spec/95_test_vectors.md 3.5): with the block's alphabets bound,
CNT_CLEAR and the component commands leave the level, the counters and `OUT` that DECODE_BLOCK leaves. -/
def Obligations.ComponentsComposeIntoTheBlockDecoder : Prop :=
  ∀ (s t : State) (base declLen : BitVec 32),
    let h := readHeader s.mem base.toNat
    exec (.decodeBlock base declLen) s = .next t → t.lastStatus = .ok →
    s.alphaPilot.table = h.pilotTable base.toNat → s.alphaData.table = h.dataTable base.toNat →
    ∃ u, runCommands (.cntClear :: h.componentCommands s.mem base.toNat) s = .next u ∧ u.emitter = t.emitter

/-! ## The whole machine -/

/-- R262 and R24: a command that ends with a status of 2 to 9 writes `LAST_STATUS` and `ERR_INFO` and nothing else, and
answers value 0; one that ends with END writes only `LAST_STATUS`; one that ends with OK leaves `ERR_INFO`. -/
def Obligations.ErrorsWriteStatusAndInfoOnly : Prop :=
  ∀ (i : Instr) (s t : State), exec i s = .next t →
    (t.lastStatus.isError = true → t = s.failed t.lastStatus t.errInfo) ∧
    (t.lastStatus = .endOfStream → t = s.answered .endOfStream 0) ∧
    (t.lastStatus.isError = false → t.errInfo = s.errInfo)

/-- R78 and R23: every command returns exactly one response, `LAST_STATUS` is its status, and its value is 0 for every
status other than OK. -/
def Obligations.EveryCommandReturnsOneResponse : Prop :=
  ∀ (i : Instr) (s t : State), exec i s = .next t →
    ∃ v : Word, t.responses = s.responses ++ [{ status := t.lastStatus, value := v }] ∧ (t.lastStatus ≠ .ok → v = 0)

/-- R264: which command ends with which status. -/
def Obligations.CommandsEndWithTheirStatuses : Prop :=
  ∀ (i : Instr) (s t : State), exec i s = .next t → t.lastStatus ∈ statusesOf i

/-- R74: an operand value out of range raises IllegalCommand with cause 1 and the command's OP, before anything else. -/
def Obligations.OperandsOutOfRangeAreIllegal : Prop :=
  ∀ (i : Instr) (s : State), i.WellFormed s.nBsr = false →
    exec i s = .next (s.failed .illegalCommand (BitVec.ofNat 64 (0x100 + i.opcode.toNat)))

/-- The complete lists of writers (R22, R25 to R36): a command whose OP is not listed leaves the register as it was. -/
def Obligations.RegistersHaveNoOtherWriters : Prop :=
  ∀ (i : Instr) (s t : State), exec i s = .next t →
    (i.opcode ∉ [0x01, 0x50, 0x51, 0x52, 0x60] → t.emitter.level = s.emitter.level) ∧
    (i.opcode ∉ [0x05, 0x50, 0x51, 0x60] →
      t.emitter.pulseCount = s.emitter.pulseCount ∧ t.emitter.parity = s.emitter.parity ∧
      t.emitter.totalDur = s.emitter.totalDur) ∧
    (i.opcode ∉ [0x50, 0x51, 0x52, 0x60] → t.emitter.out = s.emitter.out) ∧
    (i.opcode ∉ [0x04, 0x21, 0x51, 0x60] → t.warn = s.warn) ∧
    (i.opcode ≠ 0x03 → t.cfg = s.cfg) ∧
    (i.opcode ≠ 0x60 → t.blkPause = s.blkPause ∧ t.blkSize = s.blkSize) ∧
    (i.opcode ≠ 0x20 → t.alphaPilot = s.alphaPilot ∧ t.alphaData = s.alphaData) ∧
    (i.opcode ∉ [0x30, 0x31, 0x32] → t.prle = s.prle) ∧
    (i.opcode ∉ [0x40, 0x41, 0x42] → t.dss = s.dss) ∧
    (i.opcode ∉ [0x10, 0x11, 0x12, 0x40, 0x41, 0x42] → t.bsr = s.bsr)

/-- R25: a set bit of `WARN` stays set until WARN_CLEAR. -/
def Obligations.WarningsAreSticky : Prop :=
  ∀ (i : Instr) (s t : State), exec i s = .next t → i ≠ .warnClear → s.warn &&& t.warn = s.warn

/-- R38 and R66: `OUT` is only appended to. -/
def Obligations.OutIsAppendOnly : Prop :=
  ∀ (i : Instr) (s t : State), exec i s = .next t → s.emitter.out <+: t.emitter.out

/-- R50 and R43: no command writes the input memory, the parameters or what the host has issued. -/
def Obligations.CommandsNeverWriteMemory : Prop :=
  ∀ (i : Instr) (s t : State), exec i s = .next t →
    t.mem = s.mem ∧ t.memSize = s.memSize ∧ t.nBsr = s.nBsr ∧ t.port = s.port

/-- Reset has the invariant, for every choice of the parameters and every memory image the host may have written, and so
has `State.reset`. -/
def Obligations.ResetHasTheInvariant : Prop :=
  State.reset.Inv ∧
  ∀ (p : Params) (m : Memory), p.Valid → m.wf = true → (∀ c ∈ m, c.1 < p.memSize) →
    (State.resetWith p m).Inv

/-- Every step keeps the invariant. -/
def Obligations.StepKeepsTheInvariant : Prop :=
  ∀ s t : State, s.Inv → step s = .next t → t.Inv

/-- R261, R299, R56: from a state with the invariant every command answers: no read is outside the input memory, and PDEC
is ready for the next command. -/
def Obligations.EveryCommandCompletes : Prop :=
  ∀ (i : Instr) (s : State), s.Inv → ∃ t, exec i s = .next t

/-- A step stops only at a host write to an address that does not exist (log entry 6). -/
def Obligations.StepsStopOnlyAtAbsentAddresses : Prop :=
  ∀ s : State, s.Inv →
    (∃ t, step s = .next t) ∨
    ∃ addr v rest, s.port = .write addr v :: rest ∧ s.memSize ≤ addr.toNat
end

