-- ==== Sys2Proof/Laws/Encoding.lean ====
section
/-! SUPPORT. Packed words as numbers: appended fields (R71), the information of each error (R263), the word of an output
record (R80). -/

namespace Sys2Proof

/-- An appended field stands above the bits of the other. -/
theorem toNat_append_add {v w : Nat} (x : BitVec v) (y : BitVec w) :
    (x ++ y).toNat = x.toNat * 2 ^ w + y.toNat := by
  rw [BitVec.toNat_append, ← Nat.shiftLeft_add_eq_or_of_lt y.isLt, Nat.shiftLeft_eq]

/-- The fields of a packed frame are the fields packed (R71). -/
@[simp] theorem Fields.ofFrame_toFrame (x : Fields) : Fields.ofFrame x.toFrame = x := by
  obtain ⟨op, a, b, c, d, e⟩ := x
  simp only [Fields.ofFrame, Fields.toFrame, Fields.mk.injEq]
  refine ⟨?_, ?_, ?_, ?_, ?_, ?_⟩ <;>
  · apply BitVec.eq_of_toNat_eq
    simp only [BitVec.extractLsb'_toNat, Nat.shiftRight_eq_div_pow, toNat_append_add]
    omega

/-- Packing a frame's fields gives the frame (R71). -/
@[simp] theorem Fields.toFrame_ofFrame (f : Frame) : (Fields.ofFrame f).toFrame = f := by
  apply BitVec.eq_of_toNat_eq
  have := f.isLt
  simp only [Fields.ofFrame, Fields.toFrame, BitVec.extractLsb'_toNat, Nat.shiftRight_eq_div_pow, toNat_append_add]
  omega

/-- Masking a frame masks its fields. -/
theorem Fields.toFrame_and (x y : Fields) :
    x.toFrame &&& y.toFrame =
      Fields.toFrame ⟨x.op &&& y.op, x.a &&& y.a, x.b &&& y.b, x.c &&& y.c, x.d &&& y.d, x.e &&& y.e⟩ := by
  show (_ : BitVec (8 + 8 + 16 + 32 + 32 + 32)) = _
  unfold Fields.toFrame
  erw [BitVec.and_append, BitVec.and_append, BitVec.and_append, BitVec.and_append, BitVec.and_append]

/-- Two packed frames are equal only if their fields are. -/
theorem Fields.toFrame_inj {x y : Fields} : x.toFrame = y.toFrame ↔ x = y := by
  constructor
  · intro h; rw [← Fields.ofFrame_toFrame x, h, Fields.ofFrame_toFrame]
  · rintro rfl; rfl

/-- A frame matches a row exactly when each field does. -/
theorem OpcodeRow.matches_iff (n : String) (x mask pattern : Fields) :
    OpcodeRow.Matches ⟨n, pattern.toFrame, mask.toFrame⟩ x.toFrame ↔
      x.op &&& mask.op = pattern.op ∧ x.a &&& mask.a = pattern.a ∧ x.b &&& mask.b = pattern.b ∧
        x.c &&& mask.c = pattern.c ∧ x.d &&& mask.d = pattern.d ∧ x.e &&& mask.e = pattern.e := by
  unfold OpcodeRow.Matches
  rw [Fields.toFrame_and, Fields.toFrame_inj]
  cases pattern
  simp

/-- Bits 7:1 of A are reserved where A[0] is the operand (R74). -/
theorem and_mask_level : ∀ a : BitVec 8, a &&& 0xFE#8 = 0#8 ↔ a.extractLsb' 1 7 = 0#7 := by decide

/-- Bits 7:2 of A are reserved where A[1:0] is the operand (R74). -/
theorem and_mask_rule : ∀ a : BitVec 8, a &&& 0xFC#8 = 0#8 ↔ a.extractLsb' 2 6 = 0#6 := by decide

/-- Bits 15:8 of B are reserved where B[7:0] is the operand (R74). -/
theorem and_mask_high (a : BitVec 16) : a &&& 0xFF00#16 = 0#16 ↔ a.extractLsb' 8 8 = 0#8 := by
  have : a = a.extractLsb' 8 8 ++ a.extractLsb' 0 8 := by
    apply BitVec.eq_of_toNat_eq
    simp only [BitVec.extractLsb'_toNat, Nat.shiftRight_eq_div_pow, toNat_append_add]; omega
  generalize a.extractLsb' 8 8 = u at *
  generalize a.extractLsb' 0 8 = v at *
  rw [this, show (0xFF00#16) = BitVec.allOnes 8 ++ 0#8 from rfl, BitVec.and_append, BitVec.and_allOnes, BitVec.and_zero]
  constructor
  · intro h
    have h := congrArg BitVec.toNat h
    rw [toNat_append_add] at h
    apply BitVec.eq_of_toNat_eq
    simpa using h
  · rintro rfl; rfl

/-- A pattern is an OP over zero fields. -/
theorem append_zero_eq_toFrame (x : BitVec 8) : (x ++ 0#120 : Frame) = Fields.toFrame ⟨x, 0, 0, 0, 0, 0⟩ := by
  apply BitVec.eq_of_toNat_eq
  simp only [Fields.toFrame, toNat_append_add, BitVec.toNat_ofNat, show (0 : BitVec 8).toNat = 0 from rfl,
    show (0 : BitVec 16).toNat = 0 from rfl, show (0 : BitVec 32).toNat = 0 from rfl]
  omega

/-- Step (2) of R75: a row accepts, and then its reserved bits are zero, or it rejects. -/
theorem Fields.accept_cases (x : Fields) (P : Prop) [Decidable P] (i : Instr) :
    x.accept P i = .error (.reservedBits x.op) ∨ P := by
  unfold Fields.accept
  split
  · exact .inr ‹_›
  · exact .inl rfl

namespace Machine

theorem info_truncatedStream (n : Nat) (h : n < 2 ^ 63) (u : ExtentUnit) :
    (CmdError.truncatedStream n u).info = BitVec.ofNat 64 (2 ^ 63 * u.bit.toNat + n) := by
  apply BitVec.eq_of_toNat_eq
  have := u.bit.isLt
  simp only [CmdError.info, toNat_append_add, BitVec.toNat_ofNat]
  omega

theorem info_invalidSymbolReference (i : BitVec 8) (a : AlphaSel) (p : BitVec 32) :
    (CmdError.invalidSymbolReference i a p).info =
      BitVec.ofNat 64 (i.toNat + 256 * a.bit.toNat + 65536 * p.toNat) := by
  apply BitVec.eq_of_toNat_eq
  have := a.bit.isLt
  simp only [CmdError.info, toNat_append_add, BitVec.toNat_ofNat]
  omega

theorem info_invalidAlphabetSize (a : AlphaSel) :
    (CmdError.invalidAlphabetSize a).info = BitVec.ofNat 64 a.bit.toNat := by
  cases a <;> rfl

theorem info_outOfRange (v : BitVec 8) (k : RangeKind) :
    (CmdError.outOfRange v k).info = BitVec.ofNat 64 (256 * k.bit.toNat + v.toNat) := by
  apply BitVec.eq_of_toNat_eq
  have := k.bit.isLt
  simp only [CmdError.info, toNat_append_add, BitVec.toNat_ofNat]
  omega

theorem info_illegalCommand (op : BitVec 8) (c : IllegalCause) :
    (CmdError.illegalCommand op c).info = BitVec.ofNat 64 (256 * c.bit.toNat + op.toNat) := by
  apply BitVec.eq_of_toNat_eq
  have := c.bit.isLt
  simp only [CmdError.info, toNat_append_add, BitVec.toNat_ofNat]
  omega

theorem info_unsupported (op : BitVec 8) : (CmdError.unsupported op).info = BitVec.ofNat 64 op.toNat := by
  apply BitVec.eq_of_toNat_eq
  simp only [CmdError.info, toNat_append_add, BitVec.toNat_ofNat]
  omega

/-- The word of a record as a number (R80). -/
theorem OutRecord.word_toNat (r : OutRecord) :
    r.word.toNat = r.kind.bits.toNat * 2 ^ 33 + r.level.bit.toNat * 2 ^ 32 + r.duration.toNat := by
  simp only [OutRecord.word, toNat_append_add, BitVec.toNat_ofNat]
  omega

end Machine
end Sys2Proof
end

