-- ==== Sys2Proof/Laws/Alphabet.lean ====
section
/-! SUPPORT. What the symbol functions give (R121 to R125), said once: active count, zero tail, warning bits, and where a
symbol record lies. -/

namespace Sys2Proof.Machine

/-- The items before the first that fails the test are a prefix; all of it passes, and the item after it fails. -/
theorem takeWhile_spec {α : Type} (p : α → Bool) (l : List α) :
    (∀ j, j < (l.takeWhile p).length → ∃ x, l[j]? = some x ∧ p x = true) ∧
    ((l.takeWhile p).length < l.length → ∃ x, l[(l.takeWhile p).length]? = some x ∧ p x = false) ∧
    l.takeWhile p = l.take (l.takeWhile p).length := by
  induction l with
  | nil => simp
  | cons a l ih =>
    obtain ⟨h1, h2, h3⟩ := ih
    cases ha : p a with
    | false => simp [ha]
    | true =>
      simp only [List.takeWhile_cons, ha, if_true, List.length_cons, List.take_succ_cons, List.cons.injEq, true_and]
      refine ⟨fun j hj => ?_, fun hn => ?_, h3⟩
      · cases j with
        | zero => exact ⟨a, rfl, ha⟩
        | succ j => simpa using h1 j (by omega)
      · simpa using h2 (by omega)

theorem SymTable.slots_getElem (t : SymTable) (m : Memory) (idx j : Nat) (h : j < t.maxp) :
    (t.slots m idx)[j]? = some (t.slot m idx j) := by
  simp [SymTable.slots, h]

theorem SymTable.slots_length (t : SymTable) (m : Memory) (idx : Nat) : (t.slots m idx).length = t.maxp := by
  simp [SymTable.slots]

/-- 0 <= ActiveCount <= MAXP (R122). -/
theorem SymTable.activeCount_le (t : SymTable) (m : Memory) (idx : Nat) : t.activeCount m idx ≤ t.maxp := by
  rw [← t.slots_length m idx]
  exact (List.takeWhile_prefix _).length_le

/-- The slots before the active count are not 0 (R122). -/
theorem SymTable.slot_ne_zero (t : SymTable) (m : Memory) (idx j : Nat) (h : j < t.activeCount m idx) :
    t.slot m idx j ≠ 0 := by
  obtain ⟨x, hx, hp⟩ := (takeWhile_spec (fun d => decide (d ≠ 0)) (t.slots m idx)).1 j h
  rw [t.slots_getElem m idx j (h.trans_le (t.activeCount_le m idx))] at hx
  cases hx
  simpa using hp

/-- The slot at the active count is 0 (R122). -/
theorem SymTable.slot_eq_zero (t : SymTable) (m : Memory) (idx : Nat) (h : t.activeCount m idx < t.maxp) :
    t.slot m idx (t.activeCount m idx) = 0 := by
  obtain ⟨x, hx, hp⟩ := (takeWhile_spec (fun d => decide (d ≠ 0)) (t.slots m idx)).2.1
    (by rw [t.slots_length]; exact h)
  have hx' : (t.slots m idx)[t.activeCount m idx]? = some x := hx
  rw [t.slots_getElem m idx _ h] at hx'
  cases hx'
  simpa using hp

/-- The active pulses are the first slots (R122). -/
theorem SymTable.activePulses_eq (t : SymTable) (m : Memory) (idx : Nat) :
    t.activePulses m idx = (List.range (t.activeCount m idx)).map (t.slot m idx) := by
  have h := (takeWhile_spec (fun d => decide (d ≠ 0)) (t.slots m idx)).2.2
  refine h.trans ?_
  change (t.slots m idx).take (t.activeCount m idx) = _
  rw [SymTable.slots, ← List.map_take, List.take_range, Nat.min_eq_left (t.activeCount_le m idx)]

theorem any_dropWhile_iff (l : List (BitVec 16)) :
    ((l.dropWhile fun d => decide (d ≠ 0)).any fun d => decide (d ≠ 0)) = true ↔
      ∃ (j k : Nat) (y : BitVec 16), j < k ∧ l[j]? = some 0 ∧ l[k]? = some y ∧ y ≠ 0 := by
  induction l with
  | nil => simp
  | cons a l ih =>
    by_cases ha : a = 0
    · subst ha
      simp only [ne_eq, not_true_eq_false, decide_false, List.dropWhile_cons, List.any_cons, Bool.false_or,
        List.any_eq_true, decide_eq_true_eq, Bool.false_eq_true, if_false]
      constructor
      · rintro ⟨y, hy, hne⟩
        obtain ⟨k, hk⟩ := List.mem_iff_getElem?.1 hy
        exact ⟨0, k + 1, y, by omega, rfl, by simpa using hk, hne⟩
      · rintro ⟨j, k, y, hjk, -, hk, hne⟩
        cases k with
        | zero => omega
        | succ k => exact ⟨y, List.mem_iff_getElem?.2 ⟨k, by simpa using hk⟩, hne⟩
    · rw [List.dropWhile_cons_of_pos (by simpa using ha), ih]
      constructor
      · rintro ⟨j, k, y, hjk, hj, hk, hne⟩
        exact ⟨j + 1, k + 1, y, by omega, by simpa using hj, by simpa using hk, hne⟩
      · rintro ⟨j, k, y, hjk, hj, hk, hne⟩
        cases j with
        | zero => exact absurd (by simpa using hj) ha
        | succ j =>
          cases k with
          | zero => omega
          | succ k => exact ⟨j, k, y, by omega, by simpa using hj, by simpa using hk, hne⟩

/-- ZeroTailWarn: a nonzero slot after a zero one (R124). -/
theorem SymTable.zeroTailWarn_iff (t : SymTable) (m : Memory) (idx : Nat) :
    t.zeroTailWarn m idx = true ↔ ∃ j k, j < k ∧ k < t.maxp ∧ t.slot m idx j = 0 ∧ t.slot m idx k ≠ 0 := by
  unfold SymTable.zeroTailWarn
  rw [any_dropWhile_iff]
  constructor
  · rintro ⟨j, k, y, hjk, hj, hk, hne⟩
    have hlt : k < t.maxp := by
      rw [← t.slots_length m idx]
      by_contra h
      rw [List.getElem?_eq_none (by omega)] at hk
      cases hk
    rw [t.slots_getElem m idx k hlt] at hk
    rw [t.slots_getElem m idx j (by omega)] at hj
    cases hk
    exact ⟨j, k, hjk, hlt, Option.some.inj hj, hne⟩
  · rintro ⟨j, k, hjk, hk, hz, hne⟩
    exact ⟨j, k, _, hjk, by rw [t.slots_getElem m idx j (by omega), hz], t.slots_getElem m idx k hk, hne⟩

/-- FlagWarn: any of flag bits 7:2 (R123). -/
theorem SymTable.flagWarn_iff (t : SymTable) (m : Memory) (idx : Nat) :
    t.flagWarn m idx = true ↔ (t.flag m idx).toNat / 4 ≠ 0 := by
  have h : ∀ b : Byte, (b.extractLsb' 2 6 ≠ 0 ↔ b.toNat / 4 ≠ 0) := by decide
  rw [← h]
  simp [SymTable.flagWarn]

/-- A slot by its two bytes (R121). -/
theorem SymTable.slot_toNat (t : SymTable) (m : Memory) (idx j : Nat) :
    (t.slot m idx j).toNat =
      (m.byte (t.symAddr idx + 1 + 2 * j)).toNat + 256 * (m.byte (t.symAddr idx + 1 + 2 * j + 1)).toNat := by
  have h1 := (m.byte (t.symAddr idx + 1 + 2 * j)).isLt
  have h2 := (m.byte (t.symAddr idx + 1 + 2 * j + 1)).isLt
  simp only [SymTable.slot, Memory.read, BitVec.toNat_ofNat]
  omega

/-- The record of a symbol that exists ends no later than the alphabet (R121). -/
theorem SymTable.symAddr_end_le (t : SymTable) {idx : Nat} (h : idx < t.count) :
    t.symAddr idx + symbolBytes t.maxp ≤ t.base + t.count * symbolBytes t.maxp := by
  have := Nat.mul_le_mul_right (symbolBytes t.maxp) h
  rw [Nat.succ_mul] at this
  unfold SymTable.symAddr
  omega

/-- The packed response of SYM_GET as a number (R79). -/
theorem symbolSummary_eq (t : SymTable) (m : Memory) (idx : Nat) (h : t.maxp < 256) :
    symbolSummary t m idx = BitVec.ofNat 64
      ((t.flag m idx).toNat + 256 * t.activeCount m idx + 65536 * (t.rule m idx).bits.toNat) := by
  have hc := t.activeCount_le m idx
  have hf := (t.flag m idx).isLt
  have hr := (t.rule m idx).bits.isLt
  unfold symbolSummary
  generalize t.flag m idx = f at *
  generalize t.activeCount m idx = c at *
  generalize (t.rule m idx).bits = r at *
  apply BitVec.eq_of_toNat_eq
  simp only [BitVec.toNat_or, BitVec.toNat_shiftLeft, BitVec.toNat_setWidth, BitVec.toNat_ofNat]
  rw [Nat.or_assoc, Nat.or_comm, Nat.mod_eq_of_lt (a := c) (by omega), Nat.mod_eq_of_lt (a := f.toNat) (by omega),
    Nat.mod_eq_of_lt (a := r.toNat) (by omega), Nat.mod_eq_of_lt (a := c <<< 8) (by rw [Nat.shiftLeft_eq]; omega),
    Nat.mod_eq_of_lt (a := r.toNat <<< 16) (by rw [Nat.shiftLeft_eq]; omega)]
  rw [show c <<< 8 ||| r.toNat <<< 16 = (r.toNat <<< 8 ||| c) <<< 8 by
      rw [Nat.shiftLeft_or_distrib, ← Nat.shiftLeft_add, Nat.or_comm],
    ← Nat.shiftLeft_add_eq_or_of_lt (by omega), ← Nat.shiftLeft_add_eq_or_of_lt (by omega)]
  simp only [Nat.shiftLeft_eq]
  omega

end Sys2Proof.Machine
end

