-- ==== Sys2Proof/Laws/Memory.lean ====
section
/-! SUPPORT. The input memory: read after write, and the canonical form kept by every write. -/

namespace Sys2Proof.Machine

@[simp] theorem Memory.written_nil (a : Nat) : Memory.written [] a = none := rfl

/-- What is listed after a write: the new byte at its address, and what was listed before elsewhere. -/
theorem Memory.written_store (m : Memory) (a x : Nat) (v : Byte) :
    (m.store a v).written x = if a = x then some v else m.written x := by
  induction m with
  | nil => simp [Memory.store, Memory.written]
  | cons c rest ih =>
    obtain ⟨b, w⟩ := c
    simp only [Memory.store]
    by_cases hab : a < b
    · simp [Memory.written, hab]
    · by_cases hb : a = b
      · subst hb
        by_cases hx : a = x <;> simp [Memory.written, hx]
      · by_cases hbx : b = x
        · subst hbx
          simp [Memory.written, hab, hb]
        · simp [Memory.written, hab, hb, hbx, ih]

/-- A read after a write to the same address gives the byte written. -/
theorem Memory.byte_store_same (m : Memory) (a : Nat) (v : Byte) : (m.store a v).byte a = v := by
  simp [Memory.byte, Memory.written_store]

/-- A write leaves every other byte alone. -/
theorem Memory.byte_store_other (m : Memory) (a x : Nat) (v : Byte) (hx : a ≠ x) :
    (m.store a v).byte x = m.byte x := by
  simp [Memory.byte, Memory.written_store, hx]

/-- The canonical form of a list with a head: the tail has it, and the next address is above the head's. -/
theorem Memory.wf_cons (a : Nat) (v : Byte) (m : Memory) :
    Memory.wf ((a, v) :: m) = true ↔ (∀ c, m.head? = some c → a < c.1) ∧ m.wf = true := by
  cases m with
  | nil => simp [Memory.wf]
  | cons c rest => obtain ⟨b, w⟩ := c; simp [Memory.wf]

/-- The first address after a write is the one written or the first before it. -/
theorem Memory.head_store (m : Memory) (a : Nat) (v : Byte) (c : Host.Cell)
    (h : (m.store a v).head? = some c) : c.1 = a ∨ m.head?.map Prod.fst = some c.1 := by
  cases m with
  | nil => simp [Memory.store] at h; exact .inl (by simp [← h])
  | cons d rest =>
    obtain ⟨b, w⟩ := d
    simp only [Memory.store] at h
    split at h
    · simp at h; exact .inl (by simp [← h])
    · split at h
      · simp at h; exact .inl (by simp [← h])
      · simp at h; exact .inr (by simp [← h])

/-- A write keeps the canonical form. -/
theorem Memory.wf_store (m : Memory) (a : Nat) (v : Byte) (h : m.wf = true) : (m.store a v).wf = true := by
  induction m with
  | nil => rfl
  | cons d rest ih =>
    obtain ⟨b, w⟩ := d
    obtain ⟨hlt, hrest⟩ := (Memory.wf_cons b w rest).mp h
    simp only [Memory.store]
    split
    · refine (Memory.wf_cons _ _ _).mpr ⟨?_, h⟩
      intro c hc; simp at hc; subst hc; assumption
    · split
      · refine (Memory.wf_cons _ _ _).mpr ⟨?_, hrest⟩
        intro c hc; have := hlt c hc; omega
      · refine (Memory.wf_cons _ _ _).mpr ⟨?_, ih hrest⟩
        intro c hc
        rcases Memory.head_store rest a v c hc with h1 | h1
        · omega
        · cases hr : rest.head? with
          | none => simp [hr] at h1
          | some c' => simp [hr] at h1; have := hlt c' hr; omega

/-- Every address listed after a write was listed before or is the one written. -/
theorem Memory.mem_store (m : Memory) (a : Nat) (v : Byte) (c : Host.Cell) (h : c ∈ m.store a v) :
    c = (a, v) ∨ c ∈ m := by
  induction m with
  | nil => simp [Memory.store] at h; exact .inl h
  | cons d rest ih =>
    obtain ⟨b, w⟩ := d
    simp only [Memory.store] at h
    split at h
    · simpa using h
    · split at h
      · simp at h ⊢; tauto
      · simp at h ⊢; rcases h with h | h
        · tauto
        · have := ih h; tauto

/-- Reset's memory has the canonical form. -/
theorem Memory.wf_reset : State.reset.mem.wf = true := rfl

/-- A multi-byte read is a number of as many bytes. -/
theorem Memory.read_lt (m : Memory) (addr n : Nat) : m.read addr n < 256 ^ n := by
  induction n generalizing addr with
  | zero => simp [Memory.read]
  | succ n ih =>
    have := ih (addr + 1)
    have hb := (m.byte addr).isLt
    simp only [Memory.read, pow_succ]
    omega

@[simp] theorem Memory.bit_le_one (m : Memory) (b p : Nat) : m.bit b p ≤ 1 := by
  simp only [Memory.bit, Nat.and_one_is_mod]; omega

/-- A code of width `w` lies in 0 .. 2^w - 1 (R140). -/
theorem Memory.code_lt (m : Memory) (b c w : Nat) : m.code b c w < 2 ^ w := by
  induction w with
  | zero => simp [Memory.code]
  | succ w ih =>
    have := Memory.bit_le_one m b (c + w)
    simp only [Memory.code, pow_succ]
    omega

/-- A code is its high part shifted past its low part (R145). -/
theorem Memory.code_add (m : Memory) (b c w v : Nat) :
    m.code b c (w + v) = m.code b c w * 2 ^ v + m.code b (c + w) v := by
  induction v with
  | zero => simp [Memory.code]
  | succ v ih =>
    rw [← Nat.add_assoc]
    simp only [Memory.code, ih, pow_succ, Nat.add_assoc]
    ring

/-- A code depends only on the bytes that hold its bits. -/
theorem Memory.code_congr (m m' : Memory) (b c w : Nat)
    (h : ∀ k, k < w → m.byte (b + (c + k) / 8) = m'.byte (b + (c + k) / 8)) :
    m.code b c w = m'.code b c w := by
  induction w with
  | zero => rfl
  | succ w ih =>
    simp only [Memory.code, Memory.bit]
    rw [ih fun k hk => h k (by omega), h w (by omega)]

/-- A multi-byte read depends only on its bytes. -/
theorem Memory.read_congr (m m' : Memory) (addr n : Nat)
    (h : ∀ k, k < n → m.byte (addr + k) = m'.byte (addr + k)) : m.read addr n = m'.read addr n := by
  induction n generalizing addr with
  | zero => rfl
  | succ n ih =>
    simp only [Memory.read]
    rw [ih (addr + 1) fun k hk => by have := h (k + 1) (by omega); rwa [← Nat.add_assoc, Nat.add_right_comm] at this,
      show m.byte addr = m'.byte addr from h 0 (by omega)]

end Sys2Proof.Machine
end

