-- ==== Sys2Proof/Laws/Block.lean ====
section
/-! SUPPORT. The block checks said once (R234): when a block passes them all, what the first failing one of a loop is, and
how large the fields and the size of a block can be (R240). -/

namespace Sys2Proof.Machine

/-- bitsPerSymbol is 1 to 8 (R180). -/
theorem bitsPerSymbol_bounds (asd : Nat) : 1 ≤ bitsPerSymbol asd ∧ bitsPerSymbol asd ≤ 8 := by
  unfold bitsPerSymbol
  repeat (split; omega)
  omega

/-- A loop of checks passes when every check passes. -/
theorem firstError_eq_none {f : Nat → Option CmdError} {n : Nat} :
    firstError f n = none ↔ ∀ k, k < n → f k = none := by
  simp [firstError]

/-- A loop of checks answers the error of the first check that fails. -/
theorem firstError_eq_some {f : Nat → Option CmdError} {n k : Nat} {e : CmdError} (hk : k < n)
    (hbefore : ∀ j, j < k → f j = none) (he : f k = some e) : firstError f n = some e := by
  unfold firstError
  rw [show n = k + (n - k - 1 + 1) by omega, List.range_add, List.findSome?_append,
    List.findSome?_eq_none_iff.2 (by simpa using hbefore)]
  simp [List.range_succ_eq_map, he]

theorem Header.entryError_eq_none (h : Header) (m : Memory) (b k : Nat) :
    h.entryError m b k = none ↔ (h.blockSym m b k).toNat < h.asp := by
  unfold Header.entryError
  split <;> simp <;> omega

theorem Header.indexError_eq_none (h : Header) (m : Memory) (b n : Nat) :
    h.indexError m b n = none ↔ (h.blockIndex m b n).toNat < h.asd := by
  unfold Header.indexError
  split <;> simp <;> omega

/-- A block passes every check (R234) exactly when it is well formed in memory. -/
theorem State.blockError_eq_none (s : State) (b n : Nat) (h : Header) (hh : h = readHeader s.mem b) :
    s.blockError b n = none ↔
      b + n ≤ s.memSize ∧ 14 ≤ n ∧ h.size = n ∧ (h.totp = 0 ∨ h.asp ≠ 0) ∧ (h.totd = 0 ∨ h.asd ≠ 0) ∧
        (∀ k, k < h.totp → (h.blockSym s.mem b k).toNat < h.asp) ∧
        (∀ j, j < h.totd → (h.blockIndex s.mem b j).toNat < h.asd) := by
  have h1 := @firstError_eq_none (h.entryError s.mem b) h.totp
  have h2 := @firstError_eq_none (h.indexError s.mem b) h.totd
  simp only [Header.entryError_eq_none] at h1
  simp only [Header.indexError_eq_none] at h2
  unfold State.blockError State.hasRegion
  rw [← hh, ← h1, ← h2]
  unfold Header.check
  by_cases c1 : b + n ≤ s.memSize
  · rw [if_neg (not_not.2 c1)]
    by_cases c2 : n < 14
    · rw [if_pos c2]; simp; intros; omega
    rw [if_neg c2]
    split_ifs with c3 c4 c5 c6
    · simp; omega
    · simp; omega
    · simp; omega
    · simp; omega
    · cases h3 : firstError (h.entryError s.mem b) h.totp with
      | none =>
        simp only [true_and]
        exact ⟨fun h => ⟨c1, by omega, by omega, by omega, by omega, h⟩, fun h => h.2.2.2.2.2⟩
      | some e => simp
  · rw [if_pos c1]; simp; intro h; omega

/-- How large the fields of a header are (R85). -/
theorem readHeader_bounds (m : Memory) (b : Nat) :
    (readHeader m b).totp < 2 ^ 32 ∧ (readHeader m b).npp < 256 ∧ (readHeader m b).asp < 256 ∧
      (readHeader m b).totd < 2 ^ 32 ∧ (readHeader m b).npd < 256 ∧ (readHeader m b).asd < 256 :=
  ⟨Memory.read_lt m (b + 2) 4, Memory.read_lt m (b + 6) 1, Memory.read_lt m (b + 7) 1,
    Memory.read_lt m (b + 8) 4, Memory.read_lt m (b + 12) 1, Memory.read_lt m (b + 13) 1⟩

/-- The computed size fits the information of an error (R263). -/
theorem readHeader_size_lt (m : Memory) (b : Nat) : (readHeader m b).size < 2 ^ 63 := by
  obtain ⟨h1, h2, h3, h4, h5, h6⟩ := readHeader_bounds m b
  generalize readHeader m b = h at *
  have h7 := (bitsPerSymbol_bounds h.asd).2
  have h8 : bitsPerSymbol h.asd * h.totd ≤ 8 * h.totd := Nat.mul_le_mul_right _ h7
  have h9 : h.asp * (1 + 2 * h.npp) ≤ 255 * (1 + 2 * 255) := Nat.mul_le_mul (by omega) (by omega)
  have h10 : h.asd * (1 + 2 * h.npd) ≤ 255 * (1 + 2 * 255) := Nat.mul_le_mul (by omega) (by omega)
  simp only [Header.size, Header.payloadOffset, Header.dataOffset, Header.prleOffset, Header.pilotOffset,
    payloadBytes, Header.bps, symbolBytes]
  omega

end Sys2Proof.Machine
end

