-- ==== Sys2Proof/Laws/Emitter.lean ====
section
/-! SUPPORT. What the emitter's operations do, said once in the terms of the claims: pulses, records and levels. -/

namespace Sys2Proof.Machine

variable (e : Emitter)

@[simp] theorem Emitter.clearCounters_eq :
    e.clearCounters = { e with pulseCount := 0, parity := 0, totalDur := 0 } := rfl

@[simp] theorem renderRecords_append (l : Level) (ps qs : List (BitVec 16 × PolRule)) :
    renderRecords l (ps ++ qs) = renderRecords l ps ++ renderRecords (renderLevel l ps) qs := by
  induction ps generalizing l with
  | nil => rfl
  | cons p ps ih => simp [renderRecords, renderLevel, ih]

@[simp] theorem renderLevel_append (l : Level) (ps qs : List (BitVec 16 × PolRule)) :
    renderLevel l (ps ++ qs) = renderLevel (renderLevel l ps) qs := by
  induction ps generalizing l with
  | nil => rfl
  | cons p ps ih => simp [renderLevel, ih]

/-- TOGGLE pulses flip the level once each (R200). -/
theorem renderLevel_of_toggles (ps : List (BitVec 16 × PolRule)) (h : ∀ p ∈ ps, p.2 = .toggle) (l : Level) :
    (renderLevel l ps).bit = l.bit ^^^ BitVec.ofNat 1 ps.length := by
  induction ps generalizing l with
  | nil => simp [renderLevel]
  | cons p ps ih =>
    obtain ⟨d, r⟩ := p
    obtain rfl : r = .toggle := h (d, r) (by simp)
    simp only [renderLevel, levelAfter, ih (fun p hp => h p (by simp [hp])), List.length_cons, BitVec.ofNat_add]
    have flip : ∀ (x : BitVec 1) (l : Level), l.flip.bit ^^^ x = l.bit ^^^ (x + 1#1) := by
      intro x l
      cases l <;> revert x <;> decide
    exact flip _ _

/-- A CORRECTIVE record has duration 0 (R81). -/
theorem renderRecords_corrective (l : Level) (ps : List (BitVec 16 × PolRule)) :
    ∀ r ∈ renderRecords l ps, r.kind = .corrective → r.duration = 0 := by
  induction ps generalizing l with
  | nil => simp [renderRecords]
  | cons p ps ih =>
    obtain ⟨d, q⟩ := p
    intro r hr
    rcases List.mem_append.mp hr with hr | hr
    · cases q <;> cases l <;> simp_all [pulseRecords]
      all_goals rcases hr with rfl | rfl <;> simp
    · exact ih _ r hr

/-- A pause makes PAUSE records alone (R209). -/
theorem pauseRecords_kind (l : Level) (ms : BitVec 16) : ∀ r ∈ pauseRecords l ms, r.kind = .pause := by
  intro r hr
  unfold pauseRecords at hr
  split at hr
  · cases hr
  · cases l <;> simp at hr
    · exact hr ▸ rfl
    · rcases hr with rfl | rfl <;> rfl

@[simp] theorem totalOf_append (ps qs : List (BitVec 16 × PolRule)) :
    totalOf (ps ++ qs) = totalOf ps + totalOf qs := by
  simp [totalOf]

/-- The emitter after a list of pulses. -/
def Emitter.after (ps : List (BitVec 16 × PolRule)) (e : Emitter) : Emitter where
  level := renderLevel e.level ps
  pulseCount := e.pulseCount + BitVec.ofNat 64 ps.length
  parity := e.parity + BitVec.ofNat 1 ps.length
  totalDur := e.totalDur + BitVec.ofNat 72 (totalOf ps)
  out := e.out ++ renderRecords e.level ps

@[simp] theorem Emitter.after_nil : e.after [] = e := by
  cases e; simp [Emitter.after, renderLevel, renderRecords, totalOf]

theorem Emitter.after_append (ps qs : List (BitVec 16 × PolRule)) :
    e.after (ps ++ qs) = (e.after ps).after qs := by
  simp [Emitter.after, BitVec.ofNat_add, BitVec.add_assoc]

/-- One pulse (R200 to R203, R205). -/
theorem Emitter.emitPulse_eq (d : BitVec 16) (r : PolRule) : e.emitPulse d r = e.after [(d, r)] := by
  have hd : d.setWidth 32 = BitVec.ofNat 32 d.toNat := by
    apply BitVec.eq_of_toNat_eq; simp
  have ht : (d.setWidth 32).setWidth 72 = BitVec.ofNat 72 d.toNat := by
    apply BitVec.eq_of_toNat_eq; simp
  have hp : ∀ p : BitVec 1, ~~~ p = p + 1 := by decide
  cases e with
  | mk l pc pa td out =>
  cases r <;> cases l <;>
    simp [Emitter.emitPulse, Emitter.force, Emitter.emit, Emitter.countPulse, Emitter.after, renderLevel,
      renderRecords, pulseRecords, levelAfter, totalOf, ht, hp]

/-- A list of pulses with one rule. -/
theorem Emitter.foldl_emitPulse (r : PolRule) (ds : List (BitVec 16)) :
    ds.foldl (fun e d => e.emitPulse d r) e = e.after (ds.map fun d => (d, r)) := by
  induction ds generalizing e with
  | nil => simp
  | cons d ds ih =>
    rw [List.foldl_cons, ih, Emitter.emitPulse_eq, ← Emitter.after_append]; rfl

/-- One symbol (R204). -/
theorem Emitter.emitSymbol_eq (t : SymTable) (m : Memory) (idx : Nat) :
    e.emitSymbol t m idx = e.after (t.pulses m idx) :=
  Emitter.foldl_emitPulse e _ _

/-- A symbol `n` times (R237). -/
theorem Emitter.iterate_emitSymbol (t : SymTable) (m : Memory) (idx n : Nat) :
    (Emitter.emitSymbol t m idx)^[n] e = e.after (List.replicate n (t.pulses m idx)).flatten := by
  induction n generalizing e with
  | zero => simp
  | succ n ih =>
    rw [Function.iterate_succ_apply, ih, Emitter.emitSymbol_eq, ← Emitter.after_append,
      List.replicate_succ, List.flatten_cons]

/-- A phase: one list of pulses per item, in order. -/
theorem Emitter.foldl_after {α : Type} (f : Emitter → α → Emitter) (ps : α → List (BitVec 16 × PolRule))
    (hf : ∀ e a, f e a = e.after (ps a)) (as : List α) :
    as.foldl f e = e.after (as.flatMap ps) := by
  induction as generalizing e with
  | nil => simp
  | cons a as ih => rw [List.foldl_cons, ih, hf, ← Emitter.after_append, List.flatMap_cons]

/-- The pilot phase (R237). -/
theorem Header.pilotPhase_eq (h : Header) (m : Memory) (base : Nat) :
    h.pilotPhase m base e = e.after (h.pilotPulses m base) := by
  refine Emitter.foldl_after e (fun e k => h.emitEntry m base k e)
    (fun k => (List.replicate (h.blockRep m base k).toNat
      ((h.pilotTable base).pulses m (h.blockSym m base k).toNat)).flatten) ?_ _
  intro e k
  exact Emitter.iterate_emitSymbol e _ _ _ _

/-- The data phase (R238). -/
theorem Header.dataPhase_eq (h : Header) (m : Memory) (base : Nat) :
    h.dataPhase m base e = e.after (h.dataPulses m base) := by
  refine Emitter.foldl_after e (fun e n => e.emitSymbol (h.dataTable base) m (h.blockIndex m base n).toNat)
    (fun n => (h.dataTable base).pulses m (h.blockIndex m base n).toNat) ?_ _
  intro e n
  exact Emitter.emitSymbol_eq e _ _ _

/-- A pause (R209). -/
theorem Emitter.silence_eq (ms : BitVec 16) :
    e.silence ms = { e with
      level := if ms = 0 then e.level else .low
      out := e.out ++ pauseRecords e.level ms } := by
  have h32 : ms.setWidth 32 = BitVec.ofNat 32 ms.toNat := by
    apply BitVec.eq_of_toNat_eq; simp
  by_cases h0 : ms = 0
  · cases e; simp [Emitter.silence, pauseRecords, h0]
  · have hpos : 0 < ms.toNat := by
      rcases Nat.eq_zero_or_pos ms.toNat with h | h
      · exact absurd (BitVec.eq_of_toNat_eq h) h0
      · exact h
    have hsub : ms.setWidth 32 - 1 = BitVec.ofNat 32 (ms.toNat - 1) := by
      apply BitVec.eq_of_toNat_eq
      have := ms.isLt
      rw [BitVec.toNat_sub, BitVec.toNat_setWidth, BitVec.toNat_ofNat, show (1 : BitVec 32).toNat = 1 from rfl]
      omega
    cases e with
    | mk l pc pa td out =>
    cases l
    · unfold Emitter.silence pauseRecords
      rw [if_neg h0, if_neg h0, if_neg h0, ← h32]
      rfl
    · unfold Emitter.silence pauseRecords
      rw [if_neg h0, if_neg h0, if_neg h0]
      show Emitter.mk _ _ _ _ ((out ++ [_]) ++ [_]) = Emitter.mk _ _ _ _ (out ++ [_, _])
      rw [hsub, List.append_assoc]
      rfl

end Sys2Proof.Machine
end

