-- ==== Sys2Proof/Laws/BlockReads.lean ====
section
/-! SUPPORT. What DECODE_BLOCK reads lies in the block: two memories that agree on its bytes give the same header, checks,
pulses and warnings (R242). -/

namespace Sys2Proof.Machine

/-- Two memories hold the same bytes from `lo` up to `hi`. -/
def Memory.AgreeOn (m m' : Memory) (lo hi : Nat) : Prop := ∀ a, lo ≤ a → a < hi → m.byte a = m'.byte a

/-- A symbol of a table is read from the table's own bytes (R121). -/
theorem SymTable.slots_congr {t : SymTable} {m m' : Memory} {idx : Nat} (hi : idx < t.count)
    (h : Memory.AgreeOn m m' t.base (t.base + t.count * symbolBytes t.maxp)) :
    t.slots m idx = t.slots m' idx ∧ t.flag m idx = t.flag m' idx := by
  have hb := t.symAddr_end_le hi
  have ha : t.base ≤ t.symAddr idx := Nat.le_add_right _ _
  constructor
  · apply List.map_congr_left
    intro j hj; rw [List.mem_range] at hj
    unfold SymTable.slot
    rw [Memory.read_congr _ m' _ _ (fun k hk => h _ (by omega) (by simp only [symbolBytes] at *; omega))]
  · exact h _ ha (by simp only [symbolBytes] at *; omega)

/-- So are its pulses and its warnings (R122 to R125, R204). -/
theorem SymTable.pulses_congr {t : SymTable} {m m' : Memory} {idx : Nat} (hi : idx < t.count)
    (h : Memory.AgreeOn m m' t.base (t.base + t.count * symbolBytes t.maxp)) :
    t.pulses m idx = t.pulses m' idx ∧ t.warnBits m idx = t.warnBits m' idx := by
  obtain ⟨h1, h2⟩ := SymTable.slots_congr hi h
  simp [SymTable.pulses, SymTable.activePulses, SymTable.rule, SymTable.warnBits, SymTable.zeroTailWarn,
    SymTable.flagWarn, h1, h2]

theorem foldl_congr_mem {α β} (f g : β → α → β) (l : List α) (b : β) (h : ∀ x ∈ l, ∀ b, f b x = g b x) :
    l.foldl f b = l.foldl g b := by
  induction l generalizing b with
  | nil => rfl
  | cons a l ih =>
    simp only [List.foldl_cons]
    rw [h a (by simp), ih]
    intro x hx
    exact h x (by simp [hx])

/-- And the warnings of the whole table. -/
theorem SymTable.allWarnBits_congr {t : SymTable} {m m' : Memory}
    (h : Memory.AgreeOn m m' t.base (t.base + t.count * symbolBytes t.maxp)) : t.allWarnBits m = t.allWarnBits m' := by
  apply foldl_congr_mem; intro x hx b; rw [List.mem_range] at hx; rw [(SymTable.pulses_congr hx h).2]

/-- The header is the first 14 bytes of the block (R232). -/
theorem readHeader_congr {m m' : Memory} {b n} (hn : 14 ≤ n) (h : Memory.AgreeOn m m' b (b + n)) :
    readHeader m b = readHeader m' b := by
  simp only [readHeader]
  congr 1 <;> rw [Memory.read_congr _ m' _ _ (fun k hk => h _ (by omega) (by omega))]

/-- The PRLE entries lie in the block (R233). -/
theorem Header.entry_congr {m m' : Memory} {b n} (hd : Header) (hn : hd.size = n) (h : Memory.AgreeOn m m' b (b + n))
    (k : Nat) (hk : k < hd.totp) :
    hd.blockSym m b k = hd.blockSym m' b k ∧ hd.blockRep m b k = hd.blockRep m' b k := by
  simp only [Header.size, Header.payloadOffset, Header.dataOffset] at hn
  constructor
  · exact h _ (by omega) (by omega)
  · unfold Header.blockRep entryRep; rw [Memory.read_congr _ m' _ _ (fun j hj => h _ (by omega) (by omega))]

/-- The data codes lie in the block (R233). -/
theorem Header.blockIndex_congr {m m' : Memory} {b n} (hd : Header) (hn : hd.size = n) (h : Memory.AgreeOn m m' b (b + n))
    (k : Nat) (hk : k < hd.totd) :
    hd.blockIndex m b k = hd.blockIndex m' b k := by
  simp only [Header.size] at hn
  unfold Header.blockIndex dataIndex
  rw [Memory.code_congr _ m' _ _ _ (fun j hj => h _ (by omega) ?_)]
  have : k * hd.bps + j < hd.bps * hd.totd := by
    calc k * hd.bps + j < k * hd.bps + hd.bps := by omega
      _ = hd.bps * (k + 1) := by ring
      _ ≤ _ := Nat.mul_le_mul_left _ hk
  unfold payloadBytes at hn
  omega

theorem findSome?_congr_mem {α β} (f g : α → Option β) (l : List α) (h : ∀ x ∈ l, f x = g x) :
    l.findSome? f = l.findSome? g := by
  induction l with
  | nil => rfl
  | cons a l ih =>
    simp only [List.findSome?_cons]
    rw [h a (by simp), ih]
    intro x hx
    exact h x (by simp [hx])

/-- The checks read only the block (R234). -/
theorem Header.check_congr {m m' : Memory} {b n} (hd : Header) (h : Memory.AgreeOn m m' b (b + n)) :
    hd.check m b n = hd.check m' b n := by
  unfold Header.check
  split; rfl
  split; rfl
  split; rfl
  split; rfl
  have hn : hd.size = n := by omega
  have h1 : firstError (hd.entryError m b) hd.totp = firstError (hd.entryError m' b) hd.totp := by
    apply findSome?_congr_mem; intro k hk; rw [List.mem_range] at hk
    unfold Header.entryError; rw [(Header.entry_congr hd hn h k hk).1]
  have h2 : firstError (hd.indexError m b) hd.totd = firstError (hd.indexError m' b) hd.totd := by
    apply findSome?_congr_mem; intro k hk; rw [List.mem_range] at hk
    unfold Header.indexError; rw [Header.blockIndex_congr hd hn h k hk]
  rw [h1, h2]

/-- The error of a block depends on its bytes and the size of the memory alone (R242). -/
theorem State.blockError_congr {s s' : State} {b n : Nat} (hm : s.memSize = s'.memSize)
    (h : Memory.AgreeOn s.mem s'.mem b (b + n)) : s.blockError b n = s'.blockError b n := by
  unfold State.blockError State.hasRegion
  rw [hm]
  split; rfl
  split; rfl
  rw [readHeader_congr (by omega) h, Header.check_congr _ h]

/-- Both alphabets lie in the block (R233). -/
theorem Header.tables_agree (hd : Header) (b n : Nat) (hn : hd.size = n) {m m' : Memory}
    (h : Memory.AgreeOn m m' b (b + n)) :
    Memory.AgreeOn m m' (hd.pilotTable b).base
      ((hd.pilotTable b).base + (hd.pilotTable b).count * symbolBytes (hd.pilotTable b).maxp) ∧
    Memory.AgreeOn m m' (hd.dataTable b).base
      ((hd.dataTable b).base + (hd.dataTable b).count * symbolBytes (hd.dataTable b).maxp) := by
  simp only [Header.size, Header.payloadOffset, Header.dataOffset, Header.prleOffset, Header.pilotOffset] at hn
  constructor <;> intro a h1 h2 <;> apply h <;>
    simp only [Header.pilotTable, Header.dataTable, Header.dataOffset, Header.prleOffset, Header.pilotOffset] at h1 h2 <;>
    omega

/-- The pulses of a block that passed the checks depend on its bytes alone (R242). -/
theorem Header.blockPulses_congr (hd : Header) (b n : Nat) (hn : hd.size = n) {m m' : Memory}
    (h : Memory.AgreeOn m m' b (b + n))
    (he : ∀ k, k < hd.totp → (hd.blockSym m b k).toNat < hd.asp)
    (hi : ∀ k, k < hd.totd → (hd.blockIndex m b k).toNat < hd.asd) :
    hd.blockPulses m b = hd.blockPulses m' b := by
  obtain ⟨t1, t2⟩ := Header.tables_agree hd b n hn h
  unfold Header.blockPulses
  congr 1
  · apply List.flatMap_congr; intro k hk; rw [List.mem_range] at hk
    rw [← (Header.entry_congr hd hn h k hk).1, ← (Header.entry_congr hd hn h k hk).2,
      (SymTable.pulses_congr (he k hk) t1).1]
  · apply List.flatMap_congr; intro k hk; rw [List.mem_range] at hk
    rw [← Header.blockIndex_congr hd hn h k hk, (SymTable.pulses_congr (hi k hk) t2).1]

end Sys2Proof.Machine
end

