-- ==== Sys2Proof/Laws/State.lean ====
section
/-! SUPPORT. One lemma per field per update of State, so that no later proof unfolds a record update. -/

namespace Sys2Proof.Machine

variable (s : State)

/-! ### respond -/

@[simp] theorem State.respond_emitter (r : Response) : (s.respond r).emitter = s.emitter := rfl
@[simp] theorem State.respond_lastStatus (r : Response) : (s.respond r).lastStatus = r.status := rfl
@[simp] theorem State.respond_errInfo (r : Response) : (s.respond r).errInfo = s.errInfo := rfl
@[simp] theorem State.respond_warn (r : Response) : (s.respond r).warn = s.warn := rfl
@[simp] theorem State.respond_cfg (r : Response) : (s.respond r).cfg = s.cfg := rfl
@[simp] theorem State.respond_blkPause (r : Response) : (s.respond r).blkPause = s.blkPause := rfl
@[simp] theorem State.respond_blkSize (r : Response) : (s.respond r).blkSize = s.blkSize := rfl
@[simp] theorem State.respond_memSize (r : Response) : (s.respond r).memSize = s.memSize := rfl
@[simp] theorem State.respond_alphaPilot (r : Response) : (s.respond r).alphaPilot = s.alphaPilot := rfl
@[simp] theorem State.respond_alphaData (r : Response) : (s.respond r).alphaData = s.alphaData := rfl
@[simp] theorem State.respond_prle (r : Response) : (s.respond r).prle = s.prle := rfl
@[simp] theorem State.respond_dss (r : Response) : (s.respond r).dss = s.dss := rfl
@[simp] theorem State.respond_bsr (r : Response) : (s.respond r).bsr = s.bsr := rfl
@[simp] theorem State.respond_mem (r : Response) : (s.respond r).mem = s.mem := rfl
@[simp] theorem State.respond_port (r : Response) : (s.respond r).port = s.port := rfl
@[simp] theorem State.respond_responses (r : Response) : (s.respond r).responses = s.responses ++ [r] := rfl

/-! ### complete -/

@[simp] theorem State.complete_emitter (v : Word) : (s.complete v).emitter = s.emitter := rfl
@[simp] theorem State.complete_lastStatus (v : Word) : (s.complete v).lastStatus = .ok := rfl
@[simp] theorem State.complete_errInfo (v : Word) : (s.complete v).errInfo = s.errInfo := rfl
@[simp] theorem State.complete_warn (v : Word) : (s.complete v).warn = s.warn := rfl
@[simp] theorem State.complete_cfg (v : Word) : (s.complete v).cfg = s.cfg := rfl
@[simp] theorem State.complete_blkPause (v : Word) : (s.complete v).blkPause = s.blkPause := rfl
@[simp] theorem State.complete_blkSize (v : Word) : (s.complete v).blkSize = s.blkSize := rfl
@[simp] theorem State.complete_memSize (v : Word) : (s.complete v).memSize = s.memSize := rfl
@[simp] theorem State.complete_alphaPilot (v : Word) : (s.complete v).alphaPilot = s.alphaPilot := rfl
@[simp] theorem State.complete_alphaData (v : Word) : (s.complete v).alphaData = s.alphaData := rfl
@[simp] theorem State.complete_prle (v : Word) : (s.complete v).prle = s.prle := rfl
@[simp] theorem State.complete_dss (v : Word) : (s.complete v).dss = s.dss := rfl
@[simp] theorem State.complete_bsr (v : Word) : (s.complete v).bsr = s.bsr := rfl
@[simp] theorem State.complete_mem (v : Word) : (s.complete v).mem = s.mem := rfl
@[simp] theorem State.complete_port (v : Word) : (s.complete v).port = s.port := rfl
@[simp] theorem State.complete_responses (v : Word) : (s.complete v).responses = s.responses ++ [⟨.ok, v⟩] := rfl

/-! ### finishStream -/

@[simp] theorem State.finishStream_emitter : (s.finishStream).emitter = s.emitter := rfl
@[simp] theorem State.finishStream_lastStatus : (s.finishStream).lastStatus = .endOfStream := rfl
@[simp] theorem State.finishStream_errInfo : (s.finishStream).errInfo = s.errInfo := rfl
@[simp] theorem State.finishStream_warn : (s.finishStream).warn = s.warn := rfl
@[simp] theorem State.finishStream_cfg : (s.finishStream).cfg = s.cfg := rfl
@[simp] theorem State.finishStream_blkPause : (s.finishStream).blkPause = s.blkPause := rfl
@[simp] theorem State.finishStream_blkSize : (s.finishStream).blkSize = s.blkSize := rfl
@[simp] theorem State.finishStream_memSize : (s.finishStream).memSize = s.memSize := rfl
@[simp] theorem State.finishStream_alphaPilot : (s.finishStream).alphaPilot = s.alphaPilot := rfl
@[simp] theorem State.finishStream_alphaData : (s.finishStream).alphaData = s.alphaData := rfl
@[simp] theorem State.finishStream_prle : (s.finishStream).prle = s.prle := rfl
@[simp] theorem State.finishStream_dss : (s.finishStream).dss = s.dss := rfl
@[simp] theorem State.finishStream_bsr : (s.finishStream).bsr = s.bsr := rfl
@[simp] theorem State.finishStream_mem : (s.finishStream).mem = s.mem := rfl
@[simp] theorem State.finishStream_port : (s.finishStream).port = s.port := rfl
@[simp] theorem State.finishStream_responses : (s.finishStream).responses = s.responses ++ [⟨.endOfStream, 0⟩] := rfl

/-! ### raise -/

@[simp] theorem State.raise_emitter (e : CmdError) : (s.raise e).emitter = s.emitter := rfl
@[simp] theorem State.raise_lastStatus (e : CmdError) : (s.raise e).lastStatus = e.status := rfl
@[simp] theorem State.raise_errInfo (e : CmdError) : (s.raise e).errInfo = e.info := rfl
@[simp] theorem State.raise_warn (e : CmdError) : (s.raise e).warn = s.warn := rfl
@[simp] theorem State.raise_cfg (e : CmdError) : (s.raise e).cfg = s.cfg := rfl
@[simp] theorem State.raise_blkPause (e : CmdError) : (s.raise e).blkPause = s.blkPause := rfl
@[simp] theorem State.raise_blkSize (e : CmdError) : (s.raise e).blkSize = s.blkSize := rfl
@[simp] theorem State.raise_memSize (e : CmdError) : (s.raise e).memSize = s.memSize := rfl
@[simp] theorem State.raise_alphaPilot (e : CmdError) : (s.raise e).alphaPilot = s.alphaPilot := rfl
@[simp] theorem State.raise_alphaData (e : CmdError) : (s.raise e).alphaData = s.alphaData := rfl
@[simp] theorem State.raise_prle (e : CmdError) : (s.raise e).prle = s.prle := rfl
@[simp] theorem State.raise_dss (e : CmdError) : (s.raise e).dss = s.dss := rfl
@[simp] theorem State.raise_bsr (e : CmdError) : (s.raise e).bsr = s.bsr := rfl
@[simp] theorem State.raise_mem (e : CmdError) : (s.raise e).mem = s.mem := rfl
@[simp] theorem State.raise_port (e : CmdError) : (s.raise e).port = s.port := rfl
@[simp] theorem State.raise_responses (e : CmdError) : (s.raise e).responses = s.responses ++ [⟨e.status, 0⟩] := rfl

/-! ### rejectFrame -/

@[simp] theorem State.rejectFrame_emitter (r : Reject) : (s.rejectFrame r).emitter = s.emitter := rfl
@[simp] theorem State.rejectFrame_lastStatus (r : Reject) : (s.rejectFrame r).lastStatus = .illegalCommand := rfl
@[simp] theorem State.rejectFrame_errInfo (r : Reject) : (s.rejectFrame r).errInfo = 0#55 ++ 0#1 ++ r.op := rfl
@[simp] theorem State.rejectFrame_warn (r : Reject) : (s.rejectFrame r).warn = s.warn := rfl
@[simp] theorem State.rejectFrame_cfg (r : Reject) : (s.rejectFrame r).cfg = s.cfg := rfl
@[simp] theorem State.rejectFrame_blkPause (r : Reject) : (s.rejectFrame r).blkPause = s.blkPause := rfl
@[simp] theorem State.rejectFrame_blkSize (r : Reject) : (s.rejectFrame r).blkSize = s.blkSize := rfl
@[simp] theorem State.rejectFrame_memSize (r : Reject) : (s.rejectFrame r).memSize = s.memSize := rfl
@[simp] theorem State.rejectFrame_alphaPilot (r : Reject) : (s.rejectFrame r).alphaPilot = s.alphaPilot := rfl
@[simp] theorem State.rejectFrame_alphaData (r : Reject) : (s.rejectFrame r).alphaData = s.alphaData := rfl
@[simp] theorem State.rejectFrame_prle (r : Reject) : (s.rejectFrame r).prle = s.prle := rfl
@[simp] theorem State.rejectFrame_dss (r : Reject) : (s.rejectFrame r).dss = s.dss := rfl
@[simp] theorem State.rejectFrame_bsr (r : Reject) : (s.rejectFrame r).bsr = s.bsr := rfl
@[simp] theorem State.rejectFrame_mem (r : Reject) : (s.rejectFrame r).mem = s.mem := rfl
@[simp] theorem State.rejectFrame_port (r : Reject) : (s.rejectFrame r).port = s.port := rfl
@[simp] theorem State.rejectFrame_responses (r : Reject) : (s.rejectFrame r).responses = s.responses ++ [⟨.illegalCommand, 0⟩] := rfl

/-! ### setReader -/

@[simp] theorem State.setReader_emitter (i : Nat) (r : Bsr) : (s.setReader i r).emitter = s.emitter := rfl
@[simp] theorem State.setReader_lastStatus (i : Nat) (r : Bsr) : (s.setReader i r).lastStatus = s.lastStatus := rfl
@[simp] theorem State.setReader_errInfo (i : Nat) (r : Bsr) : (s.setReader i r).errInfo = s.errInfo := rfl
@[simp] theorem State.setReader_warn (i : Nat) (r : Bsr) : (s.setReader i r).warn = s.warn := rfl
@[simp] theorem State.setReader_cfg (i : Nat) (r : Bsr) : (s.setReader i r).cfg = s.cfg := rfl
@[simp] theorem State.setReader_blkPause (i : Nat) (r : Bsr) : (s.setReader i r).blkPause = s.blkPause := rfl
@[simp] theorem State.setReader_blkSize (i : Nat) (r : Bsr) : (s.setReader i r).blkSize = s.blkSize := rfl
@[simp] theorem State.setReader_memSize (i : Nat) (r : Bsr) : (s.setReader i r).memSize = s.memSize := rfl
@[simp] theorem State.setReader_alphaPilot (i : Nat) (r : Bsr) : (s.setReader i r).alphaPilot = s.alphaPilot := rfl
@[simp] theorem State.setReader_alphaData (i : Nat) (r : Bsr) : (s.setReader i r).alphaData = s.alphaData := rfl
@[simp] theorem State.setReader_prle (i : Nat) (r : Bsr) : (s.setReader i r).prle = s.prle := rfl
@[simp] theorem State.setReader_dss (i : Nat) (r : Bsr) : (s.setReader i r).dss = s.dss := rfl
@[simp] theorem State.setReader_bsr (i : Nat) (r : Bsr) : (s.setReader i r).bsr = s.bsr.set i r := rfl
@[simp] theorem State.setReader_mem (i : Nat) (r : Bsr) : (s.setReader i r).mem = s.mem := rfl
@[simp] theorem State.setReader_port (i : Nat) (r : Bsr) : (s.setReader i r).port = s.port := rfl
@[simp] theorem State.setReader_responses (i : Nat) (r : Bsr) : (s.setReader i r).responses = s.responses := rfl

/-! ### examine -/

@[simp] theorem State.examine_emitter (t : SymTable) (idx : Nat) : (s.examine t idx).emitter = s.emitter := rfl
@[simp] theorem State.examine_lastStatus (t : SymTable) (idx : Nat) : (s.examine t idx).lastStatus = s.lastStatus := rfl
@[simp] theorem State.examine_errInfo (t : SymTable) (idx : Nat) : (s.examine t idx).errInfo = s.errInfo := rfl
@[simp] theorem State.examine_warn (t : SymTable) (idx : Nat) : (s.examine t idx).warn = s.warn ||| t.warnBits s.mem idx := rfl
@[simp] theorem State.examine_cfg (t : SymTable) (idx : Nat) : (s.examine t idx).cfg = s.cfg := rfl
@[simp] theorem State.examine_blkPause (t : SymTable) (idx : Nat) : (s.examine t idx).blkPause = s.blkPause := rfl
@[simp] theorem State.examine_blkSize (t : SymTable) (idx : Nat) : (s.examine t idx).blkSize = s.blkSize := rfl
@[simp] theorem State.examine_memSize (t : SymTable) (idx : Nat) : (s.examine t idx).memSize = s.memSize := rfl
@[simp] theorem State.examine_alphaPilot (t : SymTable) (idx : Nat) : (s.examine t idx).alphaPilot = s.alphaPilot := rfl
@[simp] theorem State.examine_alphaData (t : SymTable) (idx : Nat) : (s.examine t idx).alphaData = s.alphaData := rfl
@[simp] theorem State.examine_prle (t : SymTable) (idx : Nat) : (s.examine t idx).prle = s.prle := rfl
@[simp] theorem State.examine_dss (t : SymTable) (idx : Nat) : (s.examine t idx).dss = s.dss := rfl
@[simp] theorem State.examine_bsr (t : SymTable) (idx : Nat) : (s.examine t idx).bsr = s.bsr := rfl
@[simp] theorem State.examine_mem (t : SymTable) (idx : Nat) : (s.examine t idx).mem = s.mem := rfl
@[simp] theorem State.examine_port (t : SymTable) (idx : Nat) : (s.examine t idx).port = s.port := rfl
@[simp] theorem State.examine_responses (t : SymTable) (idx : Nat) : (s.examine t idx).responses = s.responses := rfl

/-! ### setAlpha -/

@[simp] theorem State.setAlpha_emitter (a : AlphaSel) (d : Alphabet) : (s.setAlpha a d).emitter = s.emitter := by cases a <;> rfl
@[simp] theorem State.setAlpha_lastStatus (a : AlphaSel) (d : Alphabet) : (s.setAlpha a d).lastStatus = s.lastStatus := by cases a <;> rfl
@[simp] theorem State.setAlpha_errInfo (a : AlphaSel) (d : Alphabet) : (s.setAlpha a d).errInfo = s.errInfo := by cases a <;> rfl
@[simp] theorem State.setAlpha_warn (a : AlphaSel) (d : Alphabet) : (s.setAlpha a d).warn = s.warn := by cases a <;> rfl
@[simp] theorem State.setAlpha_cfg (a : AlphaSel) (d : Alphabet) : (s.setAlpha a d).cfg = s.cfg := by cases a <;> rfl
@[simp] theorem State.setAlpha_blkPause (a : AlphaSel) (d : Alphabet) : (s.setAlpha a d).blkPause = s.blkPause := by cases a <;> rfl
@[simp] theorem State.setAlpha_blkSize (a : AlphaSel) (d : Alphabet) : (s.setAlpha a d).blkSize = s.blkSize := by cases a <;> rfl
@[simp] theorem State.setAlpha_memSize (a : AlphaSel) (d : Alphabet) : (s.setAlpha a d).memSize = s.memSize := by cases a <;> rfl
@[simp] theorem State.setAlpha_prle (a : AlphaSel) (d : Alphabet) : (s.setAlpha a d).prle = s.prle := by cases a <;> rfl
@[simp] theorem State.setAlpha_dss (a : AlphaSel) (d : Alphabet) : (s.setAlpha a d).dss = s.dss := by cases a <;> rfl
@[simp] theorem State.setAlpha_bsr (a : AlphaSel) (d : Alphabet) : (s.setAlpha a d).bsr = s.bsr := by cases a <;> rfl
@[simp] theorem State.setAlpha_mem (a : AlphaSel) (d : Alphabet) : (s.setAlpha a d).mem = s.mem := by cases a <;> rfl
@[simp] theorem State.setAlpha_port (a : AlphaSel) (d : Alphabet) : (s.setAlpha a d).port = s.port := by cases a <;> rfl
@[simp] theorem State.setAlpha_responses (a : AlphaSel) (d : Alphabet) : (s.setAlpha a d).responses = s.responses := by cases a <;> rfl
@[simp] theorem State.setAlpha_alphaPilot (a : AlphaSel) (d : Alphabet) :
    (s.setAlpha a d).alphaPilot = if a = .pilot then d else s.alphaPilot := by cases a <;> rfl
@[simp] theorem State.setAlpha_alphaData (a : AlphaSel) (d : Alphabet) :
    (s.setAlpha a d).alphaData = if a = .data then d else s.alphaData := by cases a <;> rfl

/-! ### alpha, reader -/

@[simp] theorem State.alpha_pilot : s.alpha .pilot = s.alphaPilot := rfl
@[simp] theorem State.alpha_data : s.alpha .data = s.alphaData := rfl
theorem State.reader_eq (i : Nat) : s.reader i = s.bsr[i]? := rfl

end Sys2Proof.Machine
end

