-- ==== Sys2Proof/Laws/Exec.lean ====
section
/-! SUPPORT. What a command can do, said once: it raises one of its errors, ends its stream, or completes with the
effect its rule gives. Later proofs cite `exec_cases` and do not unfold `exec`. -/

namespace Sys2Proof.Machine

/-- The effect of each command when it ends with OK, and what its rule checked before it. -/
inductive Effect : Instr → State → State → Prop where
  | nop (s) : Effect .nop s s
  | lvlSet (l s) : Effect (.lvlSet l) s { s with emitter := { s.emitter with level := l } }
  | regRead (n s) : Effect (.regRead n) s s
  | cfgWrite (b s) : Effect (.cfgWrite b) s { s with cfg := 0 }
  | warnClear (s) : Effect .warnClear s { s with warn := 0 }
  | cntClear (s) : Effect .cntClear s { s with emitter := s.emitter.clearCounters }
  | bsrOpen (s inst base len) (hi : inst.toNat < s.nBsr) (hr : s.hasRegion base.toNat len.toNat) :
      Effect (.bsrOpen inst base len) s (s.setReader inst.toNat ⟨base, len, 0⟩)
  | bsrRestart (s inst r) (hr : s.bsr[inst.toNat]? = some r) :
      Effect (.bsrRestart inst) s (s.setReader inst.toNat { r with cursor := 0 })
  | bsrRead (s inst width r) (hr : s.bsr[inst.toNat]? = some r) (hw : 1 ≤ width.toNat ∧ width.toNat ≤ 16)
      (hc : r.cursor.toNat + width.toNat ≤ 8 * r.len.toNat) :
      Effect (.bsrRead inst width) s
        (s.setReader inst.toNat { r with cursor := BitVec.ofNat 35 (r.cursor.toNat + width.toNat) })
  | alphaBind (s alpha count maxp base len a) (ha : alphaOf alpha = some a) (hr : s.hasRegion base.toNat len.toNat)
      (hs : count.toNat * symbolBytes maxp.toNat ≤ len.toNat) :
      Effect (.alphaBind alpha count maxp base len) s (s.setAlpha a ⟨base, count, maxp⟩)
  | symGet (s alpha idx a) (ha : alphaOf alpha = some a) (hi : idx.toNat < (s.alpha a).count.toNat) :
      Effect (.symGet alpha idx) s (s.examine (s.alpha a).table idx.toNat)
  | symDur (s alpha idx slot) : Effect (.symDur alpha idx slot) s s
  | prleOpen (s base len totp) (hr : s.hasRegion base.toNat len.toNat)
      (ha : 0 < totp.toNat → s.alphaPilot.count ≠ 0) (hs : 3 * totp.toNat ≤ len.toNat) :
      Effect (.prleOpen base len totp) s { s with prle := ⟨base, totp, 0, s.alphaPilot.count⟩ }
  | prleRestart (s) : Effect .prleRestart s { s with prle := { s.prle with next := 0 } }
  | prleNext (s) (hn : s.prle.next ≠ s.prle.totp) :
      Effect .prleNext s { s with prle := { s.prle with next := s.prle.next + 1 } }
  | dssOpen (s inst base len totd) (hi : inst.toNat < s.nBsr) (hr : s.hasRegion base.toNat len.toNat)
      (ha : 0 < totd.toNat → s.alphaData.count ≠ 0) :
      Effect (.dssOpen inst base len totd) s
        (State.setReader inst.toNat ⟨base, len, 0⟩ { s with dss :=
          ⟨inst.setWidth 4, totd, BitVec.ofNat 4 (bitsPerSymbol s.alphaData.count.toNat), s.alphaData.count, 0⟩ })
  | dssRestart (s r) (hr : s.bsr[s.dss.inst.toNat]? = some r) :
      Effect .dssRestart s (State.setReader s.dss.inst.toNat { r with cursor := 0 }
        { s with dss := { s.dss with produced := 0 } })
  | dssNext (s r) (hr : s.bsr[s.dss.inst.toNat]? = some r) (hn : s.dss.produced ≠ s.dss.totd)
      (hc : r.cursor.toNat + s.dss.bps.toNat ≤ 8 * r.len.toNat) :
      Effect .dssNext s (State.setReader s.dss.inst.toNat
        { r with cursor := BitVec.ofNat 35 (r.cursor.toNat + s.dss.bps.toNat) }
        { s with dss := { s.dss with produced := s.dss.produced + 1 } })
  | emit (s rule d) : Effect (.emit rule d) s { s with emitter := s.emitter.emitPulse d rule }
  | emitSym (s alpha idx a) (ha : alphaOf alpha = some a) (hi : idx.toNat < (s.alpha a).count.toNat) :
      Effect (.emitSym alpha idx) s
      { s.examine (s.alpha a).table idx.toNat with
        emitter := s.emitter.emitSymbol (s.alpha a).table s.mem idx.toNat }
  | silence (s ms) : Effect (.silence ms) s { s with emitter := s.emitter.silence ms }
  | decodeBlock (s base declLen) (h : s.blockError base.toNat declLen.toNat = none) :
      Effect (.decodeBlock base declLen) s (s.commitBlock base.toNat)

/-- How a command that answers ends. -/
inductive Ends (i : Instr) (s : State) : State → Prop where
  | raised (e : CmdError) (he : e.status ∈ statusesOf i) : Ends i s (s.raise e)
  | finished (he : .endOfStream ∈ statusesOf i) : Ends i s s.finishStream
  | completed (v : Word) (s' : State) (hs : Effect i s s') : Ends i s (s'.complete v)

/-- A read that is in memory goes on. -/
theorem State.reading_of_region (s : State) {base len : Nat} (h : s.hasRegion base len) (r : Result) :
    s.reading base len r = r := by
  simp [State.reading, h]

/-- A read that answers a next state was in memory, and went on to it. -/
theorem State.reading_next {s t : State} {base len : Nat} {r : Result} (h : s.reading base len r = .next t) :
    s.hasRegion base len ∧ r = .next t := by
  unfold State.reading at h
  split at h
  · exact ⟨‹_›, h⟩
  · cases h

theorem alphaOf_some {alpha : BitVec 8} {a : AlphaSel} (h : alphaOf alpha = some a) :
    alpha.toNat = a.bit.toNat := by
  unfold alphaOf at h
  split at h
  · cases h; subst_vars; rfl
  · split at h
    · cases h; subst_vars; rfl
    · cases h

theorem alphaOf_none {alpha : BitVec 8} : alphaOf alpha = none ↔ 1 < alpha.toNat := by
  constructor
  · intro h
    by_contra hn
    rcases (by omega : alpha.toNat = 0 ∨ alpha.toNat = 1) with h0 | h0
    · rw [show alpha = 0 from BitVec.eq_of_toNat_eq h0] at h; cases h
    · rw [show alpha = 1 from BitVec.eq_of_toNat_eq h0] at h; cases h
  · intro h
    have h0 : alpha ≠ 0 := by rintro rfl; exact absurd h (by decide)
    have h1 : alpha ≠ 1 := by rintro rfl; exact absurd h (by decide)
    rw [alphaOf, if_neg h0, if_neg h1]

theorem alphaOf_bit {alpha : BitVec 8} {a : AlphaSel} (h : alpha.toNat = a.bit.toNat) : alphaOf alpha = some a := by
  cases a
  · rw [show alpha = 0 from BitVec.eq_of_toNat_eq h]; rfl
  · rw [show alpha = 1 from BitVec.eq_of_toNat_eq h]; rfl

theorem firstError_status {f : Nat → Option CmdError} {n : Nat} {e : CmdError} {st : Status}
    (hf : ∀ k e, f k = some e → e.status = st) (h : firstError f n = some e) : e.status = st := by
  obtain ⟨k, _, hk⟩ := List.exists_of_findSome?_eq_some h
  exact hf k e hk

theorem blockError_status {s : State} {base declLen : Nat} {e : CmdError} (h : s.blockError base declLen = some e) :
    e.status ∈ [Status.badRegion, .truncatedStream, .invalidAlphabetSize, .structuralError, .invalidSymbolReference] := by
  unfold State.blockError Header.check at h
  split at h
  · cases h; simp [CmdError.status]
  split at h
  · cases h; simp [CmdError.status]
  split at h
  · cases h; simp [CmdError.status]
  split at h
  · cases h; simp [CmdError.status]
  split at h
  · cases h; simp [CmdError.status]
  split at h
  · cases h; simp [CmdError.status]
  split at h
  · cases h
    rw [firstError_status (st := .invalidSymbolReference) _ ‹_›]
    · simp
    · intro k e hk
      unfold Header.entryError at hk
      split at hk <;> cases hk
      rfl
  · rw [firstError_status (st := .invalidSymbolReference) _ h]
    · simp
    · intro k e hk
      unfold Header.indexError at hk
      split at hk <;> cases hk
      rfl

/-- Every command that answers raised one of its errors, ended its stream, or completed with its effect. -/
theorem exec_cases {i : Instr} {s t : State} (h : exec i s = .next t) : Ends i s t := by
  cases i with
  | nop => cases h; exact .completed _ _ (.nop s)
  | lvlSet l => cases h; exact .completed _ _ (.lvlSet l s)
  | regRead n =>
    simp only [exec, execRegRead] at h
    split at h <;> cases h
    · exact .raised _ (by simp [statusesOf, CmdError.status])
    · exact .completed _ _ (.regRead n s)
  | cfgWrite b =>
    simp only [exec, execCfgWrite] at h
    split at h <;> cases h
    · exact .raised _ (by simp [statusesOf, CmdError.status])
    · exact .completed _ _ (.cfgWrite b s)
  | warnClear => cases h; exact .completed _ _ (.warnClear s)
  | cntClear => cases h; exact .completed _ _ (.cntClear s)
  | bsrOpen inst base len =>
    simp only [exec, execBsrOpen] at h
    split at h
    · cases h; exact .raised _ (by simp [statusesOf, CmdError.status])
    split at h <;> cases h
    · exact .raised _ (by simp [statusesOf, CmdError.status])
    · exact .completed _ _ (.bsrOpen s inst base len (by omega) (not_not.mp ‹_›))
  | bsrRestart inst =>
    simp only [exec, execBsrRestart] at h
    split at h <;> cases h
    · exact .raised _ (by simp [statusesOf, CmdError.status])
    · exact .completed _ _ (.bsrRestart s inst _ ‹_›)
  | bsrRead inst width =>
    simp only [exec, execBsrRead] at h
    split at h
    · cases h; exact .raised _ (by simp [statusesOf, CmdError.status])
    split at h
    · cases h; exact .raised _ (by simp [statusesOf, CmdError.status])
    split at h
    · cases h; exact .raised _ (by simp [statusesOf, CmdError.status])
    obtain ⟨_, h⟩ := State.reading_next h
    cases h
    exact .completed _ _ (.bsrRead s inst width _ ‹_› (by omega) (by omega))
  | alphaBind alpha count maxp base len =>
    simp only [exec, execAlphaBind] at h
    split at h
    · cases h; exact .raised _ (by simp [statusesOf, CmdError.status])
    split at h
    · cases h; exact .raised _ (by simp [statusesOf, CmdError.status])
    split at h <;> cases h
    · exact .raised _ (by simp [statusesOf, CmdError.status])
    · exact .completed _ _ (.alphaBind s alpha count maxp base len _ ‹_› (not_not.mp ‹_›) (by omega))
  | symGet alpha idx =>
    simp only [exec, execSymGet] at h
    split at h
    · cases h; exact .raised _ (by simp [statusesOf, CmdError.status])
    split at h
    · cases h; exact .raised _ (by simp [statusesOf, CmdError.status])
    split at h
    · cases h; exact .raised _ (by simp [statusesOf, CmdError.status])
    obtain ⟨_, h⟩ := State.reading_next h
    cases h
    exact .completed _ _ (.symGet s alpha idx _ ‹_› (Nat.lt_of_not_le ‹_›))
  | symDur alpha idx slot =>
    simp only [exec, execSymDur] at h
    split at h
    · cases h; exact .raised _ (by simp [statusesOf, CmdError.status])
    split at h
    · cases h; exact .raised _ (by simp [statusesOf, CmdError.status])
    split at h
    · cases h; exact .raised _ (by simp [statusesOf, CmdError.status])
    split at h
    · cases h; exact .raised _ (by simp [statusesOf, CmdError.status])
    obtain ⟨_, h⟩ := State.reading_next h
    cases h
    exact .completed _ _ (.symDur s alpha idx slot)
  | prleOpen base len totp =>
    simp only [exec, execPrleOpen] at h
    split at h
    · cases h; exact .raised _ (by simp [statusesOf, CmdError.status])
    split at h
    · cases h; exact .raised _ (by simp [statusesOf, CmdError.status])
    split at h <;> cases h
    · exact .raised _ (by simp [statusesOf, CmdError.status])
    · exact .completed _ _ (.prleOpen s base len totp (not_not.mp ‹_›) (by tauto) (by omega))
  | prleRestart => cases h; exact .completed _ _ (.prleRestart s)
  | prleNext =>
    simp only [exec, execPrleNext] at h
    split at h
    · cases h; exact .finished (by simp [statusesOf])
    obtain ⟨_, h⟩ := State.reading_next h
    split at h <;> cases h
    · exact .raised _ (by simp [statusesOf, CmdError.status])
    · exact .completed _ _ (.prleNext s ‹_›)
  | dssOpen inst base len totd =>
    simp only [exec, execDssOpen] at h
    split at h
    · cases h; exact .raised _ (by simp [statusesOf, CmdError.status])
    split at h
    · cases h; exact .raised _ (by simp [statusesOf, CmdError.status])
    split at h
    · cases h; exact .raised _ (by simp [statusesOf, CmdError.status])
    split at h <;> cases h
    · exact .raised _ (by simp [statusesOf, CmdError.status])
    · exact .completed _ _ (.dssOpen s inst base len totd (by omega) (not_not.mp ‹_›) (by tauto))
  | dssRestart =>
    simp only [exec, execDssRestart] at h
    split at h <;> cases h
    exact .completed _ _ (.dssRestart s _ ‹_›)
  | dssNext =>
    simp only [exec, execDssNext] at h
    split at h
    · cases h; exact .finished (by simp [statusesOf])
    split at h
    · cases h
    split at h
    · cases h; exact .raised _ (by simp [statusesOf, CmdError.status])
    obtain ⟨_, h⟩ := State.reading_next h
    split at h <;> cases h
    · exact .raised _ (by simp [statusesOf, CmdError.status])
    · exact .completed _ _ (.dssNext s _ ‹_› ‹_› (by omega))
  | emit rule d => cases h; exact .completed _ _ (.emit s rule d)
  | emitSym alpha idx =>
    simp only [exec, execEmitSym] at h
    split at h
    · cases h; exact .raised _ (by simp [statusesOf, CmdError.status])
    split at h
    · cases h; exact .raised _ (by simp [statusesOf, CmdError.status])
    split at h
    · cases h; exact .raised _ (by simp [statusesOf, CmdError.status])
    obtain ⟨_, h⟩ := State.reading_next h
    cases h
    exact .completed _ _ (.emitSym s alpha idx _ ‹_› (Nat.lt_of_not_le ‹_›))
  | silence ms => cases h; exact .completed _ _ (.silence s ms)
  | decodeBlock base declLen =>
    simp only [exec, execDecodeBlock] at h
    split at h <;> cases h
    · have := blockError_status ‹_›
      exact .raised _ (by simp only [statusesOf]; exact List.mem_cons_of_mem _ this)
    · exact .completed _ _ (.decodeBlock s base declLen ‹_›)

/-- Running two sequences of commands is running the second after the first. -/
theorem runCommands_append (is js : List Instr) (s : State) :
    runCommands (is ++ js) s =
      match runCommands is s with
      | .next t => runCommands js t
      | .fault r => .fault r
      | .refused r => .refused r := by
  induction is generalizing s with
  | nil => rfl
  | cons i is ih =>
    simp only [List.cons_append, runCommands]
    cases exec i s <;> simp [ih]

/-- A frame that spells no command is rejected, and the host's event is taken (R72). -/
theorem step_of_reject {s : State} {f : Frame} {rest : List HostEvent} {r : Reject}
    (hs : s.port = .command f :: rest) (hf : decode f = .error r) :
    step s = .next (State.rejectFrame r { s with port := rest }) := by
  simp only [step, State.takeEvent, hs, hf]

/-- A row's reserved bits are refused when its decoding rejects every frame of its OP whose fields do not match `m`. -/
theorem reservedBitsRefused_of {op : BitVec 8} {mask : Frame} (m : Fields) (hm : mask = m.toFrame) (ho : m.op = 0xFF)
    (hd : ∀ a b c d e, decodeFields ⟨op, a, b, c, d, e⟩ = .error (.reservedBits op) ∨
      (a &&& m.a = 0 ∧ b &&& m.b = 0 ∧ c &&& m.c = 0 ∧ d &&& m.d = 0 ∧ e &&& m.e = 0)) :
    ReservedBitsRefused op mask := by
  rintro s f rest hs rfl hf
  have hop : (Fields.ofFrame f).op &&& m.op = f.extractLsb' 120 8 := by rw [ho]; exact BitVec.and_allOnes
  obtain hdec | h := hd (Fields.ofFrame f).a (Fields.ofFrame f).b (Fields.ofFrame f).c (Fields.ofFrame f).d
    (Fields.ofFrame f).e
  · rw [step_of_reject hs (show decode f = _ from hdec)]
    simp only [State.rejectFrame, State.raise, State.respond, State.failed, CmdError.status, Reject.op,
      info_illegalCommand, IllegalCause.bit]
    congr 2
    apply BitVec.eq_of_toNat_eq
    simp
  · refine absurd ?_ hf
    obtain ⟨ha, hb, hc, hd, he⟩ := h
    rw [append_zero_eq_toFrame, hm]
    conv_lhs => rw [← Fields.toFrame_ofFrame f, Fields.toFrame_and]
    rw [hop, ha, hb, hc, hd, he]

end Sys2Proof.Machine
end

