-- ==== Sys2Proof/Laws/PerInstr.lean ====
section
/-! SUPPORT. Per command: the frame the encoder writes matches the command's row of the opcode table, so its reserved bits
are zero (R72, R74). -/

namespace Sys2Proof.Laws.MatchesRow

/-- The frame of the command matches a row of the opcode table with the command's mnemonic. -/
def Statement (i : Instr) : Prop := ∃ r ∈ opcodeTable, r.mnemonic = i.mnemonic ∧ r.Matches (encode i)

/-- A frame matches a row when its fields match the fields of the row's mask `m` and pattern, whose
operand fields are 0. -/
theorem of_fields (i : Instr) (r : OpcodeRow) (m : Fields) (op : BitVec 8) (hr : r ∈ opcodeTable)
    (hn : r.mnemonic = i.mnemonic) (hi : i.opcode = op) (hm : r.mask = m.toFrame)
    (hp : r.pattern = Fields.toFrame ⟨op, 0, 0, 0, 0, 0⟩) (ho : m.op = 0xFF)
    (ha : (encodeFields i).a &&& m.a = 0) (hb : (encodeFields i).b &&& m.b = 0) (hc : (encodeFields i).c &&& m.c = 0)
    (hd : (encodeFields i).d &&& m.d = 0) (he : (encodeFields i).e &&& m.e = 0) : Statement i := by
  subst hi
  have hop : (encodeFields i).op &&& m.op = i.opcode := by
    rw [ho]; exact (by decide : ∀ x : BitVec 8, x &&& 0xFF = x) _
  refine ⟨r, hr, hn, ?_⟩
  have := (OpcodeRow.matches_iff r.mnemonic (encodeFields i) m ⟨i.opcode, 0, 0, 0, 0, 0⟩).2 ⟨hop, ha, hb, hc, hd, he⟩
  rwa [← hm, ← hp] at this

/-- An operand in the low byte of B leaves the high byte zero. -/
theorem low_byte (x : BitVec 8) : (0#8 ++ x) &&& 0xFF00#16 = 0#16 := by
  revert x; decide

/-- A polarity rule leaves bits 7:2 of A zero. -/
theorem rule_bits (rule : PolRule) : (0#6 ++ rule.bits) &&& 0xFC#8 = 0#8 := by
  cases rule <;> decide

theorem nop : Statement .nop := ⟨opcodeTable[0], by decide, rfl, by decide⟩

theorem lvlSet (level : Level) : Statement (.lvlSet level) :=
  ⟨opcodeTable[1], by decide, rfl, by cases level <;> decide⟩

theorem regRead (reg : BitVec 16) : Statement (.regRead reg) :=
  of_fields _ opcodeTable[2] ⟨0xFF, 0xFF, 0, 0xFFFFFFFF, 0xFFFFFFFF, 0xFFFFFFFF⟩ 0x02
    (by decide) rfl rfl (by decide) (by decide) rfl
    BitVec.zero_and BitVec.and_zero BitVec.zero_and BitVec.zero_and BitVec.zero_and

theorem cfgWrite (prleFormat : BitVec 1) : Statement (.cfgWrite prleFormat) :=
  ⟨opcodeTable[3], by decide, rfl, by revert prleFormat; decide⟩

theorem warnClear : Statement .warnClear := ⟨opcodeTable[4], by decide, rfl, by decide⟩

theorem cntClear : Statement .cntClear := ⟨opcodeTable[5], by decide, rfl, by decide⟩

theorem bsrOpen (inst : BitVec 8) (base len : BitVec 32) : Statement (.bsrOpen inst base len) :=
  of_fields _ opcodeTable[6] ⟨0xFF, 0, 0xFFFF, 0, 0, 0xFFFFFFFF⟩ 0x10
    (by decide) rfl rfl (by decide) (by decide) rfl
    BitVec.and_zero BitVec.zero_and BitVec.and_zero BitVec.and_zero BitVec.zero_and

theorem bsrRestart (inst : BitVec 8) : Statement (.bsrRestart inst) :=
  of_fields _ opcodeTable[7] ⟨0xFF, 0, 0xFFFF, 0xFFFFFFFF, 0xFFFFFFFF, 0xFFFFFFFF⟩ 0x11
    (by decide) rfl rfl (by decide) (by decide) rfl
    BitVec.and_zero BitVec.zero_and BitVec.zero_and BitVec.zero_and BitVec.zero_and

theorem bsrRead (inst : BitVec 8) (width : BitVec 16) : Statement (.bsrRead inst width) :=
  of_fields _ opcodeTable[8] ⟨0xFF, 0, 0, 0xFFFFFFFF, 0xFFFFFFFF, 0xFFFFFFFF⟩ 0x12
    (by decide) rfl rfl (by decide) (by decide) rfl
    BitVec.and_zero BitVec.and_zero BitVec.zero_and BitVec.zero_and BitVec.zero_and

theorem alphaBind (alpha count maxp : BitVec 8) (base len : BitVec 32) :
    Statement (.alphaBind alpha count maxp base len) :=
  of_fields _ opcodeTable[9] ⟨0xFF, 0, 0, 0, 0, 0xFFFFFFFF⟩ 0x20
    (by decide) rfl rfl (by decide) (by decide) rfl
    BitVec.and_zero BitVec.and_zero BitVec.and_zero BitVec.and_zero BitVec.zero_and

theorem symGet (alpha idx : BitVec 8) : Statement (.symGet alpha idx) :=
  of_fields _ opcodeTable[10] ⟨0xFF, 0, 0xFF00, 0xFFFFFFFF, 0xFFFFFFFF, 0xFFFFFFFF⟩ 0x21
    (by decide) rfl rfl (by decide) (by decide) rfl
    BitVec.and_zero (low_byte idx) BitVec.zero_and BitVec.zero_and BitVec.zero_and

theorem symDur (alpha idx slot : BitVec 8) : Statement (.symDur alpha idx slot) :=
  of_fields _ opcodeTable[11] ⟨0xFF, 0, 0, 0xFFFFFFFF, 0xFFFFFFFF, 0xFFFFFFFF⟩ 0x22
    (by decide) rfl rfl (by decide) (by decide) rfl
    BitVec.and_zero BitVec.and_zero BitVec.zero_and BitVec.zero_and BitVec.zero_and

theorem prleOpen (base len totp : BitVec 32) : Statement (.prleOpen base len totp) :=
  of_fields _ opcodeTable[12] ⟨0xFF, 0xFF, 0xFFFF, 0, 0, 0⟩ 0x30
    (by decide) rfl rfl (by decide) (by decide) rfl
    BitVec.zero_and BitVec.zero_and BitVec.and_zero BitVec.and_zero BitVec.and_zero

theorem prleRestart : Statement .prleRestart := ⟨opcodeTable[13], by decide, rfl, by decide⟩

theorem prleNext : Statement .prleNext := ⟨opcodeTable[14], by decide, rfl, by decide⟩

theorem dssOpen (inst : BitVec 8) (base len totd : BitVec 32) : Statement (.dssOpen inst base len totd) :=
  of_fields _ opcodeTable[15] ⟨0xFF, 0, 0xFFFF, 0, 0, 0⟩ 0x40
    (by decide) rfl rfl (by decide) (by decide) rfl
    BitVec.and_zero BitVec.zero_and BitVec.and_zero BitVec.and_zero BitVec.and_zero

theorem dssRestart : Statement .dssRestart := ⟨opcodeTable[16], by decide, rfl, by decide⟩

theorem dssNext : Statement .dssNext := ⟨opcodeTable[17], by decide, rfl, by decide⟩

theorem emit (rule : PolRule) (duration : BitVec 16) : Statement (.emit rule duration) :=
  of_fields _ opcodeTable[18] ⟨0xFF, 0xFC, 0, 0xFFFFFFFF, 0xFFFFFFFF, 0xFFFFFFFF⟩ 0x50
    (by decide) rfl rfl (by decide) (by decide) rfl
    (rule_bits rule) BitVec.and_zero BitVec.zero_and BitVec.zero_and BitVec.zero_and

theorem emitSym (alpha idx : BitVec 8) : Statement (.emitSym alpha idx) :=
  of_fields _ opcodeTable[19] ⟨0xFF, 0, 0xFF00, 0xFFFFFFFF, 0xFFFFFFFF, 0xFFFFFFFF⟩ 0x51
    (by decide) rfl rfl (by decide) (by decide) rfl
    BitVec.and_zero (low_byte idx) BitVec.zero_and BitVec.zero_and BitVec.zero_and

theorem silence (ms : BitVec 16) : Statement (.silence ms) :=
  of_fields _ opcodeTable[20] ⟨0xFF, 0xFF, 0, 0xFFFFFFFF, 0xFFFFFFFF, 0xFFFFFFFF⟩ 0x52
    (by decide) rfl rfl (by decide) (by decide) rfl
    BitVec.zero_and BitVec.and_zero BitVec.zero_and BitVec.zero_and BitVec.zero_and

theorem decodeBlock (base declLen : BitVec 32) : Statement (.decodeBlock base declLen) :=
  of_fields _ opcodeTable[21] ⟨0xFF, 0xFF, 0xFFFF, 0, 0, 0xFFFFFFFF⟩ 0x60
    (by decide) rfl rfl (by decide) (by decide) rfl
    BitVec.zero_and BitVec.zero_and BitVec.and_zero BitVec.and_zero BitVec.zero_and

end Sys2Proof.Laws.MatchesRow
end

