-- ==== Sys2Proof/Machine/Assembler.lean ====
section
/-! DEFINITION. The assembler notation of spec/30_encoding.md R76 and its pseudo-instructions (R77): from the characters
of a line to a command. PDEC itself sees only the frame of the expansion. -/

namespace Sys2Proof.Machine

/-- The characters between occurrences of `sep`. -/
def splitAtChar (sep : Char) : List Char → List (List Char)
  | [] => [[]]
  | c :: cs =>
    if c = sep then [] :: splitAtChar sep cs
    else match splitAtChar sep cs with
      | [] => [[c]]
      | w :: ws => (c :: w) :: ws

def isBlank (c : Char) : Bool := c = ' ' || c = '\t'

def trimBlanks (w : List Char) : List Char :=
  ((w.dropWhile isBlank).reverse.dropWhile isBlank).reverse

/-- The digits of the notation in order of value: decimal digits, then the letters of hexadecimal. -/
def digitRow (letters : String) : List Char := "0123456789".toList ++ letters.toList

/-- The value of a digit: its place in the row of digits, with either case of the letters. -/
def digitValue (c : Char) : Option Nat :=
  match (digitRow "ABCDEF").idxOf? c with
  | some place => some place
  | none => (digitRow "abcdef").idxOf? c

/-- The value of a string of digits of one base, continuing from `acc`. -/
def digitsValue (base : Nat) : List Char → Nat → Option Nat
  | [], acc => some acc
  | c :: cs, acc =>
    match digitValue c with
    | some d => if d < base then digitsValue base cs (base * acc + d) else none
    | none => none

/-- "numbers in decimal or `0x` hexadecimal" (R76). -/
def numberOf : List Char → Option Nat
  | [] => none
  | '0' :: 'x' :: c :: cs => digitsValue 16 (c :: cs) 0
  | c :: cs => digitsValue 10 (c :: cs) 0

/-- A number that fits a field of `w` bits. -/
def fieldOf (w : Nat) (word : List Char) : Option (BitVec w) :=
  match numberOf word with
  | some n => if n < 2 ^ w then some (BitVec.ofNat w n) else none
  | none => none

/-- "a level written `LOW` or `HIGH`" (R76). -/
def levelOf (word : List Char) : Option Level :=
  if word = "LOW".toList then some .low
  else if word = "HIGH".toList then some .high
  else none

/-- "the polarity operand of EMIT written `TOGGLE`, `KEEP`, `FORCE_LOW` or `FORCE_HIGH`" (R76). -/
def ruleOf (word : List Char) : Option PolRule :=
  if word = "TOGGLE".toList then some .toggle
  else if word = "KEEP".toList then some .keep
  else if word = "FORCE_LOW".toList then some .forceLow
  else if word = "FORCE_HIGH".toList then some .forceHigh
  else none

/-- "the alphabet written `PILOT` (0) or `DATA` (1) or as a number" (R76). -/
def alphabetField (word : List Char) : Option (BitVec 8) :=
  if word = "PILOT".toList then some 0
  else if word = "DATA".toList then some 1
  else fieldOf 8 word

/-- A command without operands. -/
def noOperand (i : Instr) : List (List Char) → Option Instr
  | [] => some i
  | _ => none

/-- One command from its mnemonic and operands, in the order A, B (`B[7:0]` before `B[15:8]`), C, D, E, omitting
reserved fields (R76); the last four rows are the pseudo-instructions (R77). -/
def assembleWords (mnemonic : List Char) (operands : List (List Char)) : Option Instr :=
  if mnemonic = "NOP".toList then noOperand .nop operands
  else if mnemonic = "LVL_SET".toList then
    match operands with
    | [l] => do some (.lvlSet (← levelOf l))
    | _ => none
  else if mnemonic = "REG_READ".toList then
    match operands with
    | [n] => do some (.regRead (← fieldOf 16 n))
    | _ => none
  else if mnemonic = "CFG_WRITE".toList then
    match operands with
    | [f] => do some (.cfgWrite (← fieldOf 1 f))
    | _ => none
  else if mnemonic = "WARN_CLEAR".toList then noOperand .warnClear operands
  else if mnemonic = "CNT_CLEAR".toList then noOperand .cntClear operands
  else if mnemonic = "BSR_OPEN".toList then
    match operands with
    | [i, base, len] => do some (.bsrOpen (← fieldOf 8 i) (← fieldOf 32 base) (← fieldOf 32 len))
    | _ => none
  else if mnemonic = "BSR_RESTART".toList then
    match operands with
    | [i] => do some (.bsrRestart (← fieldOf 8 i))
    | _ => none
  else if mnemonic = "BSR_READ".toList then
    match operands with
    | [i, w] => do some (.bsrRead (← fieldOf 8 i) (← fieldOf 16 w))
    | _ => none
  else if mnemonic = "ALPHA_BIND".toList then
    match operands with
    | [a, count, maxp, base, len] => do
      some (.alphaBind (← alphabetField a) (← fieldOf 8 count) (← fieldOf 8 maxp) (← fieldOf 32 base) (← fieldOf 32 len))
    | _ => none
  else if mnemonic = "SYM_GET".toList then
    match operands with
    | [a, idx] => do some (.symGet (← alphabetField a) (← fieldOf 8 idx))
    | _ => none
  else if mnemonic = "SYM_DUR".toList then
    match operands with
    | [a, idx, slot] => do some (.symDur (← alphabetField a) (← fieldOf 8 idx) (← fieldOf 8 slot))
    | _ => none
  else if mnemonic = "PRLE_OPEN".toList then
    match operands with
    | [base, len, totp] => do some (.prleOpen (← fieldOf 32 base) (← fieldOf 32 len) (← fieldOf 32 totp))
    | _ => none
  else if mnemonic = "PRLE_RESTART".toList then noOperand .prleRestart operands
  else if mnemonic = "PRLE_NEXT".toList then noOperand .prleNext operands
  else if mnemonic = "DSS_OPEN".toList then
    match operands with
    | [i, base, len, totd] => do
      some (.dssOpen (← fieldOf 8 i) (← fieldOf 32 base) (← fieldOf 32 len) (← fieldOf 32 totd))
    | _ => none
  else if mnemonic = "DSS_RESTART".toList then noOperand .dssRestart operands
  else if mnemonic = "DSS_NEXT".toList then noOperand .dssNext operands
  else if mnemonic = "EMIT".toList then
    match operands with
    | [r, d] => do some (.emit (← ruleOf r) (← fieldOf 16 d))
    | _ => none
  else if mnemonic = "EMIT_SYM".toList then
    match operands with
    | [a, idx] => do some (.emitSym (← alphabetField a) (← fieldOf 8 idx))
    | _ => none
  else if mnemonic = "SILENCE".toList then
    match operands with
    | [ms] => do some (.silence (← fieldOf 16 ms))
    | _ => none
  else if mnemonic = "DECODE_BLOCK".toList then
    match operands with
    | [base, declLen] => do some (.decodeBlock (← fieldOf 32 base) (← fieldOf 32 declLen))
    | _ => none
  else if mnemonic = "LVL_GET".toList then noOperand (.regRead 0x000) operands
  else if mnemonic = "STATUS_GET".toList then noOperand (.regRead 0x001) operands
  else if mnemonic = "ERR_GET".toList then noOperand (.regRead 0x002) operands
  else if mnemonic = "COUNT_GET".toList then noOperand (.regRead 0x005) operands
  else none

/-- The operands of a line: none, or the words between commas. -/
def operandWords (rest : List Char) : List (List Char) :=
  if trimBlanks rest = [] then [] else (splitAtChar ',' rest).map trimBlanks

/-- One line of assembler (R76): "`;` begins a comment". -/
def assemble (line : List Char) : Option Instr :=
  let text := trimBlanks (line.takeWhile fun c => c ≠ ';')
  assembleWords (text.takeWhile fun c => ! isBlank c) (operandWords (text.dropWhile fun c => ! isBlank c))

end Sys2Proof.Machine
end

