-- ==== Sys2Proof/Tests/Slice0.lean ====
section
/-! SUPPORT. Tests. Expected values are those of spec/95_test_vectors.md (its section in each docstring), or of the rule
named. Below them, the witnesses: for each statement with hypotheses, a concrete state and operands that meet them, a
witness per clause at a boundary value. -/

namespace Sys2Proof.Tests

open Sys2Proof Sys2Proof.Machine

/-! ## Helpers -/

/-- Bytes written from an address on. -/
def bytesAt (a : Nat) : List Byte → Memory
  | [] => []
  | v :: vs => (a, v) :: bytesAt (a + 1) vs

/-- The state after reset with a memory image: MEM_SIZE 0x10000 and N_BSR 2, as the vectors have. -/
def fresh (m : Memory) : State := State.resetWith { nBsr := 2, memSize := 0x10000 } m

/-- A fresh state at level HIGH. -/
def freshHigh (m : Memory) : State :=
  { fresh m with emitter := { level := .high, pulseCount := 0, parity := 0, totalDur := 0, out := [] } }

/-- What `f` reads of the next state, if there is one. -/
def after {α : Type} (r : Result) (f : State → α) : Option α :=
  match r with
  | .next t => some (f t)
  | .fault _ => none
  | .refused _ => none

/-- The response of a command. -/
def answerOf (r : Result) : Option Response := (after r fun t => t.responses.getLast?).join

/-- The records a command appended to a fresh `OUT`. -/
def outOf (r : Result) : Option (List OutRecord) := after r fun t => t.emitter.out

def pulse (d : BitVec 32) (l : Level) : OutRecord := { kind := .pulse, duration := d, level := l }
def corrective (l : Level) : OutRecord := { kind := .corrective, duration := 0, level := l }
def pause (d : BitVec 32) (l : Level) : OutRecord := { kind := .pause, duration := d, level := l }

/-! ## WellFormed smoke: one ill-formed term for each check -/

theorem test_wellFormed_instance_refused :
    (Instr.bsrOpen 2 0 0).WellFormed 2 = false ∧ (Instr.bsrRestart 2).WellFormed 2 = false ∧
    (Instr.bsrRead 2 1).WellFormed 2 = false ∧ (Instr.dssOpen 2 0 0 0).WellFormed 2 = false := by decide

theorem test_wellFormed_width_refused :
    (Instr.bsrRead 0 0).WellFormed 2 = false ∧ (Instr.bsrRead 0 17).WellFormed 2 = false := by decide

theorem test_wellFormed_alphabet_refused :
    (Instr.alphaBind 2 0 0 0 0).WellFormed 2 = false ∧ (Instr.symGet 2 0).WellFormed 2 = false ∧
    (Instr.symDur 2 0 0).WellFormed 2 = false ∧ (Instr.emitSym 2 0).WellFormed 2 = false := by decide

theorem test_wellFormed_register_refused :
    (Instr.regRead 0x013).WellFormed 2 = false ∧ (Instr.regRead 0x103).WellFormed 2 = false ∧
    (Instr.regRead 0x108).WellFormed 2 = false := by decide

theorem test_wellFormed_accepts :
    (Instr.bsrOpen 1 0 0).WellFormed 2 = true ∧ (Instr.bsrRead 1 16).WellFormed 2 = true ∧
    (Instr.emitSym 1 0).WellFormed 2 = true ∧ (Instr.regRead 0x106).WellFormed 2 = true := by decide

/-! ## Decoding: a word of every command, written from R71, R73 and R74 (most stand in spec/95_test_vectors.md) -/

theorem test_decode_control :
    decode 0x00000000000000000000000000000000 = .ok .nop ∧
    decode 0x01010000000000000000000000000000 = .ok (.lvlSet .high) ∧
    decode 0x01000000000000000000000000000000 = .ok (.lvlSet .low) ∧
    decode 0x02000106000000000000000000000000 = .ok (.regRead 0x106) ∧
    decode 0x03010000000000000000000000000000 = .ok (.cfgWrite 1) ∧
    decode 0x04000000000000000000000000000000 = .ok .warnClear ∧
    decode 0x05000000000000000000000000000000 = .ok .cntClear := by decide

theorem test_decode_bitstream :
    decode 0x10010000000002000000000300000000 = .ok (.bsrOpen 1 0x200 3) ∧
    decode 0x11010000000000000000000000000000 = .ok (.bsrRestart 1) ∧
    decode 0x12010010000000000000000000000000 = .ok (.bsrRead 1 16) := by decide

theorem test_decode_alphabet :
    decode 0x20000102000001000000000600000000 = .ok (.alphaBind 0 2 1 0x100 6) ∧
    decode 0x21010002000000000000000000000000 = .ok (.symGet 1 2) ∧
    decode 0x22010201000000000000000000000000 = .ok (.symDur 1 1 2) := by decide

theorem test_decode_streams :
    decode 0x30000000000003000000000900000003 = .ok (.prleOpen 0x300 9 3) ∧
    decode 0x31000000000000000000000000000000 = .ok .prleRestart ∧
    decode 0x32000000000000000000000000000000 = .ok .prleNext ∧
    decode 0x40010000000004000000000100000003 = .ok (.dssOpen 1 0x400 1 3) ∧
    decode 0x41000000000000000000000000000000 = .ok .dssRestart ∧
    decode 0x42000000000000000000000000000000 = .ok .dssNext := by decide

theorem test_decode_emitter_and_block :
    decode 0x500301F4000000000000000000000000 = .ok (.emit .forceHigh 500) ∧
    decode 0x51010005000000000000000000000000 = .ok (.emitSym 1 5) ∧
    decode 0x52000A75000000000000000000000000 = .ok (.silence 2677) ∧
    decode 0x60000000000000140000001700000000 = .ok (.decodeBlock 0x14 23) := by decide

/-- Reserved bits and opcodes (2.1 rows 12, 17, 18; 2.2 row 13; 2.4 row 22; 2.6; 2.7). -/
theorem test_decode_rejects :
    decode 0x01020000000000000000000000000000 = .error (.reservedBits 0x01) ∧
    decode 0x06000000000000000000000000000000 = .error (.unknownOpcode 0x06) ∧
    decode 0x00000000000000000000000000000001 = .error (.reservedBits 0x00) ∧
    decode 0x21010100000000000000000000000000 = .error (.reservedBits 0x21) ∧
    decode 0x30010000000000000000000000000000 = .error (.reservedBits 0x30) ∧
    decode 0x50040001000000000000000000000000 = .error (.reservedBits 0x50) ∧
    decode 0x60010000000000000000001400000000 = .error (.reservedBits 0x60) := by decide

theorem test_decodeTableWord :
    decodeTableWord 128 0x52000A75000000000000000000000000 = some (.silence 2677) ∧
    decodeTableWord 128 0x06000000000000000000000000000000 = none := by decide

/-- The host's first step after reset runs the word it issued. -/
theorem test_withFetchWord_runs :
    answerOf (step (State.reset.withFetchWord 128 0x02000032000000000000000000000000)) = some ⟨.ok, 1⟩ := by decide

/-! ## Assembler notation (R76, R77) -/

theorem test_assemble_commands :
    assemble "DECODE_BLOCK 0x014, 23".toList = some (.decodeBlock 0x14 23) ∧
    assemble "EMIT FORCE_HIGH, 500".toList = some (.emit .forceHigh 500) ∧
    assemble "ALPHA_BIND PILOT, 2, 1, 0x100, 6".toList = some (.alphaBind 0 2 1 0x100 6) := by decide

/-- Hexadecimal digits in either case, and a letter in a decimal number (R76). -/
theorem test_numberOf :
    numberOf "0xaF".toList = some 175 ∧ numberOf "0x9c0".toList = some 2496 ∧ numberOf "1A".toList = none := by decide

/-! ## Control commands -/

/-- 2.1 row 1. -/
theorem test_nop : answerOf (exec .nop (fresh [])) = some ⟨.ok, 0⟩ := by decide

/-- 2.1 row 11: no record. -/
theorem test_lvlSet : after (exec (.lvlSet .high) (fresh [])) (fun t => (t.emitter.level, t.emitter.out)) =
    some (.high, []) := by decide

/-- 2.1 rows 3 and 5. -/
theorem test_regRead : answerOf (exec (.regRead 0x00C) (fresh [])) = some ⟨.ok, 0x10000⟩ ∧
    after (exec (.regRead 0x013) (fresh [])) (fun t => (t.lastStatus, t.errInfo)) = some (.illegalCommand, 0x102) := by
  decide

/-- 2.1 row 15. -/
theorem test_cfgWrite : after (exec (.cfgWrite 1) (fresh [])) (fun t => (t.lastStatus, t.errInfo, t.cfg)) =
    some (.unsupported, 0x003, 0) := by decide

/-- 2.2, second table, row 3. -/
theorem test_warnClear : after (exec .warnClear { fresh [] with warn := 3 }) (fun t => t.warn) = some 0 := by decide

/-- 2.1 counters: LEVEL stays HIGH. -/
theorem test_cntClear :
    after (exec .cntClear { fresh [] with emitter :=
        { level := .high, pulseCount := 3, parity := 1, totalDur := 300, out := [] } }) (fun t => t.emitter) =
      some { level := .high, pulseCount := 0, parity := 0, totalDur := 0, out := [] } := by decide

/-! ## Bit-stream reader: the bytes A5 3C 0F at 0x200 (2.3) -/

def readerAt (cursor : BitVec 35) : State :=
  { fresh (bytesAt 0x200 [0xA5, 0x3C, 0x0F]) with bsr := [⟨0x200, 2, cursor⟩, ⟨0x200, 3, 4⟩] }

/-- Rows 2 and 23. -/
theorem test_bsrOpen :
    after (exec (.bsrOpen 0 0x200 2) (fresh [])) (fun t => t.bsr) = some [⟨0x200, 2, 0⟩, ⟨0, 0, 0⟩] ∧
    after (exec (.bsrOpen 0 0xFFFF 2) (fresh [])) (fun t => (t.lastStatus, t.errInfo)) = some (.badRegion, 0x10001) := by
  decide

/-- Row 11. -/
theorem test_bsrRestart : after (exec (.bsrRestart 0) (readerAt 16)) (fun t => t.bsr) =
    some [⟨0x200, 2, 0⟩, ⟨0x200, 3, 4⟩] := by decide

/-- Rows 5 (a code that straddles two bytes) and 18 (three bytes). -/
theorem test_bsrRead_codes :
    after (exec (.bsrRead 0 3) (readerAt 6)) (fun t => (t.responses, t.bsr[0]?)) =
      some ([⟨.ok, 2⟩], some ⟨0x200, 2, 9⟩) ∧
    answerOf (exec (.bsrRead 1 16) (readerAt 6)) = some ⟨.ok, 0x53C0⟩ := by decide

/-- Row 8: no bit is consumed. -/
theorem test_bsrRead_truncated :
    after (exec (.bsrRead 0 3) (readerAt 15)) (fun t => (t.lastStatus, t.errInfo, t.bsr[0]?)) =
      some (.truncatedStream, 0x8000000000000012, some ⟨0x200, 2, 15⟩) := by decide

/-! ## Alphabets (2.2) -/

/-- Three symbols of three slots at 0x500. -/
def symbols : Memory := bytesAt 0x500 ([0x05, 0x64, 0x00, 0x00, 0x00, 0xC8, 0x00] ++
  [0x03, 0x64, 0x00, 0xC8, 0x00, 0x00, 0x00] ++ [0x02, 0x00, 0x00, 0x2C, 0x01, 0x00, 0x00])

def withPilot : State := { fresh symbols with alphaPilot := ⟨0x500, 3, 3⟩ }

/-- First table rows 2 and 3. -/
theorem test_alphaBind :
    after (exec (.alphaBind 1 2 2 0x100 10) (fresh [])) (fun t => t.alphaData) = some ⟨0x100, 2, 2⟩ ∧
    after (exec (.alphaBind 1 2 2 0x100 9) (fresh [])) (fun t => (t.lastStatus, t.errInfo)) =
      some (.truncatedStream, 0xA) := by decide

/-- Second table rows 2 and 5. -/
theorem test_symGet :
    after (exec (.symGet 0 0) withPilot) (fun t => (t.responses, t.warn)) = some ([⟨.ok, 0x010105⟩], 3) ∧
    after (exec (.symGet 0 2) withPilot) (fun t => (t.responses, t.warn)) = some ([⟨.ok, 0x020002⟩], 2) := by decide

/-- Second table row 6: a slot after the first zero. First table row 11: the slot error. -/
theorem test_symDur :
    answerOf (exec (.symDur 0 0 2) withPilot) = some ⟨.ok, 200⟩ ∧
    after (exec (.symDur 0 1 3) withPilot) (fun t => (t.lastStatus, t.errInfo)) = some (.outOfRange, 0x103) := by decide

/-! ## Streams (2.4, 2.5) -/

def prleState (next : BitVec 32) : State :=
  { fresh (bytesAt 0x300 [0x00, 0x03, 0x00, 0x01, 0xFF, 0xFF, 0x02, 0x00, 0x01]) with
    alphaPilot := ⟨0x100, 2, 1⟩, prle := ⟨0x300, 3, next, 2⟩ }

/-- 2.4 rows 5 and 4. -/
theorem test_prleOpen :
    after (exec (.prleOpen 0x300 9 3) (prleState 1)) (fun t => t.prle) = some ⟨0x300, 3, 0, 2⟩ ∧
    after (exec (.prleOpen 0x300 8 3) (prleState 1)) (fun t => (t.lastStatus, t.errInfo, t.prle.next)) =
      some (.truncatedStream, 9, 1) := by decide

/-- 2.4 row 12. -/
theorem test_prleRestart : after (exec .prleRestart (prleState 2)) (fun t => t.prle.next) = some 0 := by decide

/-- 2.4 rows 8 and 9. -/
theorem test_prleNext :
    answerOf (exec .prleNext (prleState 1)) = some ⟨.ok, 0xFFFF01⟩ ∧
    after (exec .prleNext (prleState 2)) (fun t => (t.lastStatus, t.errInfo, t.prle.next)) =
      some (.invalidSymbolReference, 0x20002, 2) := by decide

def dssState (produced : BitVec 32) (cursor : BitVec 35) : State :=
  { fresh (bytesAt 0x400 [0x1B]) with
    alphaData := ⟨0x100, 3, 1⟩, dss := ⟨0, 4, 2, 3, produced⟩, bsr := [⟨0x400, 1, cursor⟩, ⟨0, 0, 0⟩] }

/-- 2.5 rows 4 and 13. -/
theorem test_dssOpen :
    after (exec (.dssOpen 0 0x400 1 4) (dssState 3 6)) (fun t => (t.dss, t.bsr[0]?)) =
      some (⟨0, 4, 2, 3, 0⟩, some ⟨0x400, 1, 0⟩) ∧
    after (exec (.dssOpen 0 0x400 1 5) (dssState 3 6)) (fun t => (t.lastStatus, t.errInfo, t.dss.produced)) =
      some (.truncatedStream, 2, 3) := by decide

/-- R183. -/
theorem test_dssRestart : after (exec .dssRestart (dssState 3 6)) (fun t => (t.dss.produced, t.bsr[0]?)) =
    some (0, some ⟨0x400, 1, 0⟩) := by decide

/-- 2.5 rows 8 and 9. -/
theorem test_dssNext :
    after (exec .dssNext (dssState 2 4)) (fun t => (t.responses, t.dss.produced, t.bsr[0]?)) =
      some ([⟨.ok, 2⟩], 3, some ⟨0x400, 1, 6⟩) ∧
    after (exec .dssNext (dssState 3 6)) (fun t => (t.lastStatus, t.errInfo, t.dss.produced)) =
      some (.invalidSymbolReference, 0x30103, 3) := by decide

/-- 2.5, the bps row. -/
theorem test_bitsPerSymbol : [0, 1, 2, 3, 4, 5, 8, 9, 16, 17, 128, 129, 255].map bitsPerSymbol =
    [1, 1, 1, 2, 2, 3, 3, 4, 4, 5, 7, 8, 8] := by decide

/-! ## Emitter (2.6) -/

/-- The FORCE rows that change the level. -/
theorem test_emit_force :
    after (exec (.emit .forceLow 500) (freshHigh [])) (fun t => t.emitter) =
      some { level := .low, pulseCount := 1, parity := 1, totalDur := 500, out := [corrective .low, pulse 500 .low] } ∧
    after (exec (.emit .forceHigh 500) (fresh [])) (fun t => t.emitter) =
      some { level := .high, pulseCount := 1, parity := 1, totalDur := 500,
             out := [corrective .high, pulse 500 .high] } := by decide

/-- The TOGGLE and KEEP rows from HIGH. -/
theorem test_emit_toggle_keep :
    after (exec (.emit .toggle 500) (freshHigh [])) (fun t => (t.emitter.level, t.emitter.out)) =
      some (.low, [pulse 500 .high]) ∧
    after (exec (.emit .keep 500) (freshHigh [])) (fun t => (t.emitter.level, t.emitter.out)) =
      some (.high, [pulse 500 .high]) := by decide

/-- FORCE_HIGH [100, 200] at 0x600, row 1; TOGGLE, row 6. -/
theorem test_emitSym :
    outOf (exec (.emitSym 0 0) { fresh (bytesAt 0x600 [0x03, 0x64, 0x00, 0xC8, 0x00]) with
      alphaPilot := ⟨0x600, 1, 2⟩ }) = some [corrective .high, pulse 100 .high, pulse 200 .high] ∧
    outOf (exec (.emitSym 0 0) { fresh (bytesAt 0x600 [0x00, 0x64, 0x00, 0xC8, 0x00]) with
      alphaPilot := ⟨0x600, 1, 2⟩ }) = some [pulse 100 .low, pulse 200 .high] := by decide

/-- `SILENCE 65535` from both levels. -/
theorem test_silence :
    outOf (exec (.silence 65535) (freshHigh [])) = some [pause 1 .high, pause 65534 .low] ∧
    outOf (exec (.silence 65535) (fresh [])) = some [pause 65535 .low] := by decide

/-- The record words of section 0. -/
theorem test_record_words :
    [pulse 2168 .high, corrective .low, corrective .high, pause 1 .high, pause 2676 .low].map OutRecord.word =
      [0x0000000100000878, 0x0000000200000000, 0x0000000300000000, 0x0000000500000001, 0x0000000400000A74] := by decide

/-! ## Block decoder (1.1, 1.4, 2.7) -/

/-- Scenario A with the pilot entry (0, n). -/
def scenarioA (n : Byte) : Memory :=
  bytesAt 0 ([0, 0, 1, 0, 0, 0, 1, 1, 0, 0, 0, 0, 0, 0] ++ [0x00, 0x78, 0x08] ++ [0, n, 0])

set_option maxRecDepth 4000 in
/-- Scenario A. -/
theorem test_decodeBlock_scenarioA :
    after (exec (.decodeBlock 0 20) (fresh (scenarioA 3))) (fun t => (t.responses, t.emitter, t.blkPause, t.blkSize)) =
      some ([⟨.ok, 3⟩],
        { level := .high, pulseCount := 3, parity := 1, totalDur := 6504,
          out := [pulse 2168 .low, pulse 2168 .high, pulse 2168 .low] }, 0, 20) := by decide

/-- Scenario D: no pulse at all. -/
def scenarioD : Memory :=
  bytesAt 0 ([0, 0, 2, 0, 0, 0, 1, 1, 0, 0, 0, 0, 0, 0] ++ [0x00, 0x78, 0x08] ++ [0, 3, 0, 1, 1, 0])

set_option maxRecDepth 4000 in
theorem test_decodeBlock_scenarioD :
    after (exec (.decodeBlock 0 23) (fresh scenarioD)) (fun t => (t.lastStatus, t.errInfo, t.emitter)) =
      some (.invalidSymbolReference, 0x10001,
        { level := .low, pulseCount := 0, parity := 0, totalDur := 0, out := [] }) := by decide

/-! ## Witnesses -/

def offered (ev : HostEvent) : State := { fresh [] with port := [ev] }

theorem witness_StepRunsTheDecodedCommand :
    (offered (.command (encode (.decodeBlock 0 20)))).port = .command (encode (.decodeBlock 0 20)) :: [] ∧
    decode (encode (.decodeBlock 0 20)) = .ok (.decodeBlock 0 20) := by decide

theorem witness_FrameWithoutACommandIsIllegal :
    (offered (.command 1)).port = .command 1 :: [] ∧ ∀ r ∈ opcodeTable, ¬ r.Matches 1 := by decide

/-- An OP that no row has. -/
theorem witness_FrameWithoutACommandIsIllegal_opcode :
    ∀ r ∈ opcodeTable, ¬ r.Matches 0x61000000000000000000000000000000 := by decide

/-- The reserved-bit clauses: each row's OP with one reserved bit set (R74: bit 0, for a row without bit 0 a bit of A or
B). -/
theorem witness_ReservedBitsRefused :
    ((offered (.command 1)).port = .command 1 :: [] ∧ (1 : Frame).extractLsb' 120 8 = 0 ∧
      (1 : Frame) &&& 0xFFFFFFFFFFFFFFFFFFFFFFFFFFFFFFFF ≠ 0#8 ++ 0#120) ∧
    (∀ r ∈ opcodeTable, r.mask.getLsbD 0 = true →
      (r.pattern ||| 1).extractLsb' 120 8 = r.pattern.extractLsb' 120 8 ∧ (r.pattern ||| 1) &&& r.mask ≠ r.pattern) ∧
    ((0x30010000000000000000000000000000 : Frame) &&& 0xFFFFFFFF000000000000000000000000 ≠ 0x30#8 ++ 0#120) ∧
    ((0x40000100000000000000000000000000 : Frame) &&& 0xFF00FFFF000000000000000000000000 ≠ 0x40#8 ++ 0#120) := by
  decide

theorem witness_SymbolFieldsLieInTheRecord :
    (2 < withPilot.alphaPilot.count.toNat ∧ 2 < withPilot.alphaPilot.maxp.toNat) ∧
    (254 < (Alphabet.mk 0x500 255 0).count.toNat ∧ (Alphabet.mk 0x500 255 0).maxp = 0) := by decide

/-- A clause each: nothing pending; the last address; the first that does not exist. -/
theorem witness_IdleStepsAndHostWrites :
    (fresh []).port = [] ∧
    ((offered (.write 0xFFFF 7)).port = .write 0xFFFF 7 :: [] ∧
      (0xFFFF : BitVec 32).toNat < (offered (.write 0xFFFF 7)).memSize) ∧
    ((offered (.write 0x10000 7)).port = .write 0x10000 7 :: [] ∧
      (offered (.write 0x10000 7)).memSize ≤ (0x10000 : BitVec 32).toNat) := by decide

theorem witness_ResetEventRestoresEveryRegister : (offered .reset).port = .reset :: [] := by decide

/-- The smallest machine: instance 1 is its last, the widths are the ends of their range, the alphabets are both. -/
theorem witness_AfterResetStreamsAndAlphabetsAreEmpty :
    Params.Valid { nBsr := 2, memSize := 14 } ∧
    ((1 : BitVec 8).toNat < (Params.mk 2 14).nBsr ∧ 1 ≤ (1 : BitVec 16).toNat ∧ (1 : BitVec 16).toNat ≤ 16) ∧
    (1 ≤ (16 : BitVec 16).toNat ∧ (16 : BitVec 16).toNat ≤ 16) ∧
    (0 : BitVec 8).toNat ≤ 1 ∧ (1 : BitVec 8).toNat ≤ 1 := by decide

theorem witness_EncodeOfDecodeIsTheFrame :
    decode 0x20010202000001000000000A00000000 = .ok (.alphaBind 1 2 2 0x100 10) := by decide

theorem witness_DecoderAgreesWithTheOpcodeTable :
    opcodeTable[21] ∈ opcodeTable ∧ opcodeTable[21].Matches 0x60000000FFFFFFFFFFFFFFFF00000000 := by decide

/-- The largest machine, so that instance 15 and number 0x13E exist. -/
def largest : State := State.resetWith { nBsr := 16, memSize := 2 ^ 32 } []

theorem witness_RegisterReadsFollowTheMap :
    largest.nBsr ≤ 16 ∧ largest.bsr[15]? = some ⟨0, 0, 0⟩ ∧
    (∀ n : BitVec 16, n = 0x00D ∨ n = 0x013 ∨ n = 0x017 ∨ n = 0x024 ∨ n = 0x035 →
      (0x00C < n.toNat ∧ ¬ (0x010 ≤ n.toNat ∧ n.toNat ≤ 0x012) ∧ ¬ (0x014 ≤ n.toNat ∧ n.toNat ≤ 0x016) ∧
        ¬ (0x020 ≤ n.toNat ∧ n.toNat ≤ 0x023) ∧ ¬ (0x030 ≤ n.toNat ∧ n.toNat ≤ 0x034)) ∧
      ∀ i k, i < largest.nBsr → k < 3 → n.toNat ≠ 0x100 + 4 * i + k) := by
  refine ⟨by decide, by decide, fun n hn => ⟨?_, fun i k _ _ => ?_⟩⟩
  · rcases hn with rfl | rfl | rfl | rfl | rfl <;> decide
  · have : n.toNat < 0x100 := by rcases hn with rfl | rfl | rfl | rfl | rfl <;> decide
    omega

/-- The first number above the map, and the gap after an instance's three registers. -/
theorem witness_RegisterReadsFollowTheMap_unassigned :
    (∀ i k, i < largest.nBsr → k < 3 → (0x140 : BitVec 16).toNat ≠ 0x100 + 4 * i + k) ∧
    (∀ i k, i < largest.nBsr → k < 3 → (0x103 : BitVec 16).toNat ≠ 0x100 + 4 * i + k) := by
  have hn : largest.nBsr = 16 := by decide
  constructor
  · intro i k hi hk
    show (320 : Nat) ≠ _
    omega
  · intro i k hi hk
    show (259 : Nat) ≠ _
    omega

theorem witness_BsrOpenBindsTheInstance :
    (fresh []).nBsr ≤ (2 : BitVec 8).toNat ∧
    ((1 : BitVec 8).toNat < (fresh []).nBsr ∧ (fresh []).memSize < (0xFFFF : BitVec 32).toNat + (2 : BitVec 32).toNat) ∧
    (0xFFFF : BitVec 32).toNat + (1 : BitVec 32).toNat ≤ (fresh []).memSize := by decide

theorem witness_BsrRestartRewindsTheInstance :
    (readerAt 16).nBsr ≤ (2 : BitVec 8).toNat ∧ (readerAt 16).bsr[(1 : BitVec 8).toNat]? = some ⟨0x200, 3, 4⟩ := by
  decide

/-- The widths 0 and 17; one bit too many; the last bits. -/
theorem witness_BsrReadDeliversTheCode :
    (readerAt 0).nBsr ≤ (2 : BitVec 8).toNat ∧ (readerAt 0).bsr[(0 : BitVec 8).toNat]? = some ⟨0x200, 2, 0⟩ ∧
    ((0 : BitVec 16).toNat < 1 ∧ 16 < (17 : BitVec 16).toNat) ∧
    ((readerAt 1).bsr[(0 : BitVec 8).toNat]? = some ⟨0x200, 2, 1⟩ ∧ 1 ≤ (16 : BitVec 16).toNat ∧
      (16 : BitVec 16).toNat ≤ 16 ∧ 8 * (2 : BitVec 32).toNat < (1 : BitVec 35).toNat + (16 : BitVec 16).toNat) ∧
    ((0 : BitVec 35).toNat + (16 : BitVec 16).toNat ≤ 8 * (2 : BitVec 32).toNat ∧
      (0x200 : BitVec 32).toNat + (2 : BitVec 32).toNat ≤ (readerAt 0).memSize) := by decide

/-- R145's own bytes: widths that add to 16 from cursor 0 of A5 3C. -/
theorem witness_ReadsSplit :
    (readerAt 0).bsr[(0 : BitVec 8).toNat]? = some ⟨0x200, 2, 0⟩ ∧
    (0x200 : BitVec 32).toNat + (2 : BitVec 32).toNat ≤ (readerAt 0).memSize ∧
    1 ≤ (5 : BitVec 16).toNat ∧ 1 ≤ (11 : BitVec 16).toNat ∧ (5 : BitVec 16).toNat + (11 : BitVec 16).toNat ≤ 16 ∧
    (0 : BitVec 35).toNat + (5 : BitVec 16).toNat + (11 : BitVec 16).toNat ≤ 8 * (2 : BitVec 32).toNat := by decide

theorem witness_ReaderInstancesAreIndependent :
    (∃ t, exec (.bsrRead 0 3) (readerAt 6) = .next t) ∧ (1 : Nat) ≠ (0 : BitVec 8).toNat ∧
    (∃ t, exec (.bsrRead 0 3) { readerAt 6 with warn := 3 } = .next t) ∧
    (readerAt 6).bsr[(0 : BitVec 8).toNat]? = ({ readerAt 6 with warn := 3 } : State).bsr[(0 : BitVec 8).toNat]? ∧
    (∀ a, (readerAt 6).mem.byte a = ({ readerAt 6 with warn := 3 } : State).mem.byte a) :=
  ⟨⟨_, rfl⟩, by decide, ⟨_, rfl⟩, rfl, fun _ => rfl⟩

/-- Symbol 0 of `symbols` has active count 1 below MAXP 3. -/
theorem witness_ActiveCountIsTheFirstZeroSlot :
    let t : SymTable := { base := 0x500, count := 3, maxp := 3 }
    0 < t.activeCount symbols 0 ∧ t.activeCount symbols 0 < t.maxp := by decide

/-- The alphabets 0, 1 and 2; a region one byte too long; one byte too short; exact. -/
theorem witness_AlphaBindBindsTheAlphabet :
    1 < (2 : BitVec 8).toNat ∧
    ((1 : BitVec 8).toNat ≤ 1 ∧ (fresh []).memSize < (0xFFF7 : BitVec 32).toNat + (10 : BitVec 32).toNat) ∧
    ((0xFFF6 : BitVec 32).toNat + (9 : BitVec 32).toNat ≤ (fresh []).memSize ∧
      (9 : BitVec 32).toNat < (2 : BitVec 8).toNat * (1 + 2 * (2 : BitVec 8).toNat)) ∧
    ((0 : BitVec 8).toNat = 0 ∧ (1 : BitVec 8).toNat = 1 ∧
      (0xFFF6 : BitVec 32).toNat + (10 : BitVec 32).toNat ≤ (fresh []).memSize ∧
      (2 : BitVec 8).toNat * (1 + 2 * (2 : BitVec 8).toNat) ≤ (10 : BitVec 32).toNat) := by decide

/-- An empty alphabet; the first index and slot too high; the last. These are also the clauses of EMIT_SYM. -/
theorem witness_SymGetAnswersTheSymbol :
    1 < (2 : BitVec 8).toNat ∧ (0 : BitVec 8).toNat = AlphaSel.pilot.bit.toNat ∧
    (1 : BitVec 8).toNat = AlphaSel.data.bit.toNat ∧ ((fresh []).alpha .data).count = 0 ∧
    ((withPilot.alpha .pilot).count ≠ 0 ∧ (withPilot.alpha .pilot).count.toNat ≤ (3 : BitVec 8).toNat) ∧
    ((2 : BitVec 8).toNat < (withPilot.alpha .pilot).count.toNat ∧
      (withPilot.alpha .pilot).base.toNat +
        (withPilot.alpha .pilot).count.toNat * (1 + 2 * (withPilot.alpha .pilot).maxp.toNat) ≤ withPilot.memSize) := by
  decide

theorem witness_SymDurAnswersTheSlot :
    ((2 : BitVec 8).toNat < (withPilot.alpha .pilot).count.toNat ∧
      (withPilot.alpha .pilot).maxp.toNat ≤ (3 : BitVec 8).toNat) ∧
    ((2 : BitVec 8).toNat < (withPilot.alpha .pilot).maxp.toNat ∧
      (withPilot.alpha .pilot).base.toNat +
        (withPilot.alpha .pilot).count.toNat * (1 + 2 * (withPilot.alpha .pilot).maxp.toNat) ≤ withPilot.memSize) := by
  decide

theorem witness_PrleOpenBindsTheStream :
    (fresh []).memSize < (0xFFFF : BitVec 32).toNat + (2 : BitVec 32).toNat ∧
    ((0xFFFD : BitVec 32).toNat + (3 : BitVec 32).toNat ≤ (fresh []).memSize ∧ 0 < (1 : BitVec 32).toNat ∧
      (fresh []).alphaPilot.count = 0) ∧
    ((0 : BitVec 32).toNat = 0 ∧ withPilot.alphaPilot.count ≠ 0 ∧ (2 : BitVec 32).toNat < 3 * (1 : BitVec 32).toNat ∧
      3 * (1 : BitVec 32).toNat ≤ (3 : BitVec 32).toNat) := by decide

/-- The end of the stream, a bad entry, a good one. -/
theorem witness_PrleNextDeliversTheEntry :
    (prleState 3).prle.next = (prleState 3).prle.totp ∧
    ((prleState 2).prle.next ≠ (prleState 2).prle.totp ∧
      (prleState 2).prle.base.toNat + 3 * (prleState 2).prle.next.toNat + 3 ≤ (prleState 2).memSize ∧
      (prleState 2).prle.asp.toNat ≤ ((prleState 2).mem.byte (0x300 + 3 * 2)).toNat) ∧
    ((prleState 1).prle.next ≠ (prleState 1).prle.totp ∧
      ((prleState 1).mem.byte (0x300 + 3 * 1)).toNat < (prleState 1).prle.asp.toNat) := by decide

theorem witness_BadEntryErrorRepeats :
    (∃ t, exec .prleNext (prleState 2) = .next t ∧ t.lastStatus.isError = true) ∧
    (∃ t, exec .dssNext (dssState 3 6) = .next t ∧ t.lastStatus.isError = true) :=
  ⟨⟨_, rfl, rfl⟩, ⟨_, rfl, rfl⟩⟩

/-- The ends of the alphabet sizes. -/
theorem witness_BitsPerSymbolAndPayloadSize : (1 ≤ 1 ∧ 1 ≤ 255) ∧ (1 ≤ 255 ∧ 255 ≤ 255) := by decide

theorem witness_DssOpenBindsTheStream :
    (dssState 0 0).nBsr ≤ 16 ∧ (dssState 0 0).nBsr ≤ (2 : BitVec 8).toNat ∧
    ((1 : BitVec 8).toNat < (dssState 0 0).nBsr ∧
      (dssState 0 0).memSize < (0xFFFF : BitVec 32).toNat + (2 : BitVec 32).toNat) ∧
    ((0xFFFF : BitVec 32).toNat + (1 : BitVec 32).toNat ≤ (fresh []).memSize ∧ 0 < (1 : BitVec 32).toNat ∧
      (fresh []).alphaData.count = 0) ∧
    ((dssState 0 0).alphaData.count ≠ 0 ∧ (1 : BitVec 32).toNat < (2 * (5 : BitVec 32).toNat + 7) / 8 ∧
      bitsPerSymbol (dssState 0 0).alphaData.count.toNat = 2 ∧
      (2 * (4 : BitVec 32).toNat + 7) / 8 ≤ (1 : BitVec 32).toNat) := by decide

/-- The end of the stream; too few bits; an index out of range; the last index in range. -/
theorem witness_DssNextDeliversTheIndex :
    (dssState 4 8).dss.produced = (dssState 4 8).dss.totd ∧
    ((dssState 3 7).bsr[(dssState 3 7).dss.inst.toNat]? = some ⟨0x400, 1, 7⟩ ∧
      (dssState 3 7).dss.produced ≠ (dssState 3 7).dss.totd ∧
      8 * (1 : BitVec 32).toNat < (7 : BitVec 35).toNat + (dssState 3 7).dss.bps.toNat) ∧
    ((6 : BitVec 35).toNat + (dssState 3 6).dss.bps.toNat ≤ 8 * (1 : BitVec 32).toNat ∧
      (0x400 : BitVec 32).toNat + (1 : BitVec 32).toNat ≤ (dssState 3 6).memSize ∧
      (dssState 3 6).dss.asd.toNat ≤ (dssState 3 6).mem.code 0x400 6 2 ∧ (dssState 3 6).dss.bps.toNat ≤ 8) ∧
    (dssState 2 4).mem.code 0x400 4 2 < (dssState 2 4).dss.asd.toNat := by decide

theorem witness_DssStreamDeliversItsIndicesInOrder :
    let s := dssState 0 0
    s.bsr[s.dss.inst.toNat]? = some ⟨0x400, 1, 0⟩ ∧ s.dss.produced = 0 ∧
    (0x400 : BitVec 32).toNat + (1 : BitVec 32).toNat ≤ s.memSize ∧
    payloadBytes s.dss.bps.toNat s.dss.totd.toNat ≤ (1 : BitVec 32).toNat ∧ s.dss.bps.toNat ≤ 8 ∧
    3 ≤ s.dss.totd.toNat ∧
    (∀ k, k < 3 → (dataIndex s.mem 0x400 s.dss.bps.toNat k).toNat < s.dss.asd.toNat) := by decide

theorem witness_EmitFollowsThePolarityRule :
    (fresh []).emitter.level = .low ∧ (freshHigh []).emitter.level = .high := by decide

theorem witness_EmitSymEmitsTheActivePulses :
    1 < (2 : BitVec 8).toNat ∧ ((fresh []).alpha .pilot).count = 0 ∧
    (withPilot.alpha .pilot).count.toNat ≤ (3 : BitVec 8).toNat ∧
    ((2 : BitVec 8).toNat < (withPilot.alpha .pilot).count.toNat ∧
      0x500 + 3 * (1 + 2 * 3) ≤ withPilot.memSize) := by decide

theorem witness_SilenceAppendsThePause :
    (1 : BitVec 16) ≠ 0 ∧ (65535 : BitVec 16) ≠ 0 ∧ (freshHigh []).emitter.level = .high ∧
    (fresh []).emitter.level = .low := by decide

theorem witness_PauseLaws :
    (∃ t, exec (.silence 1) (freshHigh []) = .next t) ∧ 0 < (1 : BitVec 16).toNat ∧
    (∃ t, exec (.silence 0) (freshHigh []) = .next t) ∧ (0 : BitVec 16).toNat = 0 :=
  ⟨⟨_, rfl⟩, by decide, ⟨_, rfl⟩, by decide⟩

/-- A TOGGLE symbol of two pulses (2.6, row 6), bound as symbol 0 of the pilot alphabet. -/
def toggling : State := { fresh (bytesAt 0x600 [0x00, 0x64, 0x00, 0xC8, 0x00]) with alphaPilot := ⟨0x600, 1, 2⟩ }

/-- From a clear: EMIT_SYM of that symbol between a lookup and a pause of 0 ms. -/
theorem witness_ParityLawForToggles :
    toggling.emitter.pulseCount = 0 ∧ toggling.emitter.parity = 0 ∧
    toggling.AllToggleOnly [.symGet 0 0, .emitSym 0 0, .silence 0] ∧
    ∃ t, runCommands [.symGet 0 0, .emitSym 0 0, .silence 0] toggling = .next t := by
  refine ⟨by decide, by decide, ⟨trivial, fun t h => ?_⟩, ⟨_, rfl⟩⟩
  cases h
  refine ⟨fun a ha _ => ?_, fun t _ => ⟨.inl rfl, fun _ _ => trivial⟩⟩
  cases a with
  | pilot => decide
  | data => exact absurd ha (by decide)

/-- A record of each kind. -/
theorem witness_OutputRecordWord :
    (pulse 2168 .high).word = (pulse 2168 .high).word ∧
    (∃ t, exec (.emit .forceLow 500) (freshHigh []) = .next t ∧ corrective .low ∈ t.emitter.out) :=
  ⟨rfl, _, rfl, by decide⟩

/-! The checks of DECODE_BLOCK: 2.7's blocks, one per failing step, and Scenario A for the block that passes. -/

def noPilot : Memory := bytesAt 0 ([0, 0, 1, 0, 0, 0, 1, 0, 0, 0, 0, 0, 0, 0] ++ [0, 3, 0])
def noData : Memory := bytesAt 0 ([0, 0, 0, 0, 0, 0, 0, 0, 1, 0, 0, 0, 0, 0] ++ [0])
def badIndex : Memory :=
  bytesAt 0 ([0, 0, 0, 0, 0, 0, 0, 0, 2, 0, 0, 0, 1, 3] ++ [0, 0x0A, 0, 0, 0x14, 0, 0, 0x1E, 0, 0x30])

theorem witness_DecodeBlockReportsTheFirstFailingCheck_region :
    (fresh []).memSize < (0xFFF0 : BitVec 32).toNat + (17 : BitVec 32).toNat ∧
    ((0xFFF3 : BitVec 32).toNat + (13 : BitVec 32).toNat ≤ (fresh []).memSize ∧ (13 : BitVec 32).toNat < 14) ∧
    14 ≤ (14 : BitVec 32).toNat := by decide

theorem witness_DecodeBlockReportsTheFirstFailingCheck_alphabets :
    (0 < (readHeader noPilot 0).totp ∧ (readHeader noPilot 0).asp = 0) ∧
    ((readHeader noData 0).totp = 0 ∧ 0 < (readHeader noData 0).totd ∧ (readHeader noData 0).asd = 0) := by decide

theorem witness_DecodeBlockReportsTheFirstFailingCheck_size :
    ((readHeader (scenarioA 3) 0).asp ≠ 0 ∧ (readHeader (scenarioA 3) 0).totd = 0) ∧
    19 < (readHeader (scenarioA 3) 0).size ∧ (readHeader (scenarioA 3) 0).size < 21 ∧
    (readHeader (scenarioA 3) 0).size = 20 := by decide

theorem witness_DecodeBlockReportsTheFirstFailingCheck_entry :
    let h := readHeader scenarioD 0
    h.size = 23 ∧ 1 < h.totp ∧ (∀ k', k' < 1 → (h.blockSym scenarioD 0 k').toNat < h.asp) ∧
    h.asp ≤ (h.blockSym scenarioD 0 1).toNat := by decide

theorem witness_DecodeBlockReportsTheFirstFailingCheck_index :
    let h := readHeader badIndex 0
    h.size = 24 ∧ h.totp = 0 ∧ h.asd ≠ 0 ∧ 1 < h.totd ∧
    (∀ j', j' < 1 → (h.blockIndex badIndex 0 j').toNat < h.asd) ∧ h.asd ≤ (h.blockIndex badIndex 0 1).toNat := by decide

theorem witness_DecodeBlockEmitsTheWholeBlock :
    let h := readHeader (scenarioA 3) 0
    0 + 20 ≤ (fresh (scenarioA 3)).memSize ∧ 14 ≤ (20 : BitVec 32).toNat ∧ h.size = (20 : BitVec 32).toNat ∧
    (h.totp = 0 ∨ h.asp ≠ 0) ∧ (h.totd = 0 ∨ h.asd ≠ 0) ∧
    (∀ k, k < h.totp → (h.blockSym (scenarioA 3) 0 k).toNat < h.asp) ∧
    (∀ n, n < h.totd → (h.blockIndex (scenarioA 3) 0 n).toNat < h.asd) := by decide

set_option maxRecDepth 4000 in
/-- Scenario A runs and ends with OK: the hypotheses of PulseCountLaw and BlockBounds. -/
theorem witness_PulseCountLaw :
    (∃ t, exec (.decodeBlock 0 20) (fresh (scenarioA 3)) = .next t ∧ t.lastStatus = .ok) ∧
    (fresh (scenarioA 3)).blockError 0 20 = none := by
  have h : (fresh (scenarioA 3)).blockError 0 20 = none := by decide
  refine ⟨⟨((fresh (scenarioA 3)).commitBlock 0).complete ((fresh (scenarioA 3)).commitBlock 0).emitter.pulseCount,
    ?_, rfl⟩, h⟩
  simp only [exec, execDecodeBlock]
  rw [show (0 : BitVec 32).toNat = 0 from rfl, show (20 : BitVec 32).toNat = 20 from rfl, h]

set_option maxRecDepth 4000 in
/-- From the clear of a DECODE_BLOCK: Scenario A's symbol is a TOGGLE symbol, and the block has no pause. -/
theorem witness_ParityLawForToggles_block :
    let s := fresh (scenarioA 3)
    (∃ t, exec (.decodeBlock 0 20) s = .next t ∧ t.lastStatus = .ok) ∧
    (∀ p ∈ (readHeader s.mem 0).blockPulses s.mem 0, p.2 = .toggle) ∧ (readHeader s.mem 0).pause = 0 ∧
    ∀ t : State, t.AllToggleOnly [.emit .toggle 5] :=
  ⟨witness_PulseCountLaw.1, by decide, by decide, fun _ => ⟨rfl, fun _ _ => trivial⟩⟩

theorem witness_BlockBounds : (fresh (scenarioA 3)).blockError (0 : BitVec 32).toNat (20 : BitVec 32).toNat = none := by
  decide

/-- Two states that agree on the block and the level and differ elsewhere; both commands answer. -/
theorem witness_DecodeBlockIsAFunctionOfTheBlockAndLevel :
    let s := fresh (scenarioA 3)
    let s' : State := { fresh (scenarioA 3) with warn := 3, cfg := 1 }
    s.memSize = s'.memSize ∧ s.emitter.level = s'.emitter.level ∧
    (∀ a, 0 ≤ a → a < 20 → s.mem.byte a = s'.mem.byte a) ∧
    (∃ t, exec (.decodeBlock 0 20) s = .next t) ∧ (∃ t, exec (.decodeBlock 0 20) s' = .next t) := by
  refine ⟨rfl, rfl, fun _ _ _ => rfl, ?_, ?_⟩ <;>
  · simp only [exec, execDecodeBlock]
    split <;> exact ⟨_, rfl⟩

/-- Scenario A's alphabet, bound where the block has it. -/
def boundA : State :=
  { fresh (scenarioA 3) with alphaPilot := ⟨14, 1, 1⟩, alphaData := ⟨20, 0, 0⟩ }

theorem witness_ComponentsComposeIntoTheBlockDecoder :
    boundA.blockError 0 20 = none ∧ boundA.alphaPilot.table = (readHeader boundA.mem 0).pilotTable 0 ∧
    boundA.alphaData.table = (readHeader boundA.mem 0).dataTable 0 := by decide

/-- A command that ends with OK, one with an error, one with END: the hypotheses of the whole-machine statements. -/
theorem witness_whole_machine_statements :
    (∃ t, exec .nop (fresh []) = .next t ∧ t.lastStatus = .ok) ∧
    (∃ t, exec (.cfgWrite 1) (fresh []) = .next t ∧ t.lastStatus.isError = true) ∧
    (∃ t, exec .prleNext (fresh []) = .next t ∧ t.lastStatus = .endOfStream) :=
  ⟨⟨_, rfl, rfl⟩, ⟨_, rfl, rfl⟩, ⟨_, rfl, rfl⟩⟩

/-- A command that is no writer of any of the registers listed (NOP), and one other than WARN_CLEAR. -/
theorem witness_RegistersHaveNoOtherWriters :
    Instr.nop.opcode ∉ [0x01, 0x50, 0x51, 0x52, 0x60] ∧ Instr.nop.opcode ∉ [0x05, 0x50, 0x51, 0x60] ∧
    Instr.nop.opcode ∉ [0x04, 0x21, 0x51, 0x60] ∧ Instr.nop.opcode ≠ 0x03 ∧ Instr.nop.opcode ≠ 0x20 ∧
    Instr.nop.opcode ∉ [0x10, 0x11, 0x12, 0x40, 0x41, 0x42] ∧ Instr.nop.opcode ∉ [0x30, 0x31, 0x32] ∧
    Instr.nop ≠ .warnClear := by decide

theorem witness_OperandsOutOfRangeAreIllegal : (Instr.bsrRead 1 17).WellFormed (fresh []).nBsr = false := by decide

/-- The largest parameters and a written byte at the last address. -/
theorem witness_ResetHasTheInvariant :
    Params.Valid { nBsr := 16, memSize := 2 ^ 32 } ∧ Memory.wf [(2 ^ 32 - 1, 7)] = true ∧
    (∀ c ∈ ([(2 ^ 32 - 1, 7)] : Memory), c.1 < 2 ^ 32) := by decide

/-- Reset has the invariant, and a step from it answers. -/
theorem witness_StepKeepsTheInvariant : State.reset.Inv ∧ ∃ t, step State.reset = .next t :=
  ⟨by decide, ⟨_, rfl⟩⟩

/-- A state in the middle of a stream has the invariant: the hypothesis of EveryCommandCompletes is met beyond reset. -/
theorem witness_EveryCommandCompletes : (dssState 2 4).Inv ∧ (prleState 1).Inv :=
  ⟨by decide, by decide⟩

end Sys2Proof.Tests
end

/-! State: what each command leaves unchanged, the emitter's laws over a command, and the invariant. -/

section

namespace Sys2Proof.Machine

/-! ## What an effect leaves unchanged

One lemma per register. Its writers are the cases that contradict `hi`; every other effect is an update of other
fields. -/

section
variable {i : Instr} {s t : State} (h : Effect i s t)
include h

/-- No command writes the input memory, the parameters or what the host has issued (R43, R50); ending it is not part of
its effect. -/
theorem Effect.frame_eq : t.mem = s.mem ∧ t.memSize = s.memSize ∧ t.nBsr = s.nBsr ∧ t.port = s.port ∧
    t.lastStatus = s.lastStatus ∧ t.errInfo = s.errInfo ∧ t.responses = s.responses := by
  cases h with
  | decodeBlock => simp [State.commitBlock]
  | _ => simp [State.nBsr]

theorem Effect.level_eq (hi : i.opcode ∉ [0x01, 0x50, 0x51, 0x52, 0x60]) : t.emitter.level = s.emitter.level := by
  cases h with
  | lvlSet | emit | emitSym | silence | decodeBlock => simp [Instr.opcode] at hi
  | _ => simp

theorem Effect.counters_eq (hi : i.opcode ∉ [0x05, 0x50, 0x51, 0x60]) :
    t.emitter.pulseCount = s.emitter.pulseCount ∧ t.emitter.parity = s.emitter.parity ∧
      t.emitter.totalDur = s.emitter.totalDur := by
  cases h with
  | cntClear | emit | emitSym | decodeBlock => simp [Instr.opcode] at hi
  | silence => simp [Emitter.silence_eq]
  | _ => simp

theorem Effect.out_eq (hi : i.opcode ∉ [0x50, 0x51, 0x52, 0x60]) : t.emitter.out = s.emitter.out := by
  cases h with
  | emit | emitSym | silence | decodeBlock => simp [Instr.opcode] at hi
  | _ => simp

theorem Effect.warn_eq (hi : i.opcode ∉ [0x04, 0x21, 0x51, 0x60]) : t.warn = s.warn := by
  cases h with
  | warnClear | symGet | emitSym | decodeBlock => simp [Instr.opcode] at hi
  | _ => simp

theorem Effect.cfg_eq (hi : i.opcode ≠ 0x03) : t.cfg = s.cfg := by
  cases h with
  | cfgWrite => simp [Instr.opcode] at hi
  | decodeBlock => rfl
  | _ => simp

theorem Effect.blk_eq (hi : i.opcode ≠ 0x60) : t.blkPause = s.blkPause ∧ t.blkSize = s.blkSize := by
  cases h with
  | decodeBlock => simp [Instr.opcode] at hi
  | _ => simp

theorem Effect.alphabets_eq (hi : i.opcode ≠ 0x20) : t.alphaPilot = s.alphaPilot ∧ t.alphaData = s.alphaData := by
  cases h with
  | alphaBind => simp [Instr.opcode] at hi
  | decodeBlock => exact ⟨rfl, rfl⟩
  | _ => simp

theorem Effect.prle_eq (hi : i.opcode ∉ [0x30, 0x31, 0x32]) : t.prle = s.prle := by
  cases h with
  | prleOpen | prleRestart | prleNext => simp [Instr.opcode] at hi
  | decodeBlock => rfl
  | _ => simp

theorem Effect.dss_eq (hi : i.opcode ∉ [0x40, 0x41, 0x42]) : t.dss = s.dss := by
  cases h with
  | dssOpen | dssRestart | dssNext => simp [Instr.opcode] at hi
  | decodeBlock => rfl
  | _ => simp

theorem Effect.bsr_eq (hi : i.opcode ∉ [0x10, 0x11, 0x12, 0x40, 0x41, 0x42]) : t.bsr = s.bsr := by
  cases h with
  | bsrOpen | bsrRestart | bsrRead | dssOpen | dssRestart | dssNext => simp [Instr.opcode] at hi
  | decodeBlock => rfl
  | _ => simp

end

/-- Settles O52: an error and END write no register listed, and a command that completes has its effect. -/
theorem registersHaveNoOtherWriters : Obligations.RegistersHaveNoOtherWriters := by
  intro i s t h
  cases exec_cases h with
  | raised | finished => simp
  | completed v s' hE =>
    exact ⟨hE.level_eq, hE.counters_eq, hE.out_eq, hE.warn_eq, hE.cfg_eq, hE.blk_eq, hE.alphabets_eq, hE.prle_eq,
      hE.dss_eq, hE.bsr_eq⟩

/-! ## Warnings and the output stream only grow -/

/-- Setting bits keeps the bits that are set. -/
theorem and_or_self_left {n : Nat} (w b : BitVec n) : w &&& (w ||| b) = w := by
  ext k hk
  rw [BitVec.getElem_and, BitVec.getElem_or]
  cases w[k] <;> rfl

/-- Examining a symbol or a block sets bits of `WARN` (R125, R236); only WARN_CLEAR clears one (R25). -/
theorem Effect.warn_sticky {i : Instr} {s t : State} (h : Effect i s t) (hi : i ≠ .warnClear) :
    s.warn &&& t.warn = s.warn := by
  cases h with
  | warnClear => exact absurd rfl hi
  | symGet | emitSym => exact and_or_self_left _ _
  | decodeBlock => simp only [State.commitBlock, BitVec.or_assoc, and_or_self_left]
  | _ => simp

/-- Settles O53: an error and END do not write `WARN`, and a completed command is `Effect.warn_sticky`. -/
theorem warningsAreSticky : Obligations.WarningsAreSticky := by
  intro i s t h hi
  cases exec_cases h with
  | raised | finished => simp
  | completed v s' hE => exact hE.warn_sticky hi

/-- The emission of a block (R236): the counters cleared, its pulses, its pause. -/
theorem Header.emitBlock_eq (h : Header) (m : Memory) (base : Nat) (e : Emitter) :
    h.emitBlock m base e = (e.clearCounters.after (h.blockPulses m base)).silence h.pause := by
  rw [Header.emitBlock, Header.pilotPhase_eq, Header.dataPhase_eq, ← Emitter.after_append]
  rfl

theorem Emitter.out_prefix_after (e : Emitter) (ps : List (BitVec 16 × PolRule)) : e.out <+: (e.after ps).out :=
  List.prefix_append _ _

theorem Emitter.out_prefix_silence (e : Emitter) (ms : BitVec 16) : e.out <+: (e.silence ms).out := by
  rw [Emitter.silence_eq]
  exact List.prefix_append _ _

/-- Every emission appends (R38). -/
theorem Effect.out_prefix {i : Instr} {s t : State} (h : Effect i s t) : s.emitter.out <+: t.emitter.out := by
  cases h with
  | emit => rw [Emitter.emitPulse_eq]; exact Emitter.out_prefix_after _ _
  | emitSym => rw [Emitter.emitSymbol_eq]; exact Emitter.out_prefix_after _ _
  | silence => exact Emitter.out_prefix_silence _ _
  | decodeBlock =>
    simp only [State.commitBlock, Header.emitBlock_eq]
    exact (Emitter.out_prefix_after s.emitter.clearCounters _).trans (Emitter.out_prefix_silence _ _)
  | _ => simp

/-- Settles O54: an error and END append no record, and a completed command is `Effect.out_prefix`. -/
theorem outIsAppendOnly : Obligations.OutIsAppendOnly := by
  intro i s t h
  cases exec_cases h with
  | raised | finished => simp
  | completed v s' hE => exact hE.out_prefix

/-! ## The emitter: parity (R28) and the shape of its records (R7, R81) -/

theorem pulseRecords_duration_lt (l : Level) (d : BitVec 16) (q : PolRule) :
    ∀ r ∈ pulseRecords l d q, r.duration.toNat < 2 ^ 16 := by
  have hd : (d.setWidth 32).toNat < 2 ^ 16 := by rw [BitVec.toNat_setWidth]; omega
  have hz : (0 : BitVec 32).toNat < 2 ^ 16 := by decide
  intro r hr
  cases q with
  | toggle | keep => obtain rfl := List.mem_singleton.mp hr; exact hd
  | forceLow | forceHigh =>
    obtain hr | hr := List.mem_append.mp hr
    · split at hr
      · cases hr
      · obtain rfl := List.mem_singleton.mp hr; exact hz
    · obtain rfl := List.mem_singleton.mp hr; exact hd

/-- The records of pulses are well formed: a CORRECTIVE has duration 0, a PULSE one of 16 bits. -/
theorem renderRecords_valid (l : Level) (ps : List (BitVec 16 × PolRule)) : ∀ r ∈ renderRecords l ps, r.Valid := by
  refine fun r hr => ⟨renderRecords_corrective l ps r hr, ?_⟩
  induction ps generalizing l with
  | nil => cases hr
  | cons p ps ih =>
    obtain hr | hr := List.mem_append.mp hr
    · exact pulseRecords_duration_lt l p.1 p.2 r hr
    · exact ih _ hr

/-- The records of a pause are well formed: no one is longer than the pause. -/
theorem pauseRecords_valid (l : Level) (ms : BitVec 16) : ∀ r ∈ pauseRecords l ms, r.Valid := by
  refine fun r hr => ⟨fun hk => ?_, ?_⟩
  · cases (pauseRecords_kind l ms r hr).symm.trans hk
  · have hms := ms.isLt
    unfold pauseRecords at hr
    split at hr
    · cases hr
    · cases l <;> simp only [List.mem_cons, List.not_mem_nil, or_false] at hr
      · subst hr; simp; omega
      · obtain rfl | rfl := hr
        · decide
        · simp; omega

/-- The emitter's part of the invariant: `PARITY` is bit 0 of `PULSE_COUNT` (R28), every record is well formed (R81). -/
def Emitter.Valid (e : Emitter) : Prop :=
  e.parity = e.pulseCount.extractLsb' 0 1 ∧ ∀ r ∈ e.out, r.Valid

section
variable {e : Emitter} (he : e.Valid)
include he

theorem Emitter.Valid.clearCounters : e.clearCounters.Valid := ⟨rfl, he.2⟩

/-- Each pulse adds 1 to the count and to the parity (R205). -/
theorem Emitter.Valid.after (ps : List (BitVec 16 × PolRule)) : (e.after ps).Valid := by
  obtain ⟨hp, ho⟩ := he
  refine ⟨?_, fun r hr => ?_⟩
  · simp only [Emitter.after, hp]
    rw [BitVec.extractLsb'_add (by decide), ← BitVec.setWidth_eq_extractLsb' (x := BitVec.ofNat 64 _) (by decide),
      BitVec.setWidth_ofNat_of_le (by decide)]
  · obtain hr | hr := List.mem_append.mp hr
    · exact ho r hr
    · exact renderRecords_valid _ _ r hr

theorem Emitter.Valid.silence (ms : BitVec 16) : (e.silence ms).Valid := by
  rw [Emitter.silence_eq]
  refine ⟨he.1, fun r hr => ?_⟩
  obtain hr | hr := List.mem_append.mp hr
  · exact he.2 r hr
  · exact pauseRecords_valid _ _ r hr

end

/-! ## The invariant, one part at a time -/

/-- Replacing one element keeps what every element has, if the new one has it. -/
theorem forall_mem_set {α : Type} {P : α → Prop} {l : List α} (h : ∀ r ∈ l, P r) (i : Nat) {x : α} (hx : P x) :
    ∀ r ∈ l.set i x, P r := by
  intro r hr
  obtain hr | rfl := List.mem_or_eq_of_mem_set hr
  · exact h r hr
  · exact hx

/-- A cursor that stays in its buffer keeps its bound when it is recorded in 35 bits (R36). -/
theorem toNat_ofNat_cursor_le {c n : Nat} (h : c ≤ n) : (BitVec.ofNat 35 c).toNat ≤ n :=
  (Nat.mod_le _ _).trans h

section
variable {i : Instr} {s t : State} (h : Effect i s t)
include h

theorem Effect.paramsValid (hs : s.ParamsValid) : t.ParamsValid := by
  obtain ⟨-, hm, hn, -⟩ := h.frame_eq
  rwa [State.ParamsValid, hm, hn]

theorem Effect.memoryValid (hs : s.MemoryValid) : t.MemoryValid := by
  obtain ⟨hmem, hm, -⟩ := h.frame_eq
  rwa [State.MemoryValid, hmem, hm]

theorem Effect.emitterValid (hs : s.emitter.Valid) : t.emitter.Valid := by
  cases h with
  | lvlSet => exact hs
  | cntClear => exact hs.clearCounters
  | emit => rw [Emitter.emitPulse_eq]; exact hs.after _
  | emitSym => rw [Emitter.emitSymbol_eq]; exact hs.after _
  | silence => exact hs.silence _
  | decodeBlock =>
    simp only [State.commitBlock, Header.emitBlock_eq]
    exact (hs.clearCounters.after _).silence _
  | _ => simpa using hs

theorem Effect.cfgValid (hs : s.CfgValid) : t.CfgValid := by
  cases h with
  | cfgWrite => rfl
  | decodeBlock => exact hs
  | _ => simpa [State.CfgValid] using hs

/-- A block that passes the checks has the declared size, a number of 32 bits (R31, R234). -/
theorem Effect.blkSizeValid (hs : s.BlkSizeValid) : t.BlkSizeValid := by
  cases h with
  | decodeBlock _ base declLen hb =>
    obtain ⟨-, -, hsize, -⟩ := (s.blockError_eq_none _ _ _ rfl).mp hb
    have hlen := declLen.isLt
    simp only [State.BlkSizeValid, State.commitBlock, hsize, BitVec.toNat_ofNat]
    omega
  | _ => simpa [State.BlkSizeValid] using hs

/-- ALPHA_BIND checks the region and that the symbols fit it (R120). -/
theorem Effect.alphabetsValid (hs : s.AlphabetValid s.alphaPilot ∧ s.AlphabetValid s.alphaData) :
    t.AlphabetValid t.alphaPilot ∧ t.AlphabetValid t.alphaData := by
  cases h with
  | alphaBind _ alpha count maxp base len a ha hr hsize =>
    have hnew : s.AlphabetValid ⟨base, count, maxp⟩ := (Nat.add_le_add_left hsize _).trans hr
    cases a with
    | pilot => exact ⟨hnew, hs.2⟩
    | data => exact ⟨hs.1, hnew⟩
  | decodeBlock => exact hs
  | _ => simpa [State.AlphabetValid] using hs

/-- PRLE_NEXT advances only a stream that is not at its end (R164). -/
theorem Effect.prleValid (hs : s.PrleValid) : t.PrleValid := by
  obtain ⟨hnext, hregion, hasp⟩ := hs
  cases h with
  | prleOpen _ base len totp hr ha hsize =>
    exact ⟨Nat.zero_le _, (Nat.add_le_add_left hsize _).trans hr, ha⟩
  | prleRestart => exact ⟨Nat.zero_le _, hregion, hasp⟩
  | prleNext _ hn =>
    refine ⟨?_, hregion, hasp⟩
    bv_omega
  | decodeBlock => exact ⟨hnext, hregion, hasp⟩
  | _ => simpa [State.PrleValid] using And.intro hnext (And.intro hregion hasp)

/-- DSS_OPEN names a reader that exists and captures the data alphabet; DSS_NEXT advances only a stream that is not at
its end (R182, R184). -/
theorem Effect.dssValid (hs : s.DssValid) : t.DssValid := by
  obtain ⟨hinst, hbps, hprod, hasd⟩ := hs
  cases h with
  | dssOpen _ inst base len totd hi hr ha =>
    have hb := (bitsPerSymbol_bounds s.alphaData.count.toNat).2
    refine ⟨?_, ?_, Nat.zero_le _, ha⟩
    · simp [State.nBsr] at hi ⊢; omega
    · simp; omega
  | dssRestart => exact ⟨by simpa [State.nBsr] using hinst, hbps, Nat.zero_le _, hasd⟩
  | dssNext _ r hr hne =>
    refine ⟨by simpa [State.nBsr] using hinst, hbps, ?_, hasd⟩
    simp only [State.setReader_dss]
    bv_omega
  | decodeBlock => exact ⟨hinst, hbps, hprod, hasd⟩
  | _ => simpa [State.DssValid, State.nBsr] using And.intro hinst (And.intro hbps (And.intro hprod hasd))

/-- A reader is opened on a region that exists, and its cursor moves inside it (R141 to R143, R182 to R184). -/
theorem Effect.readersValid (hs : ∀ r ∈ s.bsr, s.ReaderValid r) : ∀ r ∈ t.bsr, t.ReaderValid r := by
  cases h with
  | bsrOpen _ inst base len hi hr => exact forall_mem_set hs _ ⟨Nat.zero_le _, hr⟩
  | dssOpen _ inst base len totd hi hr ha => exact forall_mem_set hs _ ⟨Nat.zero_le _, hr⟩
  | bsrRestart _ inst r hr => exact forall_mem_set hs _ ⟨Nat.zero_le _, (hs r (List.mem_of_getElem? hr)).2⟩
  | dssRestart _ r hr => exact forall_mem_set hs _ ⟨Nat.zero_le _, (hs r (List.mem_of_getElem? hr)).2⟩
  | bsrRead _ inst width r hr hw hc =>
    exact forall_mem_set hs _ ⟨toNat_ofNat_cursor_le hc, (hs r (List.mem_of_getElem? hr)).2⟩
  | dssNext _ r hr hn hc =>
    exact forall_mem_set hs _ ⟨toNat_ofNat_cursor_le hc, (hs r (List.mem_of_getElem? hr)).2⟩
  | decodeBlock => exact hs
  | _ => simpa [State.ReaderValid] using hs

/-- A completed command keeps the invariant, before its response is given. -/
theorem Effect.inv (hs : s.Inv) : t.Inv := by
  obtain ⟨hparams, hmem, hparity, hcfg, hblk, hpilot, hdata, hprle, hdss, hbsr, hout, hresp, hlast⟩ := hs
  obtain ⟨hparity', hout'⟩ := h.emitterValid ⟨hparity, hout⟩
  obtain ⟨hpilot', hdata'⟩ := h.alphabetsValid ⟨hpilot, hdata⟩
  obtain ⟨-, -, -, -, hst, -, hrs⟩ := h.frame_eq
  refine ⟨h.paramsValid hparams, h.memoryValid hmem, hparity', h.cfgValid hcfg, h.blkSizeValid hblk, hpilot', hdata',
    h.prleValid hprle, h.dssValid hdss, h.readersValid hbsr, hout', ?_, ?_⟩
  · rwa [hrs]
  · rwa [State.LastStatusValid, hst, hrs]

end

/-- A response keeps the invariant: it is the last one, and `LAST_STATUS` its status (R23, R78). -/
theorem State.Inv.respond {s : State} (hs : s.Inv) {r : Response} (hr : r.Valid) : (s.respond r).Inv := by
  obtain ⟨hparams, hmem, hparity, hcfg, hblk, hpilot, hdata, hprle, hdss, hbsr, hout, hresp, -⟩ := hs
  refine ⟨hparams, hmem, hparity, hcfg, hblk, hpilot, hdata, hprle, hdss, hbsr, hout, fun q hq => ?_, ?_⟩
  · obtain hq | hq := List.mem_append.mp hq
    · exact hresp q hq
    · obtain rfl := List.mem_singleton.mp hq
      exact hr
  · simp [State.LastStatusValid]

/-- An error keeps the invariant: `ERR_INFO`, which it writes, is in no part of it (R262). -/
theorem State.Inv.raise {s : State} (hs : s.Inv) (e : CmdError) : (s.raise e).Inv :=
  hs.respond (r := ⟨e.status, 0⟩) fun _ => rfl

/-- Every command that answers keeps the invariant. -/
theorem exec_inv {i : Instr} {s t : State} (hs : s.Inv) (h : exec i s = .next t) : t.Inv := by
  cases exec_cases h with
  | raised e => exact hs.raise e
  | finished => exact hs.respond fun _ => rfl
  | completed v s' hE => exact (hE.inv hs).respond fun hne => absurd rfl hne

/-- Reset has the invariant, for all parameters R6 allows and every memory image the host may have written. -/
theorem State.inv_resetWith {p : Params} {m : Memory} (hp : p.Valid) (hm : m.wf = true)
    (ha : ∀ c ∈ m, c.1 < p.memSize) : (State.resetWith p m).Inv := by
  have hn : (State.resetWith p m).nBsr = p.nBsr := List.length_replicate
  refine ⟨?_, ⟨hm, ha⟩, rfl, rfl, Nat.zero_le _, ?_, ?_, ?_, ?_, ?_, nofun, nofun, rfl⟩
  · rw [State.ParamsValid, hn]; exact hp
  · simp [State.resetWith, State.AlphabetValid]
  · simp [State.resetWith, State.AlphabetValid]
  · simp [State.resetWith, State.PrleValid]
  · refine ⟨?_, rfl, Nat.zero_le _, fun h => absurd h (Nat.lt_irrefl 0)⟩
    rw [hn]
    exact Nat.zero_lt_two.trans_le hp.1
  · intro r hr
    obtain rfl := List.eq_of_mem_replicate hr
    simp [State.resetWith, State.ReaderValid]

/-- Settles O56: `State.reset` is the reset of one machine R6 allows, with no byte written. -/
theorem resetHasTheInvariant : Obligations.ResetHasTheInvariant :=
  ⟨State.inv_resetWith (by decide) rfl nofun, fun _ _ => State.inv_resetWith⟩

/-- What a step can do: hold the state, carry out a command, reject a frame, take a host write, or reset (R75, R275, R61,
R290). -/
inductive StepEnds (s : State) : State → Prop where
  | idle (hp : s.port = []) : StepEnds s s
  | command (f i rest t) (hp : s.port = .command f :: rest) (hd : decode f = .ok i)
      (h : exec i { s with port := rest } = .next t) : StepEnds s t
  | rejected (f r rest) (hp : s.port = .command f :: rest) (hd : decode f = .error r) :
      StepEnds s (State.rejectFrame r { s with port := rest })
  | wrote (addr v rest) (hp : s.port = .write addr v :: rest) (ha : addr.toNat < s.memSize) :
      StepEnds s { s with port := rest, mem := s.mem.store addr.toNat v }
  | reset (rest) (hp : s.port = .reset :: rest) : StepEnds s (State.applyReset { s with port := rest })

/-- A step that answers ends in one of these ways. -/
theorem step_cases {s t : State} (h : step s = .next t) : StepEnds s t := by
  match hp : s.port with
  | [] => simp only [step, State.takeEvent, hp] at h; cases h; exact .idle hp
  | .command f :: rest =>
    simp only [step, State.takeEvent, hp] at h
    split at h
    · exact .command f _ rest t hp ‹_› h
    · cases h; exact .rejected f _ rest hp ‹_›
  | .write addr v :: rest =>
    simp only [step, State.takeEvent, hp, State.hostWrite] at h
    split at h <;> cases h
    exact .wrote addr v rest hp ‹_›
  | .reset :: rest => simp only [step, State.takeEvent, hp] at h; cases h; exact .reset rest hp

/-- A host write keeps the memory's part of the invariant (R50, R61). -/
theorem State.memoryValid_store {s : State} (hs : s.MemoryValid) {a : Nat} (ha : a < s.memSize) (v : Byte) :
    State.MemoryValid { s with mem := s.mem.store a v } := by
  refine ⟨Memory.wf_store _ _ _ hs.1, fun c hc => ?_⟩
  obtain rfl | hc := Memory.mem_store _ _ _ _ hc
  · exact ha
  · exact hs.2 c hc

/-- Settles O57: each way a step can end keeps the invariant; a command by `exec_inv`, reset because it holds of every
reset state. What is pending is in no part of the invariant. -/
theorem stepKeepsTheInvariant : Obligations.StepKeepsTheInvariant := by
  intro s t hs h
  obtain ⟨hparams, hmem, hrest⟩ := hs
  cases step_cases h with
  | idle => exact ⟨hparams, hmem, hrest⟩
  | command f i rest _ hp hd h => exact exec_inv (s := { s with port := rest }) ⟨hparams, hmem, hrest⟩ h
  | rejected f r rest => exact State.Inv.raise (s := { s with port := rest }) ⟨hparams, hmem, hrest⟩ _
  | wrote addr v rest hp ha => exact ⟨hparams, State.memoryValid_store hmem ha v, hrest⟩
  | reset rest => exact State.inv_resetWith hparams hmem.1 hmem.2

/-! ## The reset values -/

/-- After reset every field of every reader reads 0, whether it exists or not (R42). -/
theorem State.readerField_resetWith (p : Params) (m : Memory) (i : Nat) (field : Bsr → Word)
    (hf : field ⟨0, 0, 0⟩ = 0) : (State.resetWith p m).readerField i field = 0 := by
  rw [State.readerField, State.reader_eq, State.resetWith, List.getElem?_replicate]
  split
  · next r hr =>
    split at hr <;> cases hr
    exact hf
  · rfl

/-- Settles O5, register by register. -/
theorem resetLeavesTheStatedValues : Obligations.ResetLeavesTheStatedValues := by
  intro p m
  refine ⟨fun r => ?_, rfl, rfl, rfl, Config.params, by decide, rfl⟩
  cases r with
  | paramNBsr => exact congrArg (BitVec.ofNat 64) List.length_replicate
  | bsrBase i | bsrLen i | bsrCursor i => exact State.readerField_resetWith p m i _ rfl
  | alphaBase a | alphaCount a | alphaMaxp a => cases a <;> rfl
  | totalDurHi => simp [State.readReg, State.resetWith]
  | _ => rfl

end Sys2Proof.Machine

end

/-! Memory: a read and a code as sums over their bytes and bits, what a command leaves of the memory, and the step of a
decoded frame. -/

section

namespace Sys2Proof.Machine

/-! ## Reads and codes as sums (R52, R54, R140) -/

/-- A read is the sum of its bytes, the first the least significant (R52). -/
theorem Memory.read_eq_sum (m : Memory) (addr n : Nat) :
    m.read addr n = ∑ k ∈ Finset.range n, (m.byte (addr + k)).toNat * 2 ^ (8 * k) := by
  induction n generalizing addr with
  | zero => rfl
  | succ n ih =>
    have hshift (k : Nat) : 256 * ((m.byte (addr + 1 + k)).toNat * 2 ^ (8 * k)) =
        (m.byte (addr + (k + 1))).toNat * 2 ^ (8 * (k + 1)) := by
      rw [Nat.add_right_comm, Nat.add_assoc]
      ring
    rw [Memory.read, ih, Finset.mul_sum, Finset.sum_congr rfl fun k _ => hshift k, Finset.sum_range_succ']
    simp [Nat.add_comm]

/-- Bit `p` in arithmetic: bit `7 - p mod 8` of its byte (R54). -/
theorem Memory.bit_eq_div_mod (m : Memory) (b p : Nat) :
    m.bit b p = (m.byte (b + p / 8)).toNat / 2 ^ (7 - p % 8) % 2 := by
  rw [Memory.bit, Nat.and_one_is_mod, Nat.shiftRight_eq_div_pow]

/-- Bit `p` as a bit of its byte (R54). -/
theorem Memory.bit_eq_getLsbD (m : Memory) (b p : Nat) :
    m.bit b p = ((m.byte (b + p / 8)).getLsbD (7 - p % 8)).toNat := by
  rw [Memory.bit_eq_div_mod, BitVec.getLsbD, Nat.toNat_testBit]

/-- A code is the sum of its bits, the one at the cursor the most significant (R140): each further bit doubles the
weight of those before it. -/
theorem Memory.code_eq_sum (m : Memory) (b c w : Nat) :
    m.code b c w = ∑ k ∈ Finset.range w, m.bit b (c + k) * 2 ^ (w - 1 - k) := by
  induction w with
  | zero => rfl
  | succ w ih =>
    have hdouble : ∀ k ∈ Finset.range w,
        2 * (m.bit b (c + k) * 2 ^ (w - 1 - k)) = m.bit b (c + k) * 2 ^ (w + 1 - 1 - k) := by
      intro k hk
      have hk' : w + 1 - 1 - k = w - 1 - k + 1 := by have := Finset.mem_range.mp hk; omega
      rw [hk']
      ring
    rw [Memory.code, ih, Finset.mul_sum, Finset.sum_congr rfl hdouble, Finset.sum_range_succ]
    simp

/-- Settles O14, by induction on the number of bytes. -/
theorem memReadIsTheLittleEndianSum : Obligations.MemReadIsTheLittleEndianSum :=
  Memory.read_eq_sum

/-- Settles O15: the sum over the buffer's bits, each of them a bit of its byte. -/
theorem codeIsTheMsbFirstSumOfItsBits : Obligations.CodeIsTheMsbFirstSumOfItsBits := by
  intro m b c w
  refine ⟨?_, Memory.code_lt m b c w, Memory.bit_eq_div_mod m b⟩
  rw [Memory.code_eq_sum]
  exact Finset.sum_congr rfl fun k _ => by rw [Memory.bit_eq_getLsbD]

/-! ## Commands and steps -/

/-- Settles O55: ending a command writes only its status, information and response, and its effect is framed by
`Effect.frame_eq`. -/
theorem commandsNeverWriteMemory : Obligations.CommandsNeverWriteMemory := by
  intro i s t h
  cases exec_cases h with
  | raised | finished => simp [State.nBsr]
  | completed v s' hE =>
    obtain ⟨hmem, hsize, hbsr, hport, -⟩ := hE.frame_eq
    exact ⟨hmem, hsize, hbsr, hport⟩

/-- A frame that decodes is executed once the host's event is taken (R60, R75). -/
theorem step_of_decode {s : State} {f : Frame} {i : Instr} {rest : List HostEvent}
    (hs : s.port = .command f :: rest) (hf : decode f = .ok i) : step s = exec i { s with port := rest } := by
  simp only [step, State.takeEvent, hs, hf]

/-- Settles O1: taking the host's event leaves the state in which the decoded command is executed. -/
theorem stepRunsTheDecodedCommand : Obligations.StepRunsTheDecodedCommand :=
  fun _ _ _ _ => step_of_decode

end Sys2Proof.Machine

end

/-! Encoding: the decoder and the encoder are inverse, the decoder is the opcode table, what ends an illegal command, and
the word of an output record. -/

section

namespace Sys2Proof

/-! ## Operands that are part of a field (R71, R74) -/

@[simp] theorem Level.ofBit_bit (l : Level) : Level.ofBit l.bit = l := by cases l <;> rfl

@[simp] theorem Level.bit_ofBit (b : BitVec 1) : (Level.ofBit b).bit = b := by revert b; decide

@[simp] theorem PolRule.ofBits_bits (q : PolRule) : PolRule.ofBits q.bits = q := by cases q <;> rfl

@[simp] theorem PolRule.bits_ofBits (b : BitVec 2) : (PolRule.ofBits b).bits = b := by revert b; decide

@[simp] theorem Fields.bLo_append (op a lo hi : BitVec 8) (c d e : BitVec 32) :
    Fields.bLo ⟨op, a, hi ++ lo, c, d, e⟩ = lo :=
  BitVec.extractLsb'_append_eq_right

@[simp] theorem Fields.bHi_append (op a lo hi : BitVec 8) (c d e : BitVec 32) :
    Fields.bHi ⟨op, a, hi ++ lo, c, d, e⟩ = hi :=
  BitVec.extractLsb'_append_eq_left

@[simp] theorem Fields.bHi_append_bLo (x : Fields) : x.bHi ++ x.bLo = x.b :=
  BitVec.extractLsb'_append_extractLsb' (w := 8) (len := 8)

/-- A field whose reserved high bits are zero is its operand below them. -/
theorem zero_append_operand {v w : Nat} {x : BitVec (v + w)} (h : x.extractLsb' w v = 0#v) :
    0#v ++ x.extractLsb' 0 w = x := by
  rw [← h, BitVec.extractLsb'_append_extractLsb']

/-! ## The decoder and the encoder are inverse -/

theorem Fields.accept_eq_ok {x : Fields} {P : Prop} [Decidable P] {i j : Instr} :
    x.accept P i = .ok j ↔ P ∧ i = j := by
  unfold Fields.accept
  split <;> simp [*]

theorem Fields.accept_eq_error {x : Fields} {P : Prop} [Decidable P] {i : Instr} {r : Reject} :
    x.accept P i = .error r ↔ ¬ P ∧ .reservedBits x.op = r := by
  unfold Fields.accept
  split <;> simp [*]

/-- The row of a command accepts the fields the encoder writes, and reads its operands back. -/
theorem decodeFields_encodeFields (i : Instr) : decodeFields (encodeFields i) = .ok i := by
  cases i with
  | lvlSet l =>
    refine Fields.accept_eq_ok.mpr ⟨⟨BitVec.extractLsb'_append_eq_left, rfl, rfl, rfl, rfl⟩, congrArg Instr.lvlSet ?_⟩
    exact (congrArg Level.ofBit BitVec.extractLsb'_append_eq_right).trans l.ofBit_bit
  | cfgWrite b =>
    exact Fields.accept_eq_ok.mpr ⟨⟨BitVec.extractLsb'_append_eq_left, rfl, rfl, rfl, rfl⟩,
      congrArg Instr.cfgWrite BitVec.extractLsb'_append_eq_right⟩
  | emit q d =>
    refine Fields.accept_eq_ok.mpr ⟨⟨BitVec.extractLsb'_append_eq_left, rfl, rfl, rfl⟩, congrArg (Instr.emit · d) ?_⟩
    exact (congrArg PolRule.ofBits BitVec.extractLsb'_append_eq_right).trans q.ofBits_bits
  | _ => exact Fields.accept_eq_ok.mpr (by simp [encodeFields, Instr.operandFields])

/-- Fields that decode are those of the command: what a row does not read as an operand, it checks to be zero. -/
theorem encodeFields_of_decodeFields {x : Fields} {i : Instr} (h : decodeFields x = .ok i) : encodeFields i = x := by
  obtain ⟨op, a, b, c, d, e⟩ := x
  unfold decodeFields at h
  split at h
  case h_23 => cases h
  all_goals
    obtain rfl : op = _ := ‹_›
    obtain ⟨hz, rfl⟩ := Fields.accept_eq_ok.mp h
    simp only at hz
  -- LVL_SET, CFG_WRITE, EMIT: the operand is the low bits of A
  case h_2 | h_4 | h_19 =>
    simp [encodeFields, Instr.operandFields, Instr.opcode, zero_append_operand hz.1, hz]
  -- SYM_GET, EMIT_SYM: an operand is the low byte of B
  case h_11 | h_20 =>
    simp [encodeFields, Instr.operandFields, Instr.opcode, Fields.bLo, zero_append_operand (v := 8) hz.1, hz]
  all_goals
    simp [encodeFields, Instr.operandFields, Instr.opcode, hz]

/-- Settles O7: packing and unpacking the fields changes none, and the fields of a command decode to it. -/
theorem decodeOfEncodeIsTheCommand : Obligations.DecodeOfEncodeIsTheCommand := by
  intro i
  rw [decode, encode, Fields.ofFrame_toFrame, decodeFields_encodeFields]

/-- Settles O8: the fields of the frame are those of the command, and the frame is its fields packed. -/
theorem encodeOfDecodeIsTheFrame : Obligations.EncodeOfDecodeIsTheFrame := by
  intro f i h
  rw [encode, encodeFields_of_decodeFields h, Fields.toFrame_ofFrame]

/-! ## The decoder is the opcode table -/

theorem and_mask_byte (x : BitVec 8) : x &&& 0xFF#8 = x := BitVec.and_allOnes

theorem and_mask_half (x : BitVec 16) : x &&& 0xFFFF#16 = x := BitVec.and_allOnes

theorem and_mask_word (x : BitVec 32) : x &&& 0xFFFFFFFF#32 = x := BitVec.and_allOnes

/-- A frame that matches a row decodes to a command of the row: under the row's mask, the frame's OP is the row's, and
exactly the bits the decoder reserves are zero. -/
theorem exists_instr_of_matches {r : OpcodeRow} (hr : r ∈ opcodeTable) {f : Frame} (h : r.Matches f) :
    ∃ i, decode f = .ok i ∧ i.mnemonic = r.mnemonic := by
  replace h := (OpcodeRow.matches_iff r.mnemonic (Fields.ofFrame f) (Fields.ofFrame r.mask)
    (Fields.ofFrame r.pattern)).mp (by rwa [Fields.toFrame_ofFrame, Fields.toFrame_ofFrame, Fields.toFrame_ofFrame])
  unfold decode
  generalize Fields.ofFrame f = x at h
  obtain ⟨op, a, b, c, d, e⟩ := x
  simp only [opcodeTable, List.mem_append, List.mem_cons, List.not_mem_nil, or_false] at hr
  rcases hr with (((rfl | rfl | rfl | rfl | rfl | rfl) | rfl | rfl | rfl | rfl | rfl | rfl) |
    rfl | rfl | rfl | rfl | rfl | rfl) | rfl | rfl | rfl | rfl
  all_goals
    simp only [Fields.ofFrame, BitVec.reduceExtractLsb', BitVec.and_zero, and_mask_byte, and_mask_half, and_mask_word,
      and_mask_level, and_mask_rule, and_mask_high, true_and, and_true] at h
    obtain ⟨rfl, hreserved⟩ := h
    exact ⟨_, Fields.accept_eq_ok.mpr ⟨hreserved, rfl⟩, rfl⟩

/-- Every command has a row, which its frame matches. -/
theorem Laws.MatchesRow.statement : ∀ i : Instr, Laws.MatchesRow.Statement i
  | .nop => nop
  | .lvlSet l => lvlSet l
  | .regRead n => regRead n
  | .cfgWrite b => cfgWrite b
  | .warnClear => warnClear
  | .cntClear => cntClear
  | .bsrOpen k base len => bsrOpen k base len
  | .bsrRestart k => bsrRestart k
  | .bsrRead k w => bsrRead k w
  | .alphaBind a count maxp base len => alphaBind a count maxp base len
  | .symGet a idx => symGet a idx
  | .symDur a idx j => symDur a idx j
  | .prleOpen base len totp => prleOpen base len totp
  | .prleRestart => prleRestart
  | .prleNext => prleNext
  | .dssOpen k base len totd => dssOpen k base len totd
  | .dssRestart => dssRestart
  | .dssNext => dssNext
  | .emit q d => emit q d
  | .emitSym a idx => emitSym a idx
  | .silence ms => silence ms
  | .decodeBlock base n => decodeBlock base n

/-- A frame that decodes matches the row of its command. -/
theorem exists_row_of_decode {f : Frame} {i : Instr} (h : decode f = .ok i) :
    ∃ r ∈ opcodeTable, r.mnemonic = i.mnemonic ∧ r.Matches f :=
  encodeOfDecodeIsTheFrame f i h ▸ Laws.MatchesRow.statement i

/-- No two rows have one mnemonic. -/
theorem opcodeTable_mnemonic_inj {r r' : OpcodeRow} (hr : r ∈ opcodeTable) (hr' : r' ∈ opcodeTable)
    (h : r.mnemonic = r'.mnemonic) : r = r' :=
  List.inj_on_of_nodup_map (by decide) hr hr' h

/-- Settles O9: a matching frame decodes to the row's command, a decoded frame matches its command's row, and mnemonics
tell the rows apart. -/
theorem decoderAgreesWithTheOpcodeTable : Obligations.DecoderAgreesWithTheOpcodeTable := by
  refine ⟨fun f r hr => ⟨exists_instr_of_matches hr, ?_⟩, fun f r r' hr hr' h h' => ?_⟩
  · rintro ⟨i, hi, hn⟩
    obtain ⟨r', hr', hn', hmatch⟩ := exists_row_of_decode hi
    exact opcodeTable_mnemonic_inj hr' hr (hn'.trans hn) ▸ hmatch
  · obtain ⟨i, hi, hn⟩ := exists_instr_of_matches hr h
    obtain ⟨i', hi', hn'⟩ := exists_instr_of_matches hr' h'
    obtain rfl : i = i' := Except.ok.inj (hi.symm.trans hi')
    exact opcodeTable_mnemonic_inj hr hr' (hn.symm.trans hn')

/-- Settles O10: each frame is evaluated. -/
theorem framesOfTheVectorsDecode : Obligations.FramesOfTheVectorsDecode := by
  unfold Obligations.FramesOfTheVectorsDecode
  decide

/-- A rejection records the frame's OP, whichever the reason (R72). -/
theorem Reject.op_of_decodeFields {x : Fields} {r : Reject} (h : decodeFields x = .error r) : r.op = x.op := by
  unfold decodeFields at h
  split at h
  case h_23 => cases h; rfl
  all_goals
    obtain ⟨-, rfl⟩ := Fields.accept_eq_error.mp h
    rfl

/-- OP is the top byte of the frame (R71). -/
theorem Fields.ofFrame_op_toNat (f : Frame) : (Fields.ofFrame f).op.toNat = f.toNat / 2 ^ 120 := by
  have := f.isLt
  simp only [Fields.ofFrame, BitVec.extractLsb'_toNat, Nat.shiftRight_eq_div_pow]
  omega

namespace Machine

/-! ## Illegal commands (R72, R74, R263) -/

/-- IllegalCommand records the OP, and its cause above it (R263). -/
theorem State.raise_illegalCommand (op : BitVec 8) (c : IllegalCause) (s : State) :
    s.raise (.illegalCommand op c) = s.failed .illegalCommand (BitVec.ofNat 64 (256 * c.bit.toNat + op.toNat)) := by
  rw [State.failed, ← info_illegalCommand]
  rfl

/-- Settles O2: such a frame does not decode, for it would match its command's row; the rejection records its OP. -/
theorem frameWithoutACommandIsIllegal : Obligations.FrameWithoutACommandIsIllegal := by
  intro s f rest hs hf
  cases hd : decode f with
  | ok i =>
    obtain ⟨r, hr, -, hmatch⟩ := exists_row_of_decode hd
    exact absurd hmatch (hf r hr)
  | error r =>
    rw [step_of_reject hs hd, State.rejectFrame, State.raise_illegalCommand, Reject.op_of_decodeFields hd,
      Fields.ofFrame_op_toNat]
    simp [IllegalCause.bit]

theorem instanceInRange_eq_false {s : State} {k : BitVec 8} :
    instanceInRange s.nBsr k = false ↔ s.nBsr ≤ k.toNat := by
  simp [instanceInRange]

theorem State.reader_eq_none {s : State} {k : Nat} : s.reader k = none ↔ s.nBsr ≤ k :=
  List.getElem?_eq_none_iff

theorem alphabetInRange_eq_false {alpha : BitVec 8} : alphabetInRange alpha = false ↔ alphaOf alpha = none := by
  simp [alphabetInRange, alphaOf_none]

theorem widthInRange_eq_false {w : BitVec 16} : widthInRange w = false ↔ w.toNat < 1 ∨ 16 < w.toNat := by
  simp [widthInRange]
  omega

theorem registerAssigned_eq_false {n : Nat} {reg : BitVec 16} :
    registerAssigned n reg = false ↔ Reg.ofNumber n reg = none := by
  simp [registerAssigned]

/-- A command checks its operand values before anything else (R74). -/
theorem exec_of_not_wellFormed {i : Instr} {s : State} (h : i.WellFormed s.nBsr = false) :
    exec i s = .next (s.raise (.illegalCommand i.opcode .operand)) := by
  cases i with
  | regRead reg => simp only [exec, execRegRead, registerAssigned_eq_false.mp h]; rfl
  | bsrOpen k base len => exact if_pos (instanceInRange_eq_false.mp h)
  | dssOpen k base len totd => exact if_pos (instanceInRange_eq_false.mp h)
  | bsrRestart k =>
    simp only [exec, execBsrRestart, State.reader_eq_none.mpr (instanceInRange_eq_false.mp h)]; rfl
  | bsrRead k w =>
    obtain hk | hw := Bool.and_eq_false_iff.mp h
    · simp only [exec, execBsrRead, State.reader_eq_none.mpr (instanceInRange_eq_false.mp hk)]; rfl
    · simp only [exec, execBsrRead]
      split
      · rfl
      · exact if_pos (widthInRange_eq_false.mp hw)
  | alphaBind alpha => simp only [exec, execAlphaBind, alphabetInRange_eq_false.mp h]; rfl
  | symGet alpha => simp only [exec, execSymGet, alphabetInRange_eq_false.mp h]; rfl
  | symDur alpha => simp only [exec, execSymDur, alphabetInRange_eq_false.mp h]; rfl
  | emitSym alpha => simp only [exec, execEmitSym, alphabetInRange_eq_false.mp h]; rfl
  | _ => cases h

/-- Settles O51: the command raises IllegalCommand with cause 1, by `exec_of_not_wellFormed`. -/
theorem operandsOutOfRangeAreIllegal : Obligations.OperandsOutOfRangeAreIllegal := by
  intro i s h
  rw [exec_of_not_wellFormed h, State.raise_illegalCommand]
  rfl

/-! ## Responses (R23, R78) -/

/-- Settles O49: each way a command ends gives one response, and its effect gives none. -/
theorem everyCommandReturnsOneResponse : Obligations.EveryCommandReturnsOneResponse := by
  intro i s t h
  cases exec_cases h with
  | raised => exact ⟨0, rfl, fun _ => rfl⟩
  | finished => exact ⟨0, rfl, fun _ => rfl⟩
  | completed v s' hE =>
    obtain ⟨-, -, -, -, -, -, hresp⟩ := hE.frame_eq
    exact ⟨v, by simp [hresp], fun hne => absurd rfl hne⟩

/-! ## Output records (R80, R81) -/

theorem RecordKind.bits_inj {k k' : RecordKind} (h : k.bits.toNat = k'.bits.toNat) : k = k' := by
  revert h; cases k <;> cases k' <;> decide

theorem Level.bit_inj {l l' : Level} (h : l.bit.toNat = l'.bit.toNat) : l = l' := by
  rw [← l.ofBit_bit, BitVec.eq_of_toNat_eq h, l'.ofBit_bit]

/-- The fields of a word do not overlap, so it determines the record. -/
theorem OutRecord.word_inj {r r' : OutRecord} (h : r.word = r'.word) : r = r' := by
  have hword := congrArg BitVec.toNat h
  rw [OutRecord.word_toNat, OutRecord.word_toNat] at hword
  obtain ⟨k, d, l⟩ := r
  obtain ⟨k', d', l'⟩ := r'
  have hd := d.isLt
  have hd' := d'.isLt
  have hl := l.bit.isLt
  have hl' := l'.bit.isLt
  simp only at hword
  obtain rfl : k = k' := RecordKind.bits_inj (by omega)
  obtain rfl : l = l' := Level.bit_inj (by omega)
  obtain rfl : d = d' := BitVec.eq_of_toNat_eq (by omega)
  rfl

/-- `e'` is `e` after an emission: records are appended, and a CORRECTIVE among them has duration 0 (R38, R81). -/
def Emitter.Appends (e e' : Emitter) : Prop :=
  ∃ records, e'.out = e.out ++ records ∧ ∀ r ∈ records, r.kind = .corrective → r.duration = 0

theorem Emitter.Appends.of_out_eq {e e' : Emitter} (h : e'.out = e.out) : e.Appends e' :=
  ⟨[], by simp [h], nofun⟩

theorem Emitter.Appends.after {e e' : Emitter} (h : e.Appends e') (ps : List (BitVec 16 × PolRule)) :
    e.Appends (e'.after ps) := by
  obtain ⟨rs, hout, hrs⟩ := h
  refine ⟨rs ++ renderRecords e'.level ps, by simp [Emitter.after, hout], fun r hr => ?_⟩
  obtain hr | hr := List.mem_append.mp hr
  · exact hrs r hr
  · exact renderRecords_corrective _ _ r hr

theorem Emitter.Appends.silence {e e' : Emitter} (h : e.Appends e') (ms : BitVec 16) : e.Appends (e'.silence ms) := by
  obtain ⟨rs, hout, hrs⟩ := h
  refine ⟨rs ++ pauseRecords e'.level ms, by simp [Emitter.silence_eq, hout], fun r hr => ?_⟩
  obtain hr | hr := List.mem_append.mp hr
  · exact hrs r hr
  · exact fun hk => absurd ((pauseRecords_kind _ _ r hr).symm.trans hk) (by decide)

/-- Every command's emission is made of pulses and pauses. -/
theorem Effect.appends {i : Instr} {s t : State} (h : Effect i s t) : s.emitter.Appends t.emitter := by
  have hself : s.emitter.Appends s.emitter := .of_out_eq rfl
  cases h with
  | emit => rw [Emitter.emitPulse_eq]; exact hself.after _
  | emitSym => rw [Emitter.emitSymbol_eq]; exact hself.after _
  | silence => exact hself.silence _
  | decodeBlock =>
    simp only [State.commitBlock, Header.emitBlock_eq]
    exact ((Emitter.Appends.of_out_eq (e' := s.emitter.clearCounters) rfl).after _).silence _
  | _ => exact .of_out_eq (by simp)

/-- Settles O39: the kinds and levels one by one, the word by `OutRecord.word_toNat`, and the records a command appends by
`Effect.appends`. -/
theorem outputRecordWord : Obligations.OutputRecordWord := by
  refine ⟨⟨rfl, rfl, rfl, fun k => by cases k <;> decide, rfl, rfl⟩, fun r => ?_, fun _ _ => OutRecord.word_inj,
    fun i s t h => ?_⟩
  · rw [OutRecord.word_toNat]
    ring
  · cases exec_cases h with
    | raised | finished => exact Emitter.Appends.of_out_eq rfl
    | completed v s' hE => exact hE.appends

end Machine

end Sys2Proof

end

/-! Control: the reserved bits of every row, the two ways a command ends as the statements write them, the frames of
the control commands, and the register map. -/

section

namespace Sys2Proof

/-! ## Frames with their high operand fields only (R71) -/

theorem encode_regRead (n : BitVec 16) : encode (.regRead n) = 0x02#8 ++ 0#8 ++ n ++ 0#96 := by
  apply BitVec.eq_of_toNat_eq
  simp only [encode, encodeFields, Instr.operandFields, Instr.opcode, Fields.toFrame, toNat_append_add,
    BitVec.ofNat_eq_ofNat, BitVec.toNat_ofNat]
  omega

theorem encode_lvlSet (l : Level) : encode (.lvlSet l) = 0x01#8 ++ 0#7 ++ l.bit ++ 0#112 := by
  cases l <;> decide

theorem encode_cfgWrite : ∀ b : BitVec 1, encode (.cfgWrite b) = 0x03#8 ++ 0#7 ++ b ++ 0#112 := by
  decide

/-! ## The rows of the opcode table by their OP (R72, R73) -/

/-- A frame that matches a row has the OP of its pattern: every mask holds the whole OP. -/
theorem OpcodeRow.Matches.op_eq {r : OpcodeRow} (hr : r ∈ opcodeTable) {f : Frame} (h : r.Matches f) :
    r.pattern.extractLsb' 120 8 = f.extractLsb' 120 8 := by
  have hmask : ∀ r ∈ opcodeTable, r.mask.extractLsb' 120 8 = BitVec.allOnes 8 := by decide
  rw [← h, BitVec.extractLsb'_and, hmask r hr, BitVec.and_allOnes]

/-- No two rows have one OP. -/
theorem opcodeTable_op_inj {r r' : OpcodeRow} (hr : r ∈ opcodeTable) (hr' : r' ∈ opcodeTable)
    (h : r.pattern.extractLsb' 120 8 = r'.pattern.extractLsb' 120 8) : r = r' :=
  List.inj_on_of_nodup_map (f := fun r : OpcodeRow => r.pattern.extractLsb' 120 8) (by decide) hr hr' h

namespace Machine

/-- The reserved bits of a row are refused: a frame of its OP that does not match it matches no row. -/
theorem reservedBitsRefused_of_mem (name : String) {op : BitVec 8} {mask : Frame}
    (hrow : ⟨name, op ++ 0#120, mask⟩ ∈ opcodeTable) : ReservedBitsRefused op mask := by
  rintro s f rest hs rfl hf
  have hnone : ∀ r ∈ opcodeTable, ¬ r.Matches f := fun r hr hmatch => by
    have hop : r.pattern.extractLsb' 120 8 = (f.extractLsb' 120 8 ++ 0#120).extractLsb' 120 8 :=
      (hmatch.op_eq hr).trans BitVec.extractLsb'_append_eq_left.symm
    obtain rfl := opcodeTable_op_inj hr hrow hop
    exact hf hmatch
  rw [frameWithoutACommandIsIllegal s f rest hs hnone, ← Fields.ofFrame_op_toNat, BitVec.ofNat_toNat]
  rfl

/-! ## How a command ends, as the statements write it -/

theorem State.complete_eq_answered (s : State) (v : Word) : s.complete v = s.answered .ok v := rfl

theorem State.raise_unsupported (s : State) (op : BitVec 8) :
    s.raise (.unsupported op) = s.failed .unsupported (BitVec.ofNat 64 op.toNat) := by
  rw [State.failed, ← info_unsupported]
  rfl

/-! ## The control commands (R100, R101, R103 to R105) -/

section
variable (s : State)

theorem exec_nop : exec .nop s = .next (s.answered .ok 0) := rfl

theorem exec_lvlSet (l : Level) :
    exec (.lvlSet l) s = .next (State.answered { s with emitter := { s.emitter with level := l } } .ok 0) := rfl

theorem exec_warnClear : exec .warnClear s = .next (State.answered { s with warn := 0 } .ok 0) := rfl

theorem exec_cntClear : exec .cntClear s = .next (State.answered { s with emitter := s.emitter.clearCounters } .ok 0) :=
  rfl

theorem exec_cfgWrite_zero : exec (.cfgWrite 0) s = .next (State.answered { s with cfg := 0 } .ok 0) := rfl

theorem exec_cfgWrite_one : exec (.cfgWrite 1) s = .next (s.failed .unsupported 0x03) :=
  congrArg Host.Outcome.next (s.raise_unsupported 0x03)

end

/-- Settles O11: each command by its rule, the reserved bits by its row. -/
theorem controlCommandsComplete : Obligations.ControlCommandsComplete := fun s =>
  ⟨⟨by decide, exec_nop s⟩, fun l => ⟨encode_lvlSet l, exec_lvlSet s l⟩, ⟨by decide, exec_warnClear s⟩,
    ⟨by decide, exec_cntClear s⟩, reservedBitsRefused_of_mem "NOP" (by decide),
    reservedBitsRefused_of_mem "LVL_SET" (by decide), reservedBitsRefused_of_mem "WARN_CLEAR" (by decide),
    reservedBitsRefused_of_mem "CNT_CLEAR" (by decide)⟩

/-- Settles O12: the two operand values, and the reserved bits by the row. -/
theorem cfgWriteRefusesBitPackedPrle : Obligations.CfgWriteRefusesBitPackedPrle := fun s =>
  ⟨encode_cfgWrite, reservedBitsRefused_of_mem "CFG_WRITE" (by decide), exec_cfgWrite_zero s, exec_cfgWrite_one s⟩

end Machine

/-! ## The register map (R37) -/

/-- The numbers below 0x100 that R37 assigns. -/
abbrev Reg.FixedNumber (n : Nat) : Prop :=
  n ≤ 0x00C ∨ (0x010 ≤ n ∧ n ≤ 0x012) ∨ (0x014 ≤ n ∧ n ≤ 0x016) ∨ (0x020 ≤ n ∧ n ≤ 0x023) ∨ (0x030 ≤ n ∧ n ≤ 0x034)

/-- Any number but the fixed ones names a register of a reader, or none. -/
theorem Reg.ofNumber_of_not_fixed (nBsr : Nat) {n : BitVec 16} (h : ¬ Reg.FixedNumber n.toNat) :
    Reg.ofNumber nBsr n =
      if n.toNat < 0x100 then none else Reg.ofReaderNumber nBsr ((n.toNat - 0x100) / 4) ((n.toNat - 0x100) % 4) := by
  unfold Reg.ofNumber
  split
  case h_29 => rfl
  all_goals exact absurd (by decide) h

/-- A reader has three registers, if there is such a reader (R36). -/
theorem Reg.ofReaderNumber_eq_none {nBsr i k : Nat} : Reg.ofReaderNumber nBsr i k = none ↔ nBsr ≤ i ∨ 3 ≤ k := by
  by_cases hi : nBsr ≤ i
  · simp [Reg.ofReaderNumber, hi]
  · match k with
    | 0 | 1 | 2 => simp [Reg.ofReaderNumber, hi]
    | k + 3 => simp [Reg.ofReaderNumber]

/-- Number 0x100 + 4i + k names register k of reader i (R36): for at most 16 readers it fits the 16-bit field. -/
theorem Reg.ofNumber_reader {nBsr n i k : Nat} {r : Reg} (hm : nBsr ≤ 16) (h : Reg.ofReaderNumber nBsr i k = some r)
    (hn : n = 0x100 + 4 * i + k) : Reg.ofNumber nBsr (BitVec.ofNat 16 n) = some r := by
  have hin : ¬ (nBsr ≤ i ∨ 3 ≤ k) := by rw [← Reg.ofReaderNumber_eq_none, h]; exact Option.some_ne_none r
  have htoNat : (BitVec.ofNat 16 n).toNat = n := by rw [BitVec.toNat_ofNat]; omega
  rw [Reg.ofNumber_of_not_fixed nBsr (by rw [htoNat]; omega), htoNat, if_neg (by omega),
    show (n - 0x100) / 4 = i by omega, show (n - 0x100) % 4 = k by omega, h]

/-- A number that is neither fixed nor of a reader's three registers is unassigned. -/
theorem Reg.ofNumber_eq_none {nBsr : Nat} {n : BitVec 16} (hfixed : ¬ Reg.FixedNumber n.toNat)
    (hreader : ∀ i k, i < nBsr → k < 3 → n.toNat ≠ 0x100 + 4 * i + k) : Reg.ofNumber nBsr n = none := by
  rw [Reg.ofNumber_of_not_fixed nBsr hfixed]
  split
  · rfl
  · rw [Reg.ofReaderNumber_eq_none]
    by_contra! hin
    exact hreader _ _ hin.1 hin.2 (by omega)

namespace Machine

/-! ## REG_READ (R102) -/

section
variable {s : State}

/-- REG_READ of an assigned number answers its register as it was before the command. -/
theorem exec_regRead_of_assigned {n : BitVec 16} {r : Reg} {v : Nat} (hn : Reg.ofNumber s.nBsr n = some r)
    (hv : s.readReg r = BitVec.ofNat 64 v) : exec (.regRead n) s = .next (s.answered .ok (BitVec.ofNat 64 v)) := by
  simp only [exec, execRegRead, hn, hv, State.complete_eq_answered]

/-- REG_READ of an unassigned number is IllegalCommand with cause 1. -/
theorem exec_regRead_of_unassigned {n : BitVec 16} (hn : Reg.ofNumber s.nBsr n = none) :
    exec (.regRead n) s = .next (s.failed .illegalCommand 0x102) := by
  rw [exec_of_not_wellFormed (i := .regRead n) (registerAssigned_eq_false.mpr hn), State.raise_illegalCommand]
  rfl

/-- A field of a reader that exists. -/
theorem State.readerField_of_getElem? {i : Nat} {r : Bsr} (h : s.bsr[i]? = some r) (field : Bsr → Word) :
    s.readerField i field = field r := by
  simp only [State.readerField, State.reader_eq, h]

/-- The three registers of a reader that exists (R36). -/
theorem exec_regRead_reader (hm : s.nBsr ≤ 16) {i : Nat} {r : Bsr} (hr : s.bsr[i]? = some r) :
    exec (.regRead (BitVec.ofNat 16 (0x100 + 4 * i))) s = .next (s.answered .ok (BitVec.ofNat 64 r.base.toNat)) ∧
    exec (.regRead (BitVec.ofNat 16 (0x101 + 4 * i))) s = .next (s.answered .ok (BitVec.ofNat 64 r.len.toNat)) ∧
    exec (.regRead (BitVec.ofNat 16 (0x102 + 4 * i))) s = .next (s.answered .ok (BitVec.ofNat 64 r.cursor.toNat)) := by
  have hi : ¬ s.nBsr ≤ i := Nat.not_le.mpr (List.getElem?_eq_some_iff.mp hr).1
  have hfield {w : Nat} (x : Bsr → BitVec w) :
      s.readerField i (fun r => (x r).setWidth 64) = BitVec.ofNat 64 (x r).toNat := by
    rw [State.readerField_of_getElem? hr, BitVec.ofNat_toNat]
  exact ⟨exec_regRead_of_assigned (Reg.ofNumber_reader (k := 0) hm (if_neg hi) (by omega)) (hfield Bsr.base),
    exec_regRead_of_assigned (Reg.ofNumber_reader (k := 1) hm (if_neg hi) (by omega)) (hfield Bsr.len),
    exec_regRead_of_assigned (Reg.ofNumber_reader (k := 2) hm (if_neg hi) (by omega)) (hfield Bsr.cursor)⟩

/-- REG_READ of a number whose register is the word of `x`, zero-extended (R41). -/
theorem exec_regRead_setWidth {n : BitVec 16} {r : Reg} (hn : Reg.ofNumber s.nBsr n = some r) {w : Nat} (x : BitVec w)
    (hx : s.readReg r = x.setWidth 64) : exec (.regRead n) s = .next (s.answered .ok (BitVec.ofNat 64 x.toNat)) :=
  exec_regRead_of_assigned hn (hx.trans (BitVec.ofNat_toNat ..).symm)

/-- The low register of `TOTAL_DUR` (R29). -/
theorem State.readReg_totalDurLo :
    s.readReg .totalDurLo = BitVec.ofNat 64 (s.emitter.totalDur.toNat % 2 ^ 64) := by
  apply BitVec.eq_of_toNat_eq
  simp [State.readReg]

/-- The high register of `TOTAL_DUR` (R29). -/
theorem State.readReg_totalDurHi :
    s.readReg .totalDurHi = BitVec.ofNat 64 (s.emitter.totalDur.toNat / 2 ^ 64) := by
  apply BitVec.eq_of_toNat_eq
  simp only [State.readReg, BitVec.toNat_setWidth, BitVec.extractLsb'_toNat, Nat.shiftRight_eq_div_pow,
    BitVec.toNat_ofNat]
  omega

end

/-- Settles O13: the fixed numbers register by register, the readers' by `exec_regRead_reader`, and every other number
is unassigned by `Reg.ofNumber_eq_none`. -/
theorem registerReadsFollowTheMap : Obligations.RegisterReadsFollowTheMap := by
  intro s hm
  refine ⟨encode_regRead, reservedBitsRefused_of_mem "REG_READ" (by decide), ?_, ?_,
    fun i r hr => exec_regRead_reader hm hr, fun n h₁ h₂ h₃ h₄ h₅ hreader =>
      exec_regRead_of_unassigned (Reg.ofNumber_eq_none (by omega) hreader)⟩
  · refine ⟨exec_regRead_of_assigned (r := .level) rfl ?_, exec_regRead_of_assigned (r := .lastStatus) rfl ?_,
      exec_regRead_setWidth rfl s.errInfo (BitVec.setWidth_eq _).symm, exec_regRead_setWidth rfl s.warn rfl,
      exec_regRead_setWidth rfl s.cfg rfl, exec_regRead_setWidth rfl s.emitter.pulseCount (BitVec.setWidth_eq _).symm,
      exec_regRead_setWidth rfl s.emitter.parity rfl, exec_regRead_of_assigned rfl State.readReg_totalDurLo,
      exec_regRead_of_assigned rfl State.readReg_totalDurHi, exec_regRead_setWidth rfl s.blkPause rfl,
      exec_regRead_setWidth rfl s.blkSize (BitVec.setWidth_eq _).symm, exec_regRead_of_assigned rfl rfl,
      exec_regRead_of_assigned rfl rfl⟩
    · rw [State.readReg]; cases s.emitter.level <;> rfl
    · rw [State.readReg]; cases s.lastStatus <;> rfl
  · exact ⟨exec_regRead_setWidth rfl s.alphaPilot.base rfl, exec_regRead_setWidth rfl s.alphaPilot.count rfl,
      exec_regRead_setWidth rfl s.alphaPilot.maxp rfl, exec_regRead_setWidth rfl s.alphaData.base rfl,
      exec_regRead_setWidth rfl s.alphaData.count rfl, exec_regRead_setWidth rfl s.alphaData.maxp rfl,
      exec_regRead_setWidth rfl s.prle.base rfl, exec_regRead_setWidth rfl s.prle.totp rfl,
      exec_regRead_setWidth rfl s.prle.next rfl, exec_regRead_setWidth rfl s.prle.asp rfl,
      exec_regRead_setWidth rfl s.dss.inst rfl, exec_regRead_setWidth rfl s.dss.totd rfl,
      exec_regRead_setWidth rfl s.dss.bps rfl, exec_regRead_setWidth rfl s.dss.asd rfl,
      exec_regRead_setWidth rfl s.dss.produced rfl⟩

end Machine

end Sys2Proof

end

/-! Alphabet: the symbols of a table and their warnings, the frames of the alphabet commands, and what each of them
answers. -/

section

namespace Sys2Proof

/-! ## Frames (R71, R120, R126, R127) -/

/-- A frame whose B packs two 8-bit operands, the first in its low byte. -/
theorem Fields.toFrame_bytes (op a hi lo : BitVec 8) (c d e : BitVec 32) :
    Fields.toFrame ⟨op, a, hi ++ lo, c, d, e⟩ = op ++ a ++ hi ++ lo ++ c ++ d ++ e := by
  apply BitVec.eq_of_toNat_eq
  simp only [Fields.toFrame, toNat_append_add]
  omega

/-- The fields C, D and E of a command without 32-bit operands. -/
theorem append_zero_words (x : BitVec 32) : (x ++ 0#32 ++ 0#32 ++ 0#32 : Frame) = x ++ 0#96 := by
  apply BitVec.eq_of_toNat_eq
  simp only [toNat_append_add, BitVec.toNat_ofNat]
  omega

theorem encode_alphaBind (alpha count maxp : BitVec 8) (base len : BitVec 32) :
    encode (.alphaBind alpha count maxp base len) = 0x20#8 ++ alpha ++ maxp ++ count ++ base ++ len ++ 0#32 :=
  Fields.toFrame_bytes ..

theorem encode_symGet (alpha idx : BitVec 8) :
    encode (.symGet alpha idx) = 0x21#8 ++ alpha ++ 0#8 ++ idx ++ 0#96 :=
  (Fields.toFrame_bytes ..).trans (append_zero_words _)

theorem encode_symDur (alpha idx slot : BitVec 8) :
    encode (.symDur alpha idx slot) = 0x22#8 ++ alpha ++ slot ++ idx ++ 0#96 :=
  (Fields.toFrame_bytes ..).trans (append_zero_words _)

namespace Machine

/-! ## The symbols of a table (R121 to R125) -/

/-- Settles O21: the active pulses are the slots that `takeWhile` keeps. -/
theorem activeCountIsTheFirstZeroSlot : Obligations.ActiveCountIsTheFirstZeroSlot := fun t m idx =>
  ⟨t.activeCount_le m idx, t.slot_ne_zero m idx, t.slot_eq_zero m idx, t.activePulses_eq m idx⟩

/-- The rule is the low two bits of the flag (R83, R121). -/
theorem SymTable.rule_bits_toNat (t : SymTable) (m : Memory) (idx : Nat) :
    (t.rule m idx).bits.toNat = (t.flag m idx).toNat % 4 := by
  rw [SymTable.rule, polRuleOf, PolRule.bits_ofBits, BitVec.extractLsb'_toNat]
  rfl

/-- Settles O22: a slot by `SymTable.slot_toNat`, the rule by its bits, and the whole record in the region by
`SymTable.symAddr_end_le`. -/
theorem symbolFieldsLieInTheRecord : Obligations.SymbolFieldsLieInTheRecord := by
  intro d m idx j a
  have hend (h : idx < d.count.toNat) :
      a + (1 + 2 * d.maxp.toNat) ≤ d.base.toNat + d.count.toNat * (1 + 2 * d.maxp.toNat) :=
    d.table.symAddr_end_le h
  refine ⟨rfl, ?_, d.table.rule_bits_toNat m idx, ⟨rfl, rfl, rfl, rfl⟩, fun h => ?_, fun h hj => ?_⟩
  · rw [show a + 2 + 2 * j = a + 1 + 2 * j + 1 by omega]
    exact d.table.slot_toNat m idx j
  · have := hend h
    omega
  · have := hend h
    omega

/-- Settles O23: the packed bits by the four cases of the two conditions. -/
theorem warningConditions : Obligations.WarningConditions := by
  intro t m idx
  refine ⟨t.flagWarn_iff m idx, t.zeroTailWarn_iff m idx, ?_⟩
  rw [SymTable.warnBits, toNat_append_add]
  cases t.flagWarn m idx <;> cases t.zeroTailWarn m idx <;> rfl

/-! ## The warnings of a whole table (R236) -/

theorem SymTable.getLsbD_warnBits_zero (t : SymTable) (m : Memory) (idx : Nat) :
    (t.warnBits m idx).getLsbD 0 = t.flagWarn m idx := by
  rw [SymTable.warnBits, BitVec.getLsbD_append]
  simp

theorem SymTable.getLsbD_warnBits_one (t : SymTable) (m : Memory) (idx : Nat) :
    (t.warnBits m idx).getLsbD 1 = t.zeroTailWarn m idx := by
  rw [SymTable.warnBits, BitVec.getLsbD_append]
  simp

/-- A bit of words or-ed together is set when it was set at the start or is set in one of them. -/
theorem getLsbD_foldl_or {α : Type} {n : Nat} (f : α → BitVec n) (k : Nat) (as : List α) (w : BitVec n) :
    (as.foldl (fun w a => w ||| f a) w).getLsbD k = true ↔
      w.getLsbD k = true ∨ ∃ a ∈ as, (f a).getLsbD k = true := by
  induction as generalizing w with
  | nil => simp
  | cons a as ih => simp [ih, or_assoc]

theorem SymTable.getLsbD_allWarnBits (t : SymTable) (m : Memory) (k : Nat) :
    (t.allWarnBits m).getLsbD k = true ↔ ∃ idx, idx < t.count ∧ (t.warnBits m idx).getLsbD k = true := by
  rw [SymTable.allWarnBits, getLsbD_foldl_or]
  simp

/-- Settles O43: a bit of the table's warnings is that bit of some symbol's. -/
theorem blockExaminesEverySymbol : Obligations.BlockExaminesEverySymbol := by
  intro t m
  simp only [SymTable.getLsbD_allWarnBits, SymTable.getLsbD_warnBits_zero, SymTable.getLsbD_warnBits_one, and_self]

/-! ## The errors of the alphabet commands as the statements write them (R263) -/

theorem State.raise_badRegion (s : State) (sum : Nat) :
    s.raise (.badRegion sum) = s.failed .badRegion (BitVec.ofNat 64 sum) := rfl

theorem State.raise_truncatedStream_bytes (s : State) {size : Nat} (h : size < 2 ^ 63) :
    s.raise (.truncatedStream size .bytes) = s.failed .truncatedStream (BitVec.ofNat 64 size) := by
  have hinfo : (CmdError.truncatedStream size .bytes).info = BitVec.ofNat 64 size :=
    (info_truncatedStream size h .bytes).trans (by rw [ExtentUnit.bit]; simp)
  rw [State.failed, ← hinfo]
  rfl

theorem State.raise_invalidAlphabetSize (s : State) (a : AlphaSel) :
    s.raise (.invalidAlphabetSize a) = s.failed .invalidAlphabetSize (BitVec.ofNat 64 a.bit.toNat) := by
  rw [State.failed, ← info_invalidAlphabetSize]
  rfl

theorem State.raise_outOfRange (s : State) (v : BitVec 8) (k : RangeKind) :
    s.raise (.outOfRange v k) = s.failed .outOfRange (BitVec.ofNat 64 (256 * k.bit.toNat + v.toNat)) := by
  rw [State.failed, ← info_outOfRange]
  rfl

theorem alphabetInRange_of_one_lt {alpha : BitVec 8} (h : 1 < alpha.toNat) : alphabetInRange alpha = false :=
  alphabetInRange_eq_false.mpr (alphaOf_none.mpr h)

/-! ## ALPHA_BIND (R120) -/

theorem exists_alphaOf {alpha : BitVec 8} (h : alpha.toNat ≤ 1) : ∃ a, alphaOf alpha = some a :=
  Option.ne_none_iff_exists'.mp fun hn => absurd (alphaOf_none.mp hn) (Nat.not_lt.mpr h)

/-- The symbols of an alphabet are far fewer bytes than an extent has room for (R263). -/
theorem symbolsSize_lt (count maxp : BitVec 8) : count.toNat * symbolBytes maxp.toNat < 2 ^ 63 := by
  have hle : count.toNat * symbolBytes maxp.toNat ≤ 255 * (1 + 2 * 255) :=
    Nat.mul_le_mul (by omega) (by unfold symbolBytes; omega)
  omega

section
variable {s : State} {alpha count maxp : BitVec 8} {base len : BitVec 32} {a : AlphaSel}

theorem exec_alphaBind_of_badRegion (ha : alphaOf alpha = some a) (hr : ¬ s.hasRegion base.toNat len.toNat) :
    exec (.alphaBind alpha count maxp base len) s =
      .next (s.failed .badRegion (BitVec.ofNat 64 (base.toNat + len.toNat))) := by
  simp only [exec, execAlphaBind, ha]
  rw [if_pos hr, State.raise_badRegion]

theorem exec_alphaBind_of_truncated (ha : alphaOf alpha = some a) (hr : s.hasRegion base.toNat len.toNat)
    (hs : len.toNat < count.toNat * symbolBytes maxp.toNat) :
    exec (.alphaBind alpha count maxp base len) s =
      .next (s.failed .truncatedStream (BitVec.ofNat 64 (count.toNat * symbolBytes maxp.toNat))) := by
  simp only [exec, execAlphaBind, ha]
  rw [if_neg (not_not.mpr hr), if_pos hs, State.raise_truncatedStream_bytes _ (symbolsSize_lt count maxp)]

theorem exec_alphaBind_of_fits (ha : alphaOf alpha = some a) (hr : s.hasRegion base.toNat len.toNat)
    (hs : count.toNat * symbolBytes maxp.toNat ≤ len.toNat) :
    exec (.alphaBind alpha count maxp base len) s =
      .next ((s.setAlpha a ⟨base, count, maxp⟩).answered .ok 0) := by
  simp only [exec, execAlphaBind, ha]
  rw [if_neg (not_not.mpr hr), if_neg (Nat.not_lt.mpr hs), State.complete_eq_answered]

end

/-- Settles O24: one case of ALPHA_BIND for each outcome. -/
theorem alphaBindBindsTheAlphabet : Obligations.AlphaBindBindsTheAlphabet := by
  intro s alpha count maxp base len size
  refine ⟨encode_alphaBind alpha count maxp base len, reservedBitsRefused_of_mem "ALPHA_BIND" (by decide),
    fun h => operandsOutOfRangeAreIllegal (.alphaBind alpha count maxp base len) s (alphabetInRange_of_one_lt h),
    fun h hr => ?_, fun h hr hs => ?_, fun h hr hs => ?_, fun h hr hs => ?_⟩
  · obtain ⟨a, ha⟩ := exists_alphaOf h
    exact exec_alphaBind_of_badRegion ha (Nat.not_le.mpr hr)
  · obtain ⟨a, ha⟩ := exists_alphaOf h
    exact exec_alphaBind_of_truncated ha hr hs
  · exact exec_alphaBind_of_fits (alphaOf_bit (a := .pilot) h) hr hs
  · exact exec_alphaBind_of_fits (alphaOf_bit (a := .data) h) hr hs

/-! ## SYM_GET and SYM_DUR (R126, R127) -/

/-- The commands that answer a field of symbol `idx`; their first checks are the same (R126, R127). -/
inductive AsksSymbol (alpha idx : BitVec 8) : Instr → Prop where
  | symGet : AsksSymbol alpha idx (.symGet alpha idx)
  | symDur (slot) : AsksSymbol alpha idx (.symDur alpha idx slot)

section
variable {s : State} {alpha idx slot : BitVec 8} {a : AlphaSel} (ha : alpha.toNat = a.bit.toNat)
include ha

theorem AsksSymbol.exec_of_empty {i : Instr} (hi : AsksSymbol alpha idx i) (h : (s.alpha a).count = 0) :
    exec i s = .next (s.failed .invalidAlphabetSize (alpha.setWidth 64)) := by
  have hc : (s.alpha a).table.count = 0 := congrArg BitVec.toNat h
  rw [← BitVec.ofNat_toNat, ha, ← State.raise_invalidAlphabetSize]
  cases hi with
  | symGet =>
    simp only [exec, execSymGet, alphaOf_bit ha]
    exact if_pos hc
  | symDur =>
    simp only [exec, execSymDur, alphaOf_bit ha]
    exact if_pos hc

theorem AsksSymbol.exec_of_count_le {i : Instr} (hi : AsksSymbol alpha idx i) (h0 : (s.alpha a).count ≠ 0)
    (h : (s.alpha a).count.toNat ≤ idx.toNat) :
    exec i s = .next (s.failed .outOfRange (idx.setWidth 64)) := by
  have hc : (s.alpha a).table.count ≠ 0 := fun hn => h0 (BitVec.eq_of_toNat_eq hn)
  have hinfo : idx.setWidth 64 = BitVec.ofNat 64 (256 * RangeKind.index.bit.toNat + idx.toNat) := by
    rw [RangeKind.bit, ← BitVec.ofNat_toNat]
    simp
  rw [hinfo, ← State.raise_outOfRange]
  cases hi with
  | symGet =>
    simp only [exec, execSymGet, alphaOf_bit ha]
    exact (if_neg hc).trans (if_pos h)
  | symDur =>
    simp only [exec, execSymDur, alphaOf_bit ha]
    exact (if_neg hc).trans (if_pos h)

theorem exec_symGet_of_lt (h : idx.toNat < (s.alpha a).table.count)
    (hr : s.hasRegion ((s.alpha a).table.symAddr idx.toNat) (symbolBytes (s.alpha a).table.maxp)) :
    exec (.symGet alpha idx) s =
      .next ((s.examine (s.alpha a).table idx.toNat).answered .ok
        (symbolSummary (s.alpha a).table s.mem idx.toNat)) := by
  simp only [exec, execSymGet, alphaOf_bit ha]
  rw [if_neg (Nat.ne_zero_of_lt h), if_neg (Nat.not_le.mpr h), State.reading_of_region s hr,
    State.complete_eq_answered]

theorem exec_symDur_of_maxp_le (h : idx.toNat < (s.alpha a).table.count) (hj : (s.alpha a).table.maxp ≤ slot.toNat) :
    exec (.symDur alpha idx slot) s = .next (s.failed .outOfRange (BitVec.ofNat 64 (0x100 + slot.toNat))) := by
  simp only [exec, execSymDur, alphaOf_bit ha]
  rw [if_neg (Nat.ne_zero_of_lt h), if_neg (Nat.not_le.mpr h), if_pos hj, State.raise_outOfRange]
  rfl

theorem exec_symDur_of_lt (h : idx.toNat < (s.alpha a).table.count) (hj : slot.toNat < (s.alpha a).table.maxp)
    (hr : s.hasRegion ((s.alpha a).table.symAddr idx.toNat + 1 + 2 * slot.toNat) 2) :
    exec (.symDur alpha idx slot) s =
      .next (s.answered .ok (BitVec.ofNat 64 ((s.alpha a).table.slot s.mem idx.toNat slot.toNat).toNat)) := by
  simp only [exec, execSymDur, alphaOf_bit ha]
  rw [if_neg (Nat.ne_zero_of_lt h), if_neg (Nat.not_le.mpr h), if_neg (Nat.not_le.mpr hj),
    State.reading_of_region s hr, State.complete_eq_answered, BitVec.ofNat_toNat]

end

/-- Settles O25: the checks shared with SYM_DUR, and the answer by `symbolSummary_eq`; the record is in memory because
it ends no later than the alphabet. -/
theorem symGetAnswersTheSymbol : Obligations.SymGetAnswersTheSymbol := by
  intro s alpha idx
  refine ⟨encode_symGet alpha idx, reservedBitsRefused_of_mem "SYM_GET" (by decide),
    fun h => operandsOutOfRangeAreIllegal (.symGet alpha idx) s (alphabetInRange_of_one_lt h), fun a ha => ?_⟩
  refine ⟨AsksSymbol.symGet.exec_of_empty ha, AsksSymbol.symGet.exec_of_count_le ha, fun h hr => ?_⟩
  rw [exec_symGet_of_lt ha h (((s.alpha a).table.symAddr_end_le h).trans hr),
    symbolSummary_eq _ _ _ (s.alpha a).maxp.isLt]
  rfl

/-- Settles O26: the checks shared with SYM_GET, then the slot's; the slot is in memory because the record that holds it
ends no later than the alphabet. -/
theorem symDurAnswersTheSlot : Obligations.SymDurAnswersTheSlot := by
  intro s alpha idx slot
  refine ⟨encode_symDur alpha idx slot, reservedBitsRefused_of_mem "SYM_DUR" (by decide),
    fun h => operandsOutOfRangeAreIllegal (.symDur alpha idx slot) s (alphabetInRange_of_one_lt h), fun a ha => ?_⟩
  refine ⟨(AsksSymbol.symDur slot).exec_of_empty ha, (AsksSymbol.symDur slot).exec_of_count_le ha,
    exec_symDur_of_maxp_le ha, fun h hj hr => exec_symDur_of_lt ha h hj ?_⟩
  have hend : (s.alpha a).table.symAddr idx.toNat + (1 + 2 * (s.alpha a).maxp.toNat) ≤ s.memSize :=
    ((s.alpha a).table.symAddr_end_le h).trans hr
  rw [State.hasRegion]
  omega

end Machine

end Sys2Proof

end

/-! Bitstream: the frames of the reader commands, what each of them answers, and the laws of reading. -/

section

namespace Sys2Proof

/-! ## Frames (R71, R141 to R143) -/

/-- The fields B to E of a command whose only operand is in A. -/
theorem append_zero_half_words (x : BitVec 16) : (x ++ 0#16 ++ 0#32 ++ 0#32 ++ 0#32 : Frame) = x ++ 0#112 := by
  apply BitVec.eq_of_toNat_eq
  simp only [toNat_append_add, BitVec.toNat_ofNat]
  omega

theorem encode_bsrOpen (inst : BitVec 8) (base len : BitVec 32) :
    encode (.bsrOpen inst base len) = 0x10#8 ++ inst ++ 0#16 ++ base ++ len ++ 0#32 := rfl

theorem encode_bsrRestart (inst : BitVec 8) : encode (.bsrRestart inst) = 0x11#8 ++ inst ++ 0#112 :=
  append_zero_half_words _

theorem encode_bsrRead (inst : BitVec 8) (width : BitVec 16) :
    encode (.bsrRead inst width) = 0x12#8 ++ inst ++ width ++ 0#96 :=
  append_zero_words _

namespace Machine

/-! ## Illegal operands (R74) -/

/-- BSR_READ checks the reader and the width. -/
theorem bsrRead_wellFormed_eq_false {n : Nat} {inst : BitVec 8} {width : BitVec 16} :
    (Instr.bsrRead inst width).WellFormed n = false ↔ n ≤ inst.toNat ∨ width.toNat < 1 ∨ 16 < width.toNat := by
  rw [Instr.WellFormed, Bool.and_eq_false_iff, widthInRange_eq_false, instanceInRange, decide_eq_false_iff_not,
    Nat.not_lt]

/-! ## BSR_OPEN (R141) and BSR_RESTART (R142) -/

section
variable {s : State} {inst : BitVec 8}

theorem exec_bsrOpen_of_badRegion {base len : BitVec 32} (hi : inst.toNat < s.nBsr)
    (hr : ¬ s.hasRegion base.toNat len.toNat) :
    exec (.bsrOpen inst base len) s =
      .next (s.failed .badRegion (BitVec.ofNat 64 (base.toNat + len.toNat))) := by
  rw [exec, execBsrOpen, if_neg (Nat.not_le.mpr hi), if_pos hr, State.raise_badRegion]

theorem exec_bsrOpen_of_region {base len : BitVec 32} (hi : inst.toNat < s.nBsr)
    (hr : s.hasRegion base.toNat len.toNat) :
    exec (.bsrOpen inst base len) s = .next ((s.setReader inst.toNat ⟨base, len, 0⟩).answered .ok 0) := by
  rw [exec, execBsrOpen, if_neg (Nat.not_le.mpr hi), if_neg (not_not.mpr hr), State.complete_eq_answered]

theorem exec_bsrRestart_of_reader {r : Bsr} (hr : s.bsr[inst.toNat]? = some r) :
    exec (.bsrRestart inst) s = .next ((s.setReader inst.toNat { r with cursor := 0 }).answered .ok 0) := by
  simp only [exec, execBsrRestart, State.reader_eq, hr, State.complete_eq_answered]

end

/-- Settles O16: the reader is checked first, then the region. -/
theorem bsrOpenBindsTheInstance : Obligations.BsrOpenBindsTheInstance := fun s inst base len =>
  ⟨encode_bsrOpen inst base len, reservedBitsRefused_of_mem "BSR_OPEN" (by decide),
    fun h => operandsOutOfRangeAreIllegal (.bsrOpen inst base len) s (instanceInRange_eq_false.mpr h),
    fun hi hr => exec_bsrOpen_of_badRegion hi (Nat.not_le.mpr hr), exec_bsrOpen_of_region⟩

/-- Settles O17: a reader that exists is rewound. -/
theorem bsrRestartRewindsTheInstance : Obligations.BsrRestartRewindsTheInstance := fun s inst =>
  ⟨encode_bsrRestart inst, reservedBitsRefused_of_mem "BSR_RESTART" (by decide),
    fun h => operandsOutOfRangeAreIllegal (.bsrRestart inst) s (instanceInRange_eq_false.mpr h),
    fun _ => exec_bsrRestart_of_reader⟩

/-! ## The cursor of a reader (R140, R143) -/

/-- The reader after `w` more bits of its buffer. -/
def Bsr.advance (r : Bsr) (w : Nat) : Bsr := { r with cursor := BitVec.ofNat 35 (r.cursor.toNat + w) }

@[simp] theorem Bsr.advance_base (r : Bsr) (w : Nat) : (r.advance w).base = r.base := rfl

@[simp] theorem Bsr.advance_len (r : Bsr) (w : Nat) : (r.advance w).len = r.len := rfl

/-- A cursor inside its buffer does not wrap. -/
theorem Bsr.advance_cursor_toNat {r : Bsr} {w : Nat} (h : r.cursor.toNat + w ≤ 8 * r.len.toNat) :
    (r.advance w).cursor.toNat = r.cursor.toNat + w := by
  rw [Bsr.advance, BitVec.toNat_ofNat]
  omega

theorem Bsr.advance_advance (r : Bsr) (v w : Nat) : (r.advance v).advance w = r.advance (v + w) := by
  simp only [Bsr.advance, Bsr.mk.injEq, true_and]
  apply BitVec.eq_of_toNat_eq
  simp only [BitVec.toNat_ofNat]
  omega

/-- The bytes of a code lie in the reader's buffer, so they are in memory with it (R56). -/
theorem Bsr.hasRegion_code {s : State} {r : Bsr} {w : Nat} (hr : s.hasRegion r.base.toNat r.len.toNat)
    (hfit : r.cursor.toNat + w ≤ 8 * r.len.toNat) :
    s.hasRegion (r.base.toNat + r.cursor.toNat / 8) (codeBytes r.cursor.toNat w) := by
  rw [State.hasRegion, codeBytes]
  omega

/-! ## BSR_READ (R143) -/

/-- TruncatedStream with an extent in bits sets bit 63 (R263). -/
theorem State.raise_truncatedStream_bits (s : State) {extent : Nat} (h : extent < 2 ^ 63) :
    s.raise (.truncatedStream extent .bits) = s.failed .truncatedStream (BitVec.ofNat 64 (2 ^ 63 + extent)) := by
  have hinfo : (CmdError.truncatedStream extent .bits).info = BitVec.ofNat 64 (2 ^ 63 + extent) :=
    info_truncatedStream extent h .bits
  rw [State.failed, ← hinfo]
  rfl

section
variable {s : State} {inst : BitVec 8} {width : BitVec 16} {r : Bsr}

theorem exec_bsrRead_of_illegal (h : s.nBsr ≤ inst.toNat ∨ width.toNat < 1 ∨ 16 < width.toNat) :
    exec (.bsrRead inst width) s = .next (s.failed .illegalCommand 0x112) :=
  operandsOutOfRangeAreIllegal (.bsrRead inst width) s (bsrRead_wellFormed_eq_false.mpr h)

section
variable (hr : s.bsr[inst.toNat]? = some r) (hw : ¬ (width.toNat < 1 ∨ 16 < width.toNat))
include hr hw

theorem exec_bsrRead_of_truncated (ht : 8 * r.len.toNat < r.cursor.toNat + width.toNat) :
    exec (.bsrRead inst width) s =
      .next (s.failed .truncatedStream (BitVec.ofNat 64 (2 ^ 63 + (r.cursor.toNat + width.toNat)))) := by
  simp only [exec, execBsrRead, State.reader_eq, hr]
  rw [if_neg hw, if_pos ht, State.raise_truncatedStream_bits _ (by omega)]

/-- A read with enough bits goes on if its bytes are in memory. -/
theorem exec_bsrRead_of_fits (hfit : r.cursor.toNat + width.toNat ≤ 8 * r.len.toNat) :
    exec (.bsrRead inst width) s =
      s.reading (r.base.toNat + r.cursor.toNat / 8) (codeBytes r.cursor.toNat width.toNat)
        (.next ((s.setReader inst.toNat (r.advance width.toNat)).answered .ok
          (BitVec.ofNat 64 (s.mem.code r.base.toNat r.cursor.toNat width.toNat)))) := by
  simp only [exec, execBsrRead, State.reader_eq, hr]
  rw [if_neg hw, if_neg (Nat.not_lt.mpr hfit)]
  rfl

theorem exec_bsrRead_of_region (hfit : r.cursor.toNat + width.toNat ≤ 8 * r.len.toNat)
    (hreg : s.hasRegion r.base.toNat r.len.toNat) :
    exec (.bsrRead inst width) s = .next ((s.setReader inst.toNat (r.advance width.toNat)).answered .ok
      (BitVec.ofNat 64 (s.mem.code r.base.toNat r.cursor.toNat width.toNat))) := by
  rw [exec_bsrRead_of_fits hr hw hfit, State.reading_of_region s (Bsr.hasRegion_code hreg hfit)]

end

end

/-- Settles O18: one case of BSR_READ for each outcome; the new cursor is `Bsr.advance`'s. -/
theorem bsrReadDeliversTheCode : Obligations.BsrReadDeliversTheCode := by
  intro s inst width
  refine ⟨encode_bsrRead inst width, reservedBitsRefused_of_mem "BSR_READ" (by decide),
    fun h => exec_bsrRead_of_illegal (.inl h), fun r hr => ?_⟩
  refine ⟨fun h => exec_bsrRead_of_illegal (.inr h), fun h1 h2 ht => ?_, fun h1 h2 hfit hreg => ?_⟩
  · exact exec_bsrRead_of_truncated hr (by omega) ht
  · exact ⟨(r.advance width.toNat).cursor, Bsr.advance_cursor_toNat hfit,
      exec_bsrRead_of_region hr (by omega) hfit hreg⟩

/-! ## Splitting (R145) -/

/-- Two commands that answer run one after the other (R60). -/
theorem runCommands_pair {i j : Instr} {s t u : State} (hi : exec i s = .next t) (hj : exec j t = .next u) :
    runCommands [i, j] s = .next u := by
  simp only [runCommands, hi, hj]

/-- Settles O19: the first read leaves the reader on the second's bits, and the code of all the bits is the first's
shifted past the second's. -/
theorem readsSplit : Obligations.ReadsSplit := by
  intro s inst w1 w2 r hr hreg h1 h2 hsum hfit
  have hwidth : (w1 + w2).toNat = w1.toNat + w2.toNat := BitVec.toNat_add_of_lt (by omega)
  have hcursor : (r.advance w1.toNat).cursor.toNat = r.cursor.toNat + w1.toNat :=
    Bsr.advance_cursor_toNat (by omega)
  have hfirst := exec_bsrRead_of_region (width := w1) hr (by omega) (by omega) hreg
  have hsecond := exec_bsrRead_of_region (width := w2) (inst := inst) (r := r.advance w1.toNat)
    (s := (s.setReader inst.toNat (r.advance w1.toNat)).answered .ok
      (BitVec.ofNat 64 (s.mem.code r.base.toNat r.cursor.toNat w1.toNat)))
    (List.getElem?_set_self (List.getElem?_eq_some_iff.mp hr).1) (by omega) (by rw [hcursor]; exact hfit) hreg
  have hsingle := exec_bsrRead_of_region (width := w1 + w2) hr (by omega) (by omega) hreg
  refine ⟨s.mem.code r.base.toNat r.cursor.toNat w1.toNat,
    s.mem.code r.base.toNat (r.cursor.toNat + w1.toNat) w2.toNat, _, _,
    runCommands_pair hfirst hsecond, hsingle, ?_, ?_, Memory.code_lt .., Memory.code_lt .., ?_⟩
  · simp [hcursor]
  · simp [hwidth, Memory.code_add]
  · simp [hwidth, Bsr.advance_advance]

/-! ## Independence (R144) -/

/-- The effect of a reader command naming `inst` writes that reader only. -/
theorem Effect.getElem?_bsr_of_ne {i : Instr} {s t : State} {inst : BitVec 8} {base len : BitVec 32}
    {width : BitVec 16} {j : Nat} (h : Effect i s t)
    (hi : i = .bsrOpen inst base len ∨ i = .bsrRestart inst ∨ i = .bsrRead inst width) (hj : j ≠ inst.toNat) :
    t.bsr[j]? = s.bsr[j]? := by
  obtain rfl | rfl | rfl := hi
  all_goals
    cases h
    exact List.getElem?_set_ne hj.symm

/-- BSR_READ checks and answers alike in two states with the same `BSR[i]` and the same bytes: the conditions of its
three outcomes, and the code, are about those alone. -/
theorem exec_bsrRead_congr {s s' t t' : State} {inst : BitVec 8} {width : BitVec 16}
    (hr : s.bsr[inst.toNat]? = s'.bsr[inst.toNat]?) (hm : ∀ a, s.mem.byte a = s'.mem.byte a)
    (h : exec (.bsrRead inst width) s = .next t) (h' : exec (.bsrRead inst width) s' = .next t') :
    t.responses.getLast? = t'.responses.getLast? ∧ t.bsr[inst.toNat]? = t'.bsr[inst.toNat]? := by
  by_cases hill : s.nBsr ≤ inst.toNat ∨ width.toNat < 1 ∨ 16 < width.toNat
  · have hn : s.nBsr ≤ inst.toNat ↔ s'.nBsr ≤ inst.toNat := by
      rw [← State.reader_eq_none, ← State.reader_eq_none, State.reader_eq, State.reader_eq, hr]
    rw [exec_bsrRead_of_illegal hill] at h
    rw [exec_bsrRead_of_illegal (by rwa [← hn])] at h'
    cases h
    cases h'
    exact ⟨by simp, hr⟩
  obtain ⟨hi, hw⟩ := not_or.mp hill
  obtain ⟨r, hs⟩ : ∃ r, s.bsr[inst.toNat]? = some r := ⟨_, List.getElem?_eq_getElem (Nat.not_le.mp hi)⟩
  have hs' := hr.symm.trans hs
  obtain ht | hfit := Nat.lt_or_ge (8 * r.len.toNat) (r.cursor.toNat + width.toNat)
  · rw [exec_bsrRead_of_truncated hs hw ht] at h
    rw [exec_bsrRead_of_truncated hs' hw ht] at h'
    cases h
    cases h'
    exact ⟨by simp, hr⟩
  · rw [exec_bsrRead_of_fits hs hw hfit] at h
    rw [exec_bsrRead_of_fits hs' hw hfit] at h'
    obtain ⟨-, ⟨⟩⟩ := State.reading_next h
    obtain ⟨-, ⟨⟩⟩ := State.reading_next h'
    have hcode := Memory.code_congr s.mem s'.mem r.base.toNat r.cursor.toNat width.toNat fun _ _ => hm _
    exact ⟨by simp [hcode], by simp [List.getElem?_set_self', hr]⟩

/-- Settles O20: an error writes no reader and a completed command only the one it names; BSR_READ by
`exec_bsrRead_congr`. -/
theorem readerInstancesAreIndependent : Obligations.ReaderInstancesAreIndependent := by
  refine ⟨fun s t inst base len width i hi h j hj => ?_, fun _ _ _ _ _ _ => exec_bsrRead_congr⟩
  cases exec_cases h with
  | raised | finished => rfl
  | completed v s' hE => exact hE.getElem?_bsr_of_ne hi hj

end Machine

end Sys2Proof

end

/-! Run-length decoder: the frames of its commands, the packed entry, and what each command answers. -/

section

namespace Sys2Proof

/-! ## Frames (R71, R162 to R164) -/

/-- The fields A and B of a command whose operands are in C, D and E. -/
theorem append_zero_byte_half (op : BitVec 8) (c d e : BitVec 32) :
    (op ++ 0#8 ++ 0#16 ++ c ++ d ++ e : Frame) = op ++ 0#24 ++ c ++ d ++ e := by
  apply BitVec.eq_of_toNat_eq
  simp only [toNat_append_add, BitVec.toNat_ofNat]
  omega

theorem encode_prleOpen (base len totp : BitVec 32) :
    encode (.prleOpen base len totp) = 0x30#8 ++ 0#24 ++ base ++ len ++ totp :=
  append_zero_byte_half ..

namespace Machine

/-! ## PRLE_OPEN (R162) -/

section
variable {s : State} {base len totp : BitVec 32}

theorem exec_prleOpen_of_badRegion (hr : ¬ s.hasRegion base.toNat len.toNat) :
    exec (.prleOpen base len totp) s =
      .next (s.failed .badRegion (BitVec.ofNat 64 (base.toNat + len.toNat))) := by
  rw [exec, execPrleOpen, if_pos hr, State.raise_badRegion]

theorem exec_prleOpen_of_empty (hr : s.hasRegion base.toNat len.toNat) (ht : 0 < totp.toNat)
    (ha : s.alphaPilot.count = 0) :
    exec (.prleOpen base len totp) s = .next (s.failed .invalidAlphabetSize 0) := by
  rw [exec, execPrleOpen, if_neg (not_not.mpr hr), if_pos ⟨ht, ha⟩, State.raise_invalidAlphabetSize]
  rfl

section
variable (hr : s.hasRegion base.toNat len.toNat) (ha : totp.toNat = 0 ∨ s.alphaPilot.count ≠ 0)
include hr ha

theorem exec_prleOpen_of_truncated (hs : len.toNat < 3 * totp.toNat) :
    exec (.prleOpen base len totp) s =
      .next (s.failed .truncatedStream (BitVec.ofNat 64 (3 * totp.toNat))) := by
  rw [exec, execPrleOpen, if_neg (not_not.mpr hr), if_neg (not_and_or.mpr (ha.imp_left (by omega))), if_pos hs,
    State.raise_truncatedStream_bytes _ (by omega)]

theorem exec_prleOpen_of_fits (hs : 3 * totp.toNat ≤ len.toNat) :
    exec (.prleOpen base len totp) s =
      .next (State.answered { s with prle := ⟨base, totp, 0, s.alphaPilot.count⟩ } .ok 0) := by
  rw [exec, execPrleOpen, if_neg (not_not.mpr hr), if_neg (not_and_or.mpr (ha.imp_left (by omega))),
    if_neg (Nat.not_lt.mpr hs), State.complete_eq_answered]

end

end

/-- Settles O27: one case of PRLE_OPEN for each outcome. -/
theorem prleOpenBindsTheStream : Obligations.PrleOpenBindsTheStream := fun s base len totp =>
  ⟨encode_prleOpen base len totp, reservedBitsRefused_of_mem "PRLE_OPEN" (by decide),
    fun hr => exec_prleOpen_of_badRegion (Nat.not_le.mpr hr), exec_prleOpen_of_empty, exec_prleOpen_of_truncated,
    exec_prleOpen_of_fits⟩

/-! ## Entries (R84, R161) -/

/-- The repeat count of an entry by its two bytes (R161). -/
theorem entryRep_toNat (m : Memory) (b k : Nat) :
    (entryRep m b k).toNat = (m.byte (b + 3 * k + 1)).toNat + 256 * (m.byte (b + 3 * k + 2)).toNat := by
  have hlt : m.read (b + 3 * k + 1) 2 < 2 ^ 16 := m.read_lt _ 2
  rw [entryRep, BitVec.toNat_ofNat, Nat.mod_eq_of_lt hlt]
  rfl

/-- The packed response of PRLE_NEXT as a number (R84): the two fields share no bit. -/
theorem packedEntry_eq (sym : BitVec 8) (rep : BitVec 16) :
    sym.setWidth 64 ||| (rep.setWidth 64 <<< 8) = BitVec.ofNat 64 (sym.toNat + 256 * rep.toNat) := by
  have hdisjoint : sym.setWidth 64 &&& (rep.setWidth 64 <<< 8) = 0#64 := by
    ext i hi
    by_cases h : i < 8
    · simp [h]
    · simp [BitVec.getLsbD_of_ge sym i (Nat.not_lt.mp h)]
  apply BitVec.eq_of_toNat_eq
  rw [← BitVec.add_eq_or_of_and_eq_zero _ _ hdisjoint]
  simp only [BitVec.toNat_add, BitVec.toNat_shiftLeft, BitVec.toNat_setWidth, BitVec.toNat_ofNat, Nat.shiftLeft_eq]
  omega

/-! ## PRLE_RESTART (R163) and PRLE_NEXT (R164) -/

/-- InvalidSymbolReference of the pilot alphabet has bit 8 clear (R263). -/
theorem State.raise_invalidSymbolReference_pilot (s : State) (sym : BitVec 8) (k : BitVec 32) :
    s.raise (.invalidSymbolReference sym .pilot k) =
      s.failed .invalidSymbolReference (BitVec.ofNat 64 (sym.toNat + 65536 * k.toNat)) := by
  have hinfo : (CmdError.invalidSymbolReference sym .pilot k).info =
      BitVec.ofNat 64 (sym.toNat + 65536 * k.toNat) := info_invalidSymbolReference sym .pilot k
  rw [State.failed, ← hinfo]
  rfl

section
variable {s : State}

theorem exec_prleRestart :
    exec .prleRestart s = .next (State.answered { s with prle := { s.prle with next := 0 } } .ok 0) := rfl

theorem exec_prleNext_of_end (h : s.prle.next = s.prle.totp) :
    exec .prleNext s = .next (s.answered .endOfStream 0) := by
  simp only [exec, execPrleNext]
  rw [if_pos h]
  rfl

section
variable (hn : s.prle.next ≠ s.prle.totp) (hr : s.hasRegion (s.prle.base.toNat + 3 * s.prle.next.toNat) 3)
include hn hr

theorem exec_prleNext_of_asp_le
    (h : s.prle.asp.toNat ≤ (entrySym s.mem s.prle.base.toNat s.prle.next.toNat).toNat) :
    exec .prleNext s = .next (s.failed .invalidSymbolReference (BitVec.ofNat 64
      ((entrySym s.mem s.prle.base.toNat s.prle.next.toNat).toNat + 65536 * s.prle.next.toNat))) := by
  simp only [exec, execPrleNext]
  rw [if_neg hn, State.reading_of_region s hr, if_pos h, State.raise_invalidSymbolReference_pilot]

theorem exec_prleNext_of_lt_asp
    (h : (entrySym s.mem s.prle.base.toNat s.prle.next.toNat).toNat < s.prle.asp.toNat) :
    exec .prleNext s = .next (State.answered { s with prle := { s.prle with next := s.prle.next + 1 } } .ok
      (BitVec.ofNat 64 ((entrySym s.mem s.prle.base.toNat s.prle.next.toNat).toNat +
        256 * (entryRep s.mem s.prle.base.toNat s.prle.next.toNat).toNat))) := by
  simp only [exec, execPrleNext]
  rw [if_neg hn, State.reading_of_region s hr, if_neg (Nat.not_le.mpr h), packedEntry_eq,
    State.complete_eq_answered]

end

end

/-- Settles O28: one case of PRLE_NEXT for each outcome, the repeat count by its bytes. -/
theorem prleNextDeliversTheEntry : Obligations.PrleNextDeliversTheEntry := by
  intro s
  refine ⟨by decide, by decide, reservedBitsRefused_of_mem "PRLE_RESTART" (by decide),
    reservedBitsRefused_of_mem "PRLE_NEXT" (by decide), exec_prleRestart, exec_prleNext_of_end, fun hn hr => ?_⟩
  refine ⟨exec_prleNext_of_asp_le hn hr, fun h => ?_⟩
  rw [← entryRep_toNat]
  exact exec_prleNext_of_lt_asp hn hr h

end Machine

end Sys2Proof

end

/-! Data-symbol stream: the sizes of its codes and payload, what its commands answer, and a run of DSS_NEXT. -/

section

namespace Sys2Proof.Machine

/-! ## Bits per symbol and payload size (R180, R181) -/

/-- Each row of R180's table is the sizes that its width holds and one bit less does not. -/
theorem bitsPerSymbol_row {asd : Nat} (h2 : 2 < asd) (h : asd ≤ 255) :
    2 ^ (bitsPerSymbol asd - 1) < asd ∧ asd ≤ 2 ^ bitsPerSymbol asd := by
  unfold bitsPerSymbol
  split_ifs <;> omega

theorem bitsPerSymbol_eq_max_clog {asd : Nat} (h : asd ≤ 255) : bitsPerSymbol asd = max 1 (Nat.clog 2 asd) := by
  obtain h2 | h2 := le_or_gt asd 2
  · have hclog : Nat.clog 2 asd ≤ 1 := Nat.clog_le_of_le_pow h2
    rw [bitsPerSymbol, if_pos h2, Nat.max_eq_left hclog]
  · obtain ⟨hlt, hle⟩ := bitsPerSymbol_row h2 h
    have hupper : Nat.clog 2 asd ≤ bitsPerSymbol asd := Nat.clog_le_of_le_pow hle
    have hlower : bitsPerSymbol asd - 1 < Nat.clog 2 asd := (Nat.lt_clog_iff_pow_lt Nat.one_lt_two).mpr hlt
    omega

theorem le_two_pow_bitsPerSymbol {asd : Nat} (h : asd ≤ 255) : asd ≤ 2 ^ bitsPerSymbol asd := by
  rw [bitsPerSymbol_eq_max_clog h]
  exact (Nat.le_pow_clog Nat.one_lt_two asd).trans (Nat.pow_le_pow_right Nat.two_pos (Nat.le_max_right ..))

/-- The payload's bytes hold its codes, and one byte less would not (R181). -/
theorem payloadBytes_bounds (bps totd : Nat) :
    bps * totd ≤ 8 * payloadBytes bps totd ∧ 8 * payloadBytes bps totd < bps * totd + 8 := by
  rw [payloadBytes]
  omega

/-- Settles O30: the table's rows bound the logarithm from both sides. -/
theorem bitsPerSymbolAndPayloadSize : Obligations.BitsPerSymbolAndPayloadSize :=
  ⟨rfl, fun asd _ h => ⟨bitsPerSymbol_eq_max_clog h, le_two_pow_bitsPerSymbol h, bitsPerSymbol_bounds asd⟩,
    payloadBytes_bounds⟩

/-- A payload is far fewer bytes than an extent has room for (R263). -/
theorem payloadBytes_lt {bps : Nat} (h : bps ≤ 8) (totd : BitVec 32) : payloadBytes bps totd.toNat < 2 ^ 63 := by
  have hbits : bps * totd.toNat ≤ 8 * totd.toNat := Nat.mul_le_mul_right _ h
  rw [payloadBytes]
  omega

/-! ## DSS_OPEN (R182) -/

theorem encode_dssOpen (inst : BitVec 8) (base len totd : BitVec 32) :
    encode (.dssOpen inst base len totd) = 0x40#8 ++ inst ++ 0#16 ++ base ++ len ++ totd := rfl

section
variable {s : State} {inst : BitVec 8} {base len totd : BitVec 32} (hi : inst.toNat < s.nBsr)
include hi

theorem exec_dssOpen_of_badRegion (hr : ¬ s.hasRegion base.toNat len.toNat) :
    exec (.dssOpen inst base len totd) s =
      .next (s.failed .badRegion (BitVec.ofNat 64 (base.toNat + len.toNat))) := by
  simp only [exec, execDssOpen]
  rw [if_neg (Nat.not_le.mpr hi), if_pos hr, State.raise_badRegion]

section
variable (hr : s.hasRegion base.toNat len.toNat)
include hr

theorem exec_dssOpen_of_empty (ht : 0 < totd.toNat) (ha : s.alphaData.count = 0) :
    exec (.dssOpen inst base len totd) s = .next (s.failed .invalidAlphabetSize 1) := by
  simp only [exec, execDssOpen]
  rw [if_neg (Nat.not_le.mpr hi), if_neg (not_not.mpr hr), if_pos ⟨ht, ha⟩, State.raise_invalidAlphabetSize]
  rfl

variable (ha : totd.toNat = 0 ∨ s.alphaData.count ≠ 0)
include ha

theorem exec_dssOpen_of_truncated (hs : len.toNat < payloadBytes (bitsPerSymbol s.alphaData.count.toNat) totd.toNat) :
    exec (.dssOpen inst base len totd) s = .next (s.failed .truncatedStream
      (BitVec.ofNat 64 (payloadBytes (bitsPerSymbol s.alphaData.count.toNat) totd.toNat))) := by
  simp only [exec, execDssOpen]
  rw [if_neg (Nat.not_le.mpr hi), if_neg (not_not.mpr hr), if_neg (not_and_or.mpr (ha.imp_left (by omega))),
    if_pos hs, State.raise_truncatedStream_bytes _ (payloadBytes_lt (bitsPerSymbol_bounds _).2 totd)]

theorem exec_dssOpen_of_fits (hs : payloadBytes (bitsPerSymbol s.alphaData.count.toNat) totd.toNat ≤ len.toNat) :
    exec (.dssOpen inst base len totd) s = .next (State.answered
      { s with
        bsr := s.bsr.set inst.toNat ⟨base, len, 0⟩
        dss := ⟨inst.setWidth 4, totd, BitVec.ofNat 4 (bitsPerSymbol s.alphaData.count.toNat),
          s.alphaData.count, 0⟩ } .ok 0) := by
  simp only [exec, execDssOpen]
  rw [if_neg (Nat.not_le.mpr hi), if_neg (not_not.mpr hr), if_neg (not_and_or.mpr (ha.imp_left (by omega))),
    if_neg (Nat.not_lt.mpr hs)]
  rfl

end

end

/-- Settles O31: one case of DSS_OPEN for each outcome; the reader's number and the width fit in four bits. -/
theorem dssOpenBindsTheStream : Obligations.DssOpenBindsTheStream := by
  intro s inst base len totd hn asd bps need
  refine ⟨encode_dssOpen inst base len totd, reservedBitsRefused_of_mem "DSS_OPEN" (by decide),
    fun h => operandsOutOfRangeAreIllegal (.dssOpen inst base len totd) s (instanceInRange_eq_false.mpr h),
    fun hi hr => exec_dssOpen_of_badRegion hi (Nat.not_le.mpr hr), exec_dssOpen_of_empty,
    exec_dssOpen_of_truncated, fun hi hr ha hs => ?_⟩
  have hbps : bps ≤ 8 := (bitsPerSymbol_bounds asd.toNat).2
  exact ⟨inst.setWidth 4, BitVec.ofNat 4 bps, (BitVec.toNat_setWidth ..).trans (Nat.mod_eq_of_lt (by omega)),
    (BitVec.toNat_ofNat ..).trans (Nat.mod_eq_of_lt (by omega)), exec_dssOpen_of_fits hi hr ha hs⟩

/-! ## DSS_RESTART (R183) and DSS_NEXT (R184) -/

/-- InvalidSymbolReference of the data alphabet has bit 8 set (R263). -/
theorem State.raise_invalidSymbolReference_data (s : State) {idx : Nat} (h : idx < 256) (k : BitVec 32) :
    s.raise (.invalidSymbolReference (BitVec.ofNat 8 idx) .data k) =
      s.failed .invalidSymbolReference (BitVec.ofNat 64 (idx + 256 + 65536 * k.toNat)) := by
  have hinfo : (CmdError.invalidSymbolReference (BitVec.ofNat 8 idx) .data k).info =
      BitVec.ofNat 64 (idx + 256 + 65536 * k.toNat) := by
    rw [info_invalidSymbolReference, BitVec.toNat_ofNat, Nat.mod_eq_of_lt h]
    rfl
  rw [State.failed, ← hinfo]
  rfl

/-- A code of at most eight bits is a byte. -/
theorem Memory.code_lt_256 (m : Memory) (b c : Nat) {w : Nat} (h : w ≤ 8) : m.code b c w < 256 :=
  (m.code_lt b c w).trans_le (Nat.pow_le_pow_right Nat.two_pos h)

section
variable {s : State} {r : Bsr}

theorem exec_dssNext_of_end (h : s.dss.produced = s.dss.totd) :
    exec .dssNext s = .next (s.answered .endOfStream 0) := by
  simp only [exec, execDssNext]
  rw [if_pos h]
  rfl

section
variable (hr : s.bsr[s.dss.inst.toNat]? = some r)
include hr

theorem exec_dssRestart_of_reader :
    exec .dssRestart s = .next (State.answered
      { s with
        bsr := s.bsr.set s.dss.inst.toNat { r with cursor := 0 }
        dss := { s.dss with produced := 0 } } .ok 0) := by
  simp only [exec, execDssRestart, State.reader_eq, hr]
  rfl

variable (hn : s.dss.produced ≠ s.dss.totd)
include hn

theorem exec_dssNext_of_truncated (ht : 8 * r.len.toNat < r.cursor.toNat + s.dss.bps.toNat) :
    exec .dssNext s = .next (s.failed .truncatedStream
      (BitVec.ofNat 64 (2 ^ 63 + (r.cursor.toNat + s.dss.bps.toNat)))) := by
  simp only [exec, execDssNext, State.reader_eq, hr]
  rw [if_neg hn, if_pos ht, State.raise_truncatedStream_bits _ (by omega)]

variable (hfit : r.cursor.toNat + s.dss.bps.toNat ≤ 8 * r.len.toNat) (hreg : s.hasRegion r.base.toNat r.len.toNat)
include hfit hreg

theorem exec_dssNext_of_asd_le (h : s.dss.asd.toNat ≤ s.mem.code r.base.toNat r.cursor.toNat s.dss.bps.toNat)
    (hw : s.dss.bps.toNat ≤ 8) :
    exec .dssNext s = .next (s.failed .invalidSymbolReference (BitVec.ofNat 64
      (s.mem.code r.base.toNat r.cursor.toNat s.dss.bps.toNat + 256 + 65536 * s.dss.produced.toNat))) := by
  simp only [exec, execDssNext, State.reader_eq, hr]
  rw [if_neg hn, if_neg (Nat.not_lt.mpr hfit), State.reading_of_region s (Bsr.hasRegion_code hreg hfit), if_pos h,
    State.raise_invalidSymbolReference_data s (Memory.code_lt_256 _ _ _ hw)]

theorem exec_dssNext_of_lt_asd (h : s.mem.code r.base.toNat r.cursor.toNat s.dss.bps.toNat < s.dss.asd.toNat) :
    exec .dssNext s = .next (State.answered
      { s with
        bsr := s.bsr.set s.dss.inst.toNat (r.advance s.dss.bps.toNat)
        dss := { s.dss with produced := s.dss.produced + 1 } } .ok
      (BitVec.ofNat 64 (s.mem.code r.base.toNat r.cursor.toNat s.dss.bps.toNat))) := by
  simp only [exec, execDssNext, State.reader_eq, hr]
  rw [if_neg hn, if_neg (Nat.not_lt.mpr hfit), State.reading_of_region s (Bsr.hasRegion_code hreg hfit),
    if_neg (Nat.not_le.mpr h)]
  rfl

end

end

/-- Settles O32: one case of DSS_NEXT for each outcome; the new cursor is `Bsr.advance`'s. -/
theorem dssNextDeliversTheIndex : Obligations.DssNextDeliversTheIndex := by
  intro s r hr c w idx
  refine ⟨by decide, by decide, reservedBitsRefused_of_mem "DSS_RESTART" (by decide),
    reservedBitsRefused_of_mem "DSS_NEXT" (by decide), exec_dssRestart_of_reader hr, exec_dssNext_of_end,
    exec_dssNext_of_truncated hr, fun hn hfit hreg => ?_⟩
  exact ⟨exec_dssNext_of_asd_le hr hn hfit hreg, fun h => ⟨(r.advance w).cursor, Bsr.advance_cursor_toNat hfit,
    exec_dssNext_of_lt_asd hr hn hfit hreg h⟩⟩

/-! ## A run of DSS_NEXT (R185) -/

/-- The data code of an index, for the widths R180 gives (R87). -/
theorem dataIndex_toNat (m : Memory) (b : Nat) {bps : Nat} (h : bps ≤ 8) (n : Nat) :
    (dataIndex m b bps n).toNat = m.code b (n * bps) bps :=
  (BitVec.toNat_ofNat ..).trans (Nat.mod_eq_of_lt (m.code_lt_256 _ _ h))

/-- The code of an index, as DSS_NEXT answers it. -/
theorem ofNat_code_eq_dataIndex (m : Memory) (b : Nat) {bps : Nat} (h : bps ≤ 8) (n : Nat) :
    BitVec.ofNat 64 (m.code b (n * bps) bps) = (dataIndex m b bps n).setWidth 64 := by
  rw [← dataIndex_toNat m b h, BitVec.ofNat_toNat]

/-- The first codes of a payload lie in any buffer of its size. -/
theorem codes_fit {bps totd len n : Nat} (hpay : payloadBytes bps totd ≤ len) (hn : n ≤ totd) :
    n * bps ≤ 8 * len := by
  calc n * bps ≤ totd * bps := Nat.mul_le_mul_right bps hn
    _ = bps * totd := Nat.mul_comm ..
    _ ≤ 8 * payloadBytes bps totd := (payloadBytes_bounds bps totd).1
    _ ≤ 8 * len := Nat.mul_le_mul_left 8 hpay

/-- The state `t` of the stream of `s`, which reads through `r` and is at its start, once its first `n` codes are
delivered. -/
structure State.Delivered (s : State) (r : Bsr) (n : Nat) (t : State) : Prop where
  mem : t.mem = s.mem
  memSize : t.memSize = s.memSize
  dss : t.dss = { s.dss with produced := BitVec.ofNat 32 n }
  reader : t.bsr[s.dss.inst.toNat]? = some (r.advance (n * s.dss.bps.toNat))
  responses : t.responses = s.responses ++ (List.range n).map fun k =>
    ⟨.ok, (dataIndex s.mem r.base.toNat s.dss.bps.toNat k).setWidth 64⟩

section
variable {s t : State} {r : Bsr} {n : Nat}

theorem State.Delivered.zero (hr : s.bsr[s.dss.inst.toNat]? = some r) (hp : s.dss.produced = 0) :
    s.Delivered r 0 s where
  mem := rfl
  memSize := rfl
  dss := congrArg (fun p => { s.dss with produced := p }) hp
  reader := by simp [hr, Bsr.advance]
  responses := by simp

theorem State.Delivered.produced_toNat (h : s.Delivered r n t) (hn : n ≤ s.dss.totd.toNat) :
    t.dss.produced.toNat = n := by
  rw [h.dss, BitVec.toNat_ofNat]
  omega

section
variable (hc : r.cursor = 0) (hpay : payloadBytes s.dss.bps.toNat s.dss.totd.toNat ≤ r.len.toNat)
include hc hpay

theorem cursor_after_codes (hn : n ≤ s.dss.totd.toNat) :
    (r.advance (n * s.dss.bps.toNat)).cursor.toNat = n * s.dss.bps.toNat := by
  have hstart : r.cursor.toNat = 0 := congrArg BitVec.toNat hc
  rw [Bsr.advance_cursor_toNat, hstart, Nat.zero_add]
  rw [hstart, Nat.zero_add]
  exact codes_fit hpay hn

variable (hreg : s.hasRegion r.base.toNat r.len.toNat) (hw : s.dss.bps.toNat ≤ 8)
include hreg hw

/-- One more DSS_NEXT delivers the next code: the cursor stands on it, and it lies in the buffer. -/
theorem State.Delivered.succ (h : s.Delivered r n t) (hn : n < s.dss.totd.toNat)
    (hidx : (dataIndex s.mem r.base.toNat s.dss.bps.toNat n).toNat < s.dss.asd.toNat) :
    ∃ u, exec .dssNext t = .next u ∧ s.Delivered r (n + 1) u := by
  have hproduced := h.produced_toNat hn.le
  obtain ⟨hmem, hsize, hdss, hreader, hresp⟩ := h
  obtain ⟨hinst, htotd, hbps, hasd⟩ : t.dss.inst = s.dss.inst ∧ t.dss.totd = s.dss.totd ∧
      t.dss.bps = s.dss.bps ∧ t.dss.asd = s.dss.asd := by simp [hdss]
  have hcursor := cursor_after_codes hc hpay hn.le
  have hmore : t.dss.produced ≠ t.dss.totd := fun heq => by
    rw [heq, htotd] at hproduced
    omega
  have hfit : (r.advance (n * s.dss.bps.toNat)).cursor.toNat + t.dss.bps.toNat ≤ 8 * r.len.toNat := by
    rw [hcursor, hbps, ← Nat.succ_mul]
    exact codes_fit hpay hn
  have hcode : BitVec.ofNat 64 (t.mem.code r.base.toNat (r.advance (n * s.dss.bps.toNat)).cursor.toNat
      t.dss.bps.toNat) = (dataIndex s.mem r.base.toNat s.dss.bps.toNat n).setWidth 64 := by
    rw [hcursor, hmem, hbps, ofNat_code_eq_dataIndex _ _ hw]
  have hnext := exec_dssNext_of_lt_asd (s := t) (r := r.advance (n * s.dss.bps.toNat)) (by rw [hinst, hreader])
    hmore hfit (by rw [State.hasRegion, hsize]; exact hreg)
    (by rw [hcursor, hmem, hbps, hasd, Bsr.advance_base, ← dataIndex_toNat _ _ hw]; exact hidx)
  refine ⟨_, hnext, hmem, hsize, ?_, ?_, ?_⟩
  · simp [hdss, BitVec.ofNat_add]
  · have hlt := (List.getElem?_eq_some_iff.mp hreader).1
    simp [hinst, hbps, hlt, Bsr.advance_advance, Nat.succ_mul]
  · simp [hresp, hcode, List.range_succ]

theorem exists_run_dssNext (hr : s.bsr[s.dss.inst.toNat]? = some r) (hp : s.dss.produced = 0) :
    ∀ n, n ≤ s.dss.totd.toNat →
      (∀ k, k < n → (dataIndex s.mem r.base.toNat s.dss.bps.toNat k).toNat < s.dss.asd.toNat) →
      ∃ t, runCommands (List.replicate n .dssNext) s = .next t ∧ s.Delivered r n t := by
  intro n hn hidx
  induction n with
  | zero => exact ⟨s, rfl, .zero hr hp⟩
  | succ n ih =>
    obtain ⟨t, hrun, ht⟩ := ih (by omega) fun k hk => hidx k (by omega)
    obtain ⟨u, hnext, hu⟩ := ht.succ hc hpay hreg hw hn (hidx n n.lt_succ_self)
    refine ⟨u, ?_, hu⟩
    rw [List.replicate_succ', runCommands_append, hrun]
    simp only [runCommands, hnext]

end

end

/-- Settles O33: induction on the number of commands, with the stream's whole state after each. -/
theorem dssStreamDeliversItsIndicesInOrder : Obligations.DssStreamDeliversItsIndicesInOrder := by
  intro s r n hr hc hp hreg hpay hw hn hidx
  obtain ⟨t, hrun, ht⟩ := exists_run_dssNext hc hpay hreg hw hr hp n hn hidx
  exact ⟨t, hrun, ht.responses, ht.produced_toNat hn, _, ht.reader, cursor_after_codes hc hpay hn⟩

end Sys2Proof.Machine

end

/-! Emitter: the frames of its commands, what each of them appends, the parity law, and the replay of a block by its
component commands. -/

section

namespace Sys2Proof

/-! ## Frames (R71, R207, R208, R210) -/

theorem encode_emit (rule : PolRule) (d : BitVec 16) :
    encode (.emit rule d) = 0x50#8 ++ 0#6 ++ rule.bits ++ d ++ 0#96 := by
  apply BitVec.eq_of_toNat_eq
  simp only [encode, encodeFields, Instr.operandFields, Instr.opcode, Fields.toFrame, toNat_append_add,
    BitVec.ofNat_eq_ofNat, BitVec.toNat_ofNat]
  omega

theorem encode_emitSym (alpha idx : BitVec 8) :
    encode (.emitSym alpha idx) = 0x51#8 ++ alpha ++ 0#8 ++ idx ++ 0#96 :=
  (Fields.toFrame_bytes ..).trans (append_zero_words _)

theorem encode_silence (ms : BitVec 16) : encode (.silence ms) = 0x52#8 ++ 0#8 ++ ms ++ 0#96 :=
  append_zero_words _

namespace Machine

/-! ## EMIT (R207) -/

/-- One pulse by its level, its records and its diagnostics (R200 to R203, R205). -/
theorem Emitter.after_singleton (e : Emitter) (d : BitVec 16) (r : PolRule) :
    e.after [(d, r)] =
      { level := levelAfter e.level r, pulseCount := e.pulseCount + 1, parity := e.parity + 1,
        totalDur := BitVec.ofNat 72 (e.totalDur.toNat + d.toNat), out := e.out ++ pulseRecords e.level d r } := by
  simp [Emitter.after, renderLevel, renderRecords, totalOf, BitVec.ofNat_add]

theorem exec_emit (s : State) (r : PolRule) (d : BitVec 16) :
    exec (.emit r d) s = .next (State.answered { s with emitter := s.emitter.after [(d, r)] } .ok 0) := by
  rw [← Emitter.emitPulse_eq]
  rfl

/-- Settles O34: one pulse by `Emitter.after_singleton`; a rule and a level give its records. -/
theorem emitFollowsThePolarityRule : Obligations.EmitFollowsThePolarityRule := by
  intro s d e emits pulse corrective
  have hemits {rule : PolRule} {l : Level} (h : e.level = l) :
      emits rule (levelAfter l rule) (pulseRecords l d rule) := by
    subst h
    exact (exec_emit s rule d).trans (by rw [Emitter.after_singleton])
  simp only [pulseRecords, ← BitVec.ofNat_toNat] at hemits
  exact ⟨fun rule => encode_emit rule d, reservedBitsRefused_of_mem "EMIT" (by decide), hemits, hemits, hemits rfl,
    hemits, hemits, hemits, hemits⟩

/-! ## EMIT_SYM (R208) -/

section
variable {s : State} {alpha idx : BitVec 8} {a : AlphaSel} (ha : alpha.toNat = a.bit.toNat)
include ha

theorem exec_emitSym_of_empty (h : (s.alpha a).count = 0) :
    exec (.emitSym alpha idx) s = .next (s.failed .invalidAlphabetSize (alpha.setWidth 64)) := by
  have hc : (s.alpha a).table.count = 0 := congrArg BitVec.toNat h
  simp only [exec, execEmitSym, alphaOf_bit ha]
  rw [if_pos hc, State.raise_invalidAlphabetSize, ← ha, BitVec.ofNat_toNat]

theorem exec_emitSym_of_count_le (h0 : (s.alpha a).count ≠ 0) (h : (s.alpha a).count.toNat ≤ idx.toNat) :
    exec (.emitSym alpha idx) s =
      .next (s.failed .invalidSymbolReference (BitVec.ofNat 64 (idx.toNat + 256 * alpha.toNat))) := by
  have hc : (s.alpha a).table.count ≠ 0 := fun hn => h0 (BitVec.eq_of_toNat_eq hn)
  have hinfo : BitVec.ofNat 64 (idx.toNat + 256 * alpha.toNat) = (CmdError.invalidSymbolReference idx a 0).info := by
    rw [info_invalidSymbolReference, ha]
    rfl
  simp only [exec, execEmitSym, alphaOf_bit ha]
  rw [if_neg hc, hinfo]
  exact if_pos h

/-- The symbol's record is in memory because it ends no later than the alphabet (R56, R121). -/
theorem exec_emitSym_of_lt (h : idx.toNat < (s.alpha a).count.toNat) (hr : s.AlphabetValid (s.alpha a)) :
    exec (.emitSym alpha idx) s = .next (State.answered
      { s with
        warn := s.warn ||| (s.alpha a).table.warnBits s.mem idx.toNat
        emitter := s.emitter.after ((s.alpha a).table.pulses s.mem idx.toNat) } .ok
      (BitVec.ofNat 64 ((s.alpha a).table.activeCount s.mem idx.toNat))) := by
  have hrecord : s.hasRegion ((s.alpha a).table.symAddr idx.toNat) (symbolBytes (s.alpha a).table.maxp) :=
    ((s.alpha a).table.symAddr_end_le h).trans hr
  have hlt : idx.toNat < (s.alpha a).table.count := h
  simp only [exec, execEmitSym, alphaOf_bit ha]
  rw [if_neg (Nat.ne_zero_of_lt hlt), if_neg (Nat.not_le.mpr hlt), State.reading_of_region s hrecord,
    Emitter.emitSymbol_eq]
  rfl

end

/-- Settles O35: one case of EMIT_SYM for each outcome. -/
theorem emitSymEmitsTheActivePulses : Obligations.EmitSymEmitsTheActivePulses := fun s alpha idx =>
  ⟨encode_emitSym alpha idx, reservedBitsRefused_of_mem "EMIT_SYM" (by decide),
    fun h => operandsOutOfRangeAreIllegal (.emitSym alpha idx) s (alphabetInRange_of_one_lt h),
    fun _ ha => ⟨exec_emitSym_of_empty ha, exec_emitSym_of_count_le ha, exec_emitSym_of_lt ha⟩⟩

/-! ## SILENCE (R209 to R211) -/

theorem exec_silence (s : State) (ms : BitVec 16) :
    exec (.silence ms) s = .next (State.answered { s with emitter := s.emitter.silence ms } .ok 0) := rfl

theorem pauseRecords_high {ms : BitVec 16} (h : ms ≠ 0) :
    pauseRecords .high ms = [⟨.pause, 1, .high⟩, ⟨.pause, BitVec.ofNat 32 (ms.toNat - 1), .low⟩] := if_neg h

theorem pauseRecords_low {ms : BitVec 16} (h : ms ≠ 0) :
    pauseRecords .low ms = [⟨.pause, BitVec.ofNat 32 ms.toNat, .low⟩] := if_neg h

/-- Settles O36: the pause of `Emitter.silence_eq`, for 0 and at each level. -/
theorem silenceAppendsThePause : Obligations.SilenceAppendsThePause := by
  intro s ms
  refine ⟨encode_silence ms, reservedBitsRefused_of_mem "SILENCE" (by decide), fun h => ?_, fun h hl => ?_,
    fun h hl => ?_⟩
  · rw [exec_silence, Emitter.silence, if_pos h]
  · rw [exec_silence, Emitter.silence_eq, if_neg h, hl, pauseRecords_high h]
  · simp [exec_silence, Emitter.silence_eq, hl, pauseRecords_low h]

/-- The corrective millisecond is part of the pause (R211). -/
theorem pauseRecords_duration_sum (l : Level) (ms : BitVec 16) :
    ((pauseRecords l ms).map fun r => r.duration.toNat).sum = ms.toNat := by
  unfold pauseRecords
  split
  · next h => rw [h]; rfl
  · next h =>
    have hpos : ms.toNat ≠ 0 := fun h0 => h (BitVec.eq_of_toNat_eq h0)
    cases l <;> simp <;> omega

/-- Settles O37: the records are those of the pause. -/
theorem pauseLaws : Obligations.PauseLaws := by
  intro s t ms h
  rw [exec_silence, Emitter.silence_eq] at h
  cases h
  refine ⟨fun hpos => if_neg ?_, fun h0 => ?_, pauseRecords s.emitter.level ms, rfl, pauseRecords_kind _ _,
    pauseRecords_duration_sum _ _⟩
  · rintro rfl
    exact absurd hpos (Nat.lt_irrefl 0)
  · obtain rfl : ms = 0 := BitVec.eq_of_toNat_eq h0
    exact ⟨rfl, List.append_nil _⟩

/-! ## A DECODE_BLOCK that ends with OK (R236) -/

/-- The block passed its checks, and its pulses and its pause are emitted from a clear. -/
theorem decodeBlock_of_ok {s t : State} {base declLen : BitVec 32} (h : exec (.decodeBlock base declLen) s = .next t)
    (hok : t.lastStatus = .ok) :
    s.blockError base.toNat declLen.toNat = none ∧
      t.emitter = (s.emitter.clearCounters.after
        ((readHeader s.mem base.toNat).blockPulses s.mem base.toNat)).silence (readHeader s.mem base.toNat).pause := by
  cases exec_cases h with
  | raised e => cases e <;> cases hok
  | finished => cases hok
  | completed v s' hE =>
    cases hE with
    | decodeBlock _ _ _ hb => exact ⟨hb, Header.emitBlock_eq ..⟩

/-! ## The parity law (R206) -/

/-- The level the toggles since the last clear started from, if there were no other pulses: the level with `PARITY`
taken back. -/
def Emitter.toggleOrigin (e : Emitter) : BitVec 1 := e.level.bit ^^^ e.parity

theorem Emitter.level_bit_eq (e : Emitter) : e.level.bit = e.toggleOrigin ^^^ e.parity := by
  rw [Emitter.toggleOrigin, BitVec.xor_assoc, BitVec.xor_self, BitVec.xor_zero]

theorem Emitter.toggleOrigin_of_parity_zero {e : Emitter} (h : e.parity = 0) : e.toggleOrigin = e.level.bit := by
  rw [Emitter.toggleOrigin, h]
  exact BitVec.xor_zero

/-- A TOGGLE pulse flips the level and `PARITY` together (R200, R205). -/
theorem Emitter.toggleOrigin_after (e : Emitter) {ps : List (BitVec 16 × PolRule)} (h : ∀ p ∈ ps, p.2 = .toggle) :
    (e.after ps).toggleOrigin = e.toggleOrigin := by
  have hcancel : ∀ l p n : BitVec 1, l ^^^ n ^^^ (p + n) = l ^^^ p := by decide
  rw [Emitter.toggleOrigin, Emitter.after, renderLevel_of_toggles ps h]
  exact hcancel ..

/-- A pause that does not write `LEVEL` (R209). -/
theorem Emitter.toggleOrigin_silence (e : Emitter) {ms : BitVec 16} (h : ms = 0 ∨ e.level = .low) :
    (e.silence ms).toggleOrigin = e.toggleOrigin := by
  have hlevel : (if ms = 0 then e.level else .low) = e.level := by
    split
    · rfl
    · next hms => exact (h.resolve_left hms).symm
  rw [Emitter.silence_eq, hlevel]
  rfl

/-- Every command R206 admits keeps the origin. -/
theorem Effect.toggleOrigin_eq {i : Instr} {s t : State} (h : Effect i s t) (hi : s.TogglesOnly i) :
    t.emitter.toggleOrigin = s.emitter.toggleOrigin := by
  cases h with
  | lvlSet | cntClear => cases hi
  | emit _ rule d =>
    obtain rfl : rule = .toggle := hi
    rw [Emitter.emitPulse_eq]
    exact Emitter.toggleOrigin_after _ (by simp)
  | emitSym _ alpha idx a ha hlt =>
    rw [Emitter.emitSymbol_eq]
    exact Emitter.toggleOrigin_after _ (hi a (alphaOf_some ha) hlt)
  | silence => exact Emitter.toggleOrigin_silence _ hi
  | decodeBlock _ base declLen hb => exact absurd hb hi
  | _ => simp

theorem exec_toggleOrigin {i : Instr} {s t : State} (h : exec i s = .next t) (hi : s.TogglesOnly i) :
    t.emitter.toggleOrigin = s.emitter.toggleOrigin := by
  cases exec_cases h with
  | raised | finished => rfl
  | completed v s' hE => exact hE.toggleOrigin_eq hi

theorem runCommands_toggleOrigin {is : List Instr} {s t : State} (his : s.AllToggleOnly is)
    (h : runCommands is s = .next t) : t.emitter.toggleOrigin = s.emitter.toggleOrigin := by
  induction is generalizing s with
  | nil => cases h; rfl
  | cons i is ih =>
    obtain ⟨hi, hrest⟩ := his
    simp only [runCommands] at h
    split at h
    · next u hu => rw [ih (hrest u hu) h, exec_toggleOrigin hu hi]
    · cases h
    · cases h

/-! ## Runs of commands that emit pulses -/

theorem runCommands_singleton (i : Instr) (s : State) : runCommands [i] s = exec i s := by
  simp only [runCommands]
  cases exec i s <;> rfl

/-- `t` has the memory and the alphabets of `s`, which is all that EMIT_SYM reads. -/
structure State.SameSymbols (s t : State) : Prop where
  mem : t.mem = s.mem
  memSize : t.memSize = s.memSize
  alpha : t.alpha = s.alpha

/-- With the memory and the alphabets of `s` the commands run, emit the pulses, and leave both alone. -/
def State.Emits (s : State) (is : List Instr) (ps : List (BitVec 16 × PolRule)) : Prop :=
  ∀ t, s.SameSymbols t → ∃ u, runCommands is t = .next u ∧ s.SameSymbols u ∧ u.emitter = t.emitter.after ps

section
variable {s : State}

theorem State.Emits.nil : s.Emits [] [] := fun t ht => ⟨t, rfl, ht, t.emitter.after_nil.symm⟩

theorem State.Emits.append {is js : List Instr} {ps qs : List (BitVec 16 × PolRule)} (hi : s.Emits is ps)
    (hj : s.Emits js qs) : s.Emits (is ++ js) (ps ++ qs) := by
  intro t ht
  obtain ⟨u, hrun, hu, hemitter⟩ := hi t ht
  obtain ⟨v, hrun', hv, hemitter'⟩ := hj u hu
  refine ⟨v, ?_, hv, ?_⟩
  · rw [runCommands_append, hrun]
    exact hrun'
  · rw [hemitter', hemitter, ← Emitter.after_append]

theorem State.Emits.replicate {i : Instr} {ps : List (BitVec 16 × PolRule)} (h : s.Emits [i] ps) (n : Nat) :
    s.Emits (List.replicate n i) (List.replicate n ps).flatten := by
  induction n with
  | zero => exact .nil
  | succ n ih => exact h.append ih

theorem State.Emits.flatMap {α : Type} {f : α → List Instr} {ps : α → List (BitVec 16 × PolRule)} {as : List α}
    (h : ∀ a ∈ as, s.Emits (f a) (ps a)) : s.Emits (as.flatMap f) (as.flatMap ps) := by
  induction as with
  | nil => exact .nil
  | cons a as ih => exact (h a List.mem_cons_self).append (ih fun b hb => h b (List.mem_cons_of_mem _ hb))

theorem State.Emits.map {α : Type} {f : α → Instr} {ps : α → List (BitVec 16 × PolRule)} {as : List α}
    (h : ∀ a ∈ as, s.Emits [f a] (ps a)) : s.Emits (as.map f) (as.flatMap ps) := by
  rw [List.map_eq_flatMap]
  exact .flatMap h

theorem State.emits_emit (r : PolRule) (d : BitVec 16) : s.Emits [.emit r d] [(d, r)] := by
  rintro t ⟨hmem, hsize, halpha⟩
  exact ⟨_, (runCommands_singleton ..).trans (exec_emit t r d), ⟨hmem, hsize, halpha⟩, rfl⟩

theorem State.emits_emitSym {alpha idx : BitVec 8} {a : AlphaSel} (ha : alpha.toNat = a.bit.toNat)
    (hi : idx.toNat < (s.alpha a).count.toNat) (hr : s.AlphabetValid (s.alpha a)) :
    s.Emits [.emitSym alpha idx] ((s.alpha a).table.pulses s.mem idx.toNat) := by
  rintro t ⟨hmem, hsize, halpha⟩
  have hexec := exec_emitSym_of_lt (s := t) (idx := idx) ha (by rwa [halpha])
    (by rwa [State.AlphabetValid, State.hasRegion, halpha, hsize])
  refine ⟨_, (runCommands_singleton ..).trans hexec, ⟨hmem, hsize, halpha⟩, ?_⟩
  rw [← hmem, ← halpha]

end

/-- Settles O38: every command admitted keeps the origin of the toggles, which at a clear is the level; a block's own
toggles keep it from its clear on. -/
theorem parityLawForToggles : Obligations.ParityLawForToggles := by
  refine ⟨fun s t is _ hparity his h => ?_, ?_, fun s ds hcount hparity => ?_⟩
  · rw [t.emitter.level_bit_eq, runCommands_toggleOrigin his h, Emitter.toggleOrigin_of_parity_zero hparity]
  · intro s s' t base declLen is h ps hexec hok hps hpause his hrun
    obtain ⟨-, hemitter⟩ := decodeBlock_of_ok hexec hok
    rw [t.emitter.level_bit_eq, runCommands_toggleOrigin his hrun, hemitter, Emitter.toggleOrigin_silence _ hpause,
      Emitter.toggleOrigin_after _ hps, Emitter.toggleOrigin_of_parity_zero rfl]
    rfl
  · obtain ⟨t, hrun, -, hemitter⟩ :=
      State.Emits.map (as := ds) (fun d _ => State.emits_emit (s := s) .toggle d) s ⟨rfl, rfl, rfl⟩
    refine ⟨t, hrun, ?_, ?_⟩
    · rw [t.emitter.level_bit_eq, hemitter, Emitter.toggleOrigin_after _ (by simp),
        Emitter.toggleOrigin_of_parity_zero hparity]
    · simp [hemitter, Emitter.after, hcount]

/-! ## The replay of a block by its component commands (R208, R236 to R238) -/

/-- Both alphabets end inside the block (R233). -/
theorem Header.tables_end_le (h : Header) (b : Nat) :
    (h.pilotTable b).base + (h.pilotTable b).count * symbolBytes (h.pilotTable b).maxp ≤ b + h.size ∧
    (h.dataTable b).base + (h.dataTable b).count * symbolBytes (h.dataTable b).maxp ≤ b + h.size := by
  simp only [Header.pilotTable, Header.dataTable, Header.size, Header.payloadOffset, Header.dataOffset,
    Header.prleOffset]
  omega

section
variable {s : State} {b n : Nat} (hb : s.blockError b n = none)
include hb

theorem emits_pilotCommands (hp : s.alphaPilot.table = (readHeader s.mem b).pilotTable b) :
    s.Emits
      ((List.range (readHeader s.mem b).totp).flatMap fun k =>
        List.replicate ((readHeader s.mem b).blockRep s.mem b k).toNat
          (.emitSym 0 ((readHeader s.mem b).blockSym s.mem b k)))
      ((readHeader s.mem b).pilotPulses s.mem b) := by
  obtain ⟨hregion, -, hsize, -, -, hsyms, -⟩ := (s.blockError_eq_none b n _ rfl).mp hb
  have hcount : s.alphaPilot.count.toNat = (readHeader s.mem b).asp := congrArg SymTable.count hp
  have hend := ((readHeader s.mem b).tables_end_le b).1
  rw [← hp, hsize] at hend
  refine .flatMap fun k hk => .replicate ?_ _
  rw [← hp]
  exact State.emits_emitSym (a := .pilot) rfl (hcount ▸ hsyms k (List.mem_range.mp hk)) (hend.trans hregion)

theorem emits_dataCommands (hd : s.alphaData.table = (readHeader s.mem b).dataTable b) :
    s.Emits
      ((List.range (readHeader s.mem b).totd).map fun j => .emitSym 1 ((readHeader s.mem b).blockIndex s.mem b j))
      ((readHeader s.mem b).dataPulses s.mem b) := by
  obtain ⟨hregion, -, hsize, -, -, -, hidx⟩ := (s.blockError_eq_none b n _ rfl).mp hb
  have hcount : s.alphaData.count.toNat = (readHeader s.mem b).asd := congrArg SymTable.count hd
  have hend := ((readHeader s.mem b).tables_end_le b).2
  rw [← hd, hsize] at hend
  refine .map fun j hj => ?_
  rw [← hd]
  exact State.emits_emitSym (a := .data) rfl (hcount ▸ hidx j (List.mem_range.mp hj)) (hend.trans hregion)

end

/-- Settles O47: after the clear the commands emit the pulses of the two phases, and SILENCE the pause, as DECODE_BLOCK
does. -/
theorem componentsComposeIntoTheBlockDecoder : Obligations.ComponentsComposeIntoTheBlockDecoder := by
  intro s t base declLen h hexec hok hp hd
  obtain ⟨hb, hemitter⟩ := decodeBlock_of_ok hexec hok
  obtain ⟨u, hrun, -, hpulses⟩ := (emits_pilotCommands hb hp).append (emits_dataCommands hb hd)
    (State.answered { s with emitter := s.emitter.clearCounters } .ok 0) ⟨rfl, rfl, rfl⟩
  refine ⟨State.answered { u with emitter := u.emitter.silence h.pause } .ok 0, ?_, ?_⟩
  · simp only [runCommands, exec_cntClear]
    rw [Header.componentCommands, runCommands_append, hrun]
    rfl
  · rw [hemitter, hpulses]
    rfl

end Machine

end Sys2Proof

end

/-! Block decoder: the fields and layout of a block, the checks of DECODE_BLOCK, the block it emits, its bounds, and
what it depends on. -/

section

namespace Sys2Proof

/-! ## Frame (R71, R230) -/

theorem encode_decodeBlock (base declLen : BitVec 32) :
    encode (.decodeBlock base declLen) = 0x60#8 ++ 0#24 ++ base ++ declLen ++ 0#32 :=
  append_zero_byte_half ..

namespace Machine

/-! ## Header and layout (R232, R233) -/

theorem Memory.read_one (m : Memory) (a : Nat) : m.read a 1 = (m.byte a).toNat := rfl

theorem Memory.read_two (m : Memory) (a : Nat) :
    m.read a 2 = (m.byte a).toNat + 2 ^ 8 * (m.byte (a + 1)).toNat := rfl

theorem Memory.read_four (m : Memory) (a : Nat) :
    m.read a 4 = (m.byte a).toNat + 2 ^ 8 * (m.byte (a + 1)).toNat + 2 ^ 16 * (m.byte (a + 2)).toNat +
      2 ^ 24 * (m.byte (a + 3)).toNat := by
  simp only [Memory.read, Nat.add_assoc, Nat.reduceAdd]
  omega

theorem readHeader_pause_toNat (m : Memory) (b : Nat) : (readHeader m b).pause.toNat = m.read b 2 :=
  (BitVec.toNat_ofNat ..).trans (Nat.mod_eq_of_lt (m.read_lt b 2))

/-- The data code of an index of a block (R87, R233). -/
theorem Header.blockIndex_toNat (h : Header) (m : Memory) (b n : Nat) :
    (h.blockIndex m b n).toNat = m.code (b + h.payloadOffset) (n * h.bps) h.bps :=
  dataIndex_toNat m _ (bitsPerSymbol_bounds h.asd).2 n

/-- Settles O40: a field is the bytes its read names, an entry its symbol byte and its repeat bytes, and a code has at
most eight bits; the offsets are their definitions. -/
theorem blockHeaderAndLayout : Obligations.BlockHeaderAndLayout := fun m b =>
  ⟨⟨(readHeader_pause_toNat m b).trans (m.read_two b), m.read_four (b + 2), m.read_one (b + 6), m.read_one (b + 7),
      m.read_four (b + 8), m.read_one (b + 12), m.read_one (b + 13)⟩,
    rfl, rfl, rfl, fun k => ⟨rfl, entryRep_toNat m _ k⟩, (readHeader m b).blockIndex_toNat m b⟩

/-! ## The checks (R234) -/

section
variable {s : State} {base declLen : BitVec 32}

theorem exec_decodeBlock_of_blockError {e : CmdError} (h : s.blockError base.toNat declLen.toNat = some e) :
    exec (.decodeBlock base declLen) s = .next (s.raise e) := by
  simp only [exec, execDecodeBlock, h]

theorem State.blockError_of_not_hasRegion {b n : Nat} (h : ¬ s.hasRegion b n) :
    s.blockError b n = some (.badRegion (b + n)) := if_pos h

section
variable {b n : Nat} (hr : s.hasRegion b n)
include hr

theorem State.blockError_of_lt_header (hn : n < 14) : s.blockError b n = some (.truncatedStream 14 .bytes) := by
  rw [State.blockError, if_neg (not_not.mpr hr), if_pos hn]

theorem State.blockError_eq_check (hn : 14 ≤ n) : s.blockError b n = (readHeader s.mem b).check s.mem b n := by
  rw [State.blockError, if_neg (not_not.mpr hr), if_neg (Nat.not_lt.mpr hn)]

end

end

section
variable {h : Header} {m : Memory} {b n : Nat}

theorem Header.check_of_pilot_empty (hp : 0 < h.totp) (ha : h.asp = 0) :
    h.check m b n = some (.invalidAlphabetSize .pilot) := if_pos ⟨hp, ha⟩

section
variable (hp : h.totp = 0 ∨ h.asp ≠ 0)
include hp

theorem Header.check_of_data_empty (hd : 0 < h.totd) (ha : h.asd = 0) :
    h.check m b n = some (.invalidAlphabetSize .data) := by
  rw [Header.check, if_neg (by omega), if_pos ⟨hd, ha⟩]

variable (hd : h.totd = 0 ∨ h.asd ≠ 0)
include hd

theorem Header.check_of_lt_size (hs : n < h.size) : h.check m b n = some (.truncatedStream h.size .bytes) := by
  rw [Header.check, if_neg (by omega), if_neg (by omega), if_pos hs]

theorem Header.check_of_size_lt (hs : h.size < n) : h.check m b n = some (.structuralError h.size) := by
  rw [Header.check, if_neg (by omega), if_neg (by omega), if_neg (by omega), if_pos hs]

variable (hs : h.size = n)
include hs

/-- A block of the declared size is left to the loops of steps 9 and 10, in this order. -/
theorem Header.check_of_size_eq :
    h.check m b n = (firstError (h.entryError m b) h.totp).or (firstError (h.indexError m b) h.totd) := by
  rw [Header.check, if_neg (by omega), if_neg (by omega), if_neg (by omega), if_neg (by omega)]
  cases firstError (h.entryError m b) h.totp <;> rfl

theorem Header.check_of_bad_entry {k : Nat} (hk : k < h.totp)
    (hbefore : ∀ k', k' < k → (h.blockSym m b k').toNat < h.asp) (hbad : h.asp ≤ (h.blockSym m b k).toNat) :
    h.check m b n = some (.invalidSymbolReference (h.blockSym m b k) .pilot (BitVec.ofNat 32 k)) := by
  have hfirst := firstError_eq_some hk (fun k' hlt => (h.entryError_eq_none m b k').mpr (hbefore k' hlt)) (if_pos hbad)
  rw [Header.check_of_size_eq hp hd hs, hfirst]
  rfl

theorem Header.check_of_bad_index {j : Nat} (hj : j < h.totd)
    (hsyms : ∀ k, k < h.totp → (h.blockSym m b k).toNat < h.asp)
    (hbefore : ∀ j', j' < j → (h.blockIndex m b j').toNat < h.asd) (hbad : h.asd ≤ (h.blockIndex m b j).toNat) :
    h.check m b n = some (.invalidSymbolReference (h.blockIndex m b j) .data (BitVec.ofNat 32 j)) := by
  have hnone : firstError (h.entryError m b) h.totp = none :=
    firstError_eq_none.mpr fun k hlt => (h.entryError_eq_none m b k).mpr (hsyms k hlt)
  have hfirst := firstError_eq_some hj (fun j' hlt => (h.indexError_eq_none m b j').mpr (hbefore j' hlt)) (if_pos hbad)
  rw [Header.check_of_size_eq hp hd hs, hnone, Option.none_or]
  exact hfirst

end

end

theorem State.raise_structuralError (s : State) (size : Nat) :
    s.raise (.structuralError size) = s.failed .structuralError (BitVec.ofNat 64 size) := rfl

section
variable (s : State) (x : BitVec 8) {k : Nat} (hk : k < 2 ^ 32)
include hk

theorem State.raise_badEntry : s.raise (.invalidSymbolReference x .pilot (BitVec.ofNat 32 k)) =
    s.failed .invalidSymbolReference (BitVec.ofNat 64 (x.toNat + 65536 * k)) := by
  rw [State.raise_invalidSymbolReference_pilot, BitVec.toNat_ofNat, Nat.mod_eq_of_lt hk]

theorem State.raise_badIndex : s.raise (.invalidSymbolReference x .data (BitVec.ofNat 32 k)) =
    s.failed .invalidSymbolReference (BitVec.ofNat 64 (x.toNat + 256 + 65536 * k)) := by
  have hraise := s.raise_invalidSymbolReference_data x.isLt (BitVec.ofNat 32 k)
  rwa [BitVec.ofNat_toNat, BitVec.setWidth_eq, BitVec.toNat_ofNat, Nat.mod_eq_of_lt hk] at hraise

end

/-- Settles O41: each failing check is the error of its step, the steps before it passed. -/
theorem decodeBlockReportsTheFirstFailingCheck : Obligations.DecodeBlockReportsTheFirstFailingCheck := by
  intro s base declLen b n h fails
  obtain ⟨htotp, -, -, htotd, -, -⟩ := readHeader_bounds s.mem b
  have hraise {e : CmdError} {st : Status} {info : Nat} (he : s.raise e = s.failed st (BitVec.ofNat 64 info))
      (hb : s.blockError b n = some e) : fails st info :=
    (exec_decodeBlock_of_blockError hb).trans (congrArg _ he)
  have hsize := s.raise_truncatedStream_bytes (readHeader_size_lt s.mem b)
  refine ⟨reservedBitsRefused_of_mem "DECODE_BLOCK" (by decide),
    fun hr => hraise (s.raise_badRegion _) (State.blockError_of_not_hasRegion (Nat.not_le.mpr hr)),
    fun hr hn => hraise (s.raise_truncatedStream_bytes (by decide)) (State.blockError_of_lt_header hr hn),
    fun hr hn => ?_⟩
  have hcheck {e : CmdError} {st : Status} {info : Nat} (he : s.raise e = s.failed st (BitVec.ofNat 64 info))
      (hc : h.check s.mem b n = some e) : fails st info :=
    hraise he ((State.blockError_eq_check hr hn).trans hc)
  refine ⟨fun ht ha => hcheck (s.raise_invalidAlphabetSize .pilot) (Header.check_of_pilot_empty ht ha),
    fun hp ht ha => hcheck (s.raise_invalidAlphabetSize .data) (Header.check_of_data_empty hp ht ha),
    fun hp hd => ⟨fun hs => hcheck hsize (Header.check_of_lt_size hp hd hs),
      fun hs => hcheck (s.raise_structuralError _) (Header.check_of_size_lt hp hd hs),
      fun hs => ⟨fun k hk hbefore hbad => ?_, fun j hj hsyms hbefore hbad => ?_⟩⟩⟩
  · exact hcheck (s.raise_badEntry _ (hk.trans htotp)) (Header.check_of_bad_entry hp hd hs hk hbefore hbad)
  · exact hcheck (s.raise_badIndex _ (hj.trans htotd)) (Header.check_of_bad_index hp hd hs hj hsyms hbefore hbad)

/-! ## The block emitted (R236 to R238) -/

/-- The emission of a block from its entry level: the counters start at 0, and `OUT` and `LEVEL` go on. -/
theorem Header.emitBlock_eq_render (h : Header) (m : Memory) (b : Nat) (e : Emitter) :
    h.emitBlock m b e =
      { level := if h.pause = 0 then renderLevel e.level (h.blockPulses m b) else .low
        pulseCount := BitVec.ofNat 64 (h.blockPulses m b).length
        parity := BitVec.ofNat 1 (h.blockPulses m b).length
        totalDur := BitVec.ofNat 72 (totalOf (h.blockPulses m b))
        out := e.out ++ renderRecords e.level (h.blockPulses m b) ++
          pauseRecords (renderLevel e.level (h.blockPulses m b)) h.pause } := by
  rw [Header.emitBlock_eq, Emitter.silence_eq]
  simp [Emitter.after]

theorem exec_decodeBlock_of_blockError_none {s : State} {base declLen : BitVec 32}
    (h : s.blockError base.toNat declLen.toNat = none) :
    exec (.decodeBlock base declLen) s = .next ((s.commitBlock base.toNat).answered .ok
      (BitVec.ofNat 64 ((readHeader s.mem base.toNat).blockPulses s.mem base.toNat).length)) := by
  simp only [exec, execDecodeBlock, h, State.complete_eq_answered, State.commitBlock, Header.emitBlock_eq_render]

/-- Settles O42: a block as stated passes its checks, and its size is the declared one. -/
theorem decodeBlockEmitsTheWholeBlock : Obligations.DecodeBlockEmitsTheWholeBlock := by
  intro s base declLen b h ps l
  refine ⟨encode_decodeBlock base declLen, fun hr hn hs hp hd hsyms hidx => ?_⟩
  have hb : s.blockError b declLen.toNat = none :=
    (s.blockError_eq_none b _ h rfl).mpr ⟨hr, hn, hs, hp, hd, hsyms, hidx⟩
  rw [exec_decodeBlock_of_blockError_none hb, State.commitBlock, Header.emitBlock_eq_render, ← hs]

/-! ## How many pulses a block has, and how long they are (R240, R241) -/

theorem SymTable.length_pulses (t : SymTable) (m : Memory) (idx : Nat) :
    (t.pulses m idx).length = t.activeCount m idx := List.length_map ..

theorem length_flatMap_range {α : Type} (f : Nat → List α) (n : Nat) :
    ((List.range n).flatMap f).length = ∑ k ∈ Finset.range n, (f k).length := List.length_flatMap ..

section
variable (h : Header) (m : Memory) (b : Nat)

theorem Header.length_pilotPulses : (h.pilotPulses m b).length = ∑ k ∈ Finset.range h.totp,
    (h.blockRep m b k).toNat * (h.pilotTable b).activeCount m (h.blockSym m b k).toNat := by
  rw [Header.pilotPulses, length_flatMap_range]
  simp [SymTable.length_pulses]

theorem Header.length_dataPulses : (h.dataPulses m b).length =
    ∑ n ∈ Finset.range h.totd, (h.dataTable b).activeCount m (h.blockIndex m b n).toNat := by
  rw [Header.dataPulses, length_flatMap_range]
  simp [SymTable.length_pulses]

/-- An entry repeats at most 2^16 - 1 times, and a symbol has at most NPP pulses (R84, R122). -/
theorem Header.length_pilotPulses_le : (h.pilotPulses m b).length ≤ h.totp * (65535 * h.npp) := by
  have hentry (k : Nat) : (h.blockRep m b k).toNat * (h.pilotTable b).activeCount m (h.blockSym m b k).toNat ≤
      65535 * h.npp :=
    Nat.mul_le_mul (Nat.le_of_lt_succ (h.blockRep m b k).isLt) ((h.pilotTable b).activeCount_le m _)
  rw [Header.length_pilotPulses]
  exact (Finset.sum_le_card_nsmul _ _ _ fun k _ => hentry k).trans_eq (by simp)

/-- A symbol has at most NPD pulses (R122). -/
theorem Header.length_dataPulses_le : (h.dataPulses m b).length ≤ h.totd * h.npd := by
  rw [Header.length_dataPulses]
  exact (Finset.sum_le_card_nsmul _ _ _ fun n _ => (h.dataTable b).activeCount_le m _).trans_eq
    (by simp [Header.dataTable])

end

/-- A pulse lasts at most 2^16 - 1 T-states. -/
theorem totalOf_le (ps : List (BitVec 16 × PolRule)) : totalOf ps ≤ ps.length * 65535 := by
  have hdur : ∀ d ∈ ps.map fun p => p.1.toNat, d ≤ 65535 :=
    List.forall_mem_map.mpr fun p _ => Nat.le_of_lt_succ p.1.isLt
  exact (List.sum_le_card_nsmul _ _ hdur).trans_eq (by rw [List.length_map, smul_eq_mul])

theorem Header.entries_end_le_size (h : Header) : 3 * h.totp + 14 + h.asp * (1 + 2 * h.npp) ≤ h.size := by
  simp only [Header.size, Header.payloadOffset, Header.dataOffset, Header.prleOffset, Header.pilotOffset, symbolBytes]
  omega

/-- Settles O45: the declared length bounds the entries, and the widths of the fields bound the pulses of each. -/
theorem blockBounds : Obligations.BlockBounds := by
  intro s base declLen hb h
  obtain ⟨-, -, hsize, -⟩ := (s.blockError_eq_none _ _ h rfl).mp hb
  obtain ⟨-, hnpp, -, htotd, hnpd, -⟩ := readHeader_bounds s.mem base.toNat
  have hentries : 3 * h.totp + 14 + h.asp * (1 + 2 * h.npp) ≤ 2 ^ 32 - 1 := by
    have hend := h.entries_end_le_size
    omega
  have htotp : h.totp ≤ 1431655760 := by omega
  have hpilot : (h.pilotPulses s.mem base.toNat).length ≤ 1431655760 * (65535 * 255) :=
    (h.length_pilotPulses_le ..).trans (Nat.mul_le_mul htotp (Nat.mul_le_mul_left _ (Nat.le_of_lt_succ hnpp)))
  have hdata : (h.dataPulses s.mem base.toNat).length ≤ (2 ^ 32 - 1) * 255 :=
    (h.length_dataPulses_le ..).trans (Nat.mul_le_mul (Nat.le_of_lt_succ htotd) (Nat.le_of_lt_succ hnpd))
  have htotal := totalOf_le (h.blockPulses s.mem base.toNat)
  rw [Header.blockPulses, List.length_append, ← Header.blockPulses] at htotal
  refine ⟨hsize, htotp, hentries, ?_, ?_, ?_⟩ <;> omega

/-- Settles O44: the count is the number of the block's pulses, and by the bounds it fits `PULSE_COUNT`. -/
theorem pulseCountLaw : Obligations.PulseCountLaw := by
  intro s t base declLen hexec hok b h
  obtain ⟨hb, hemitter⟩ := decodeBlock_of_ok hexec hok
  obtain ⟨-, -, -, hpilot, hdata, -⟩ := blockBounds s base declLen hb
  rw [hemitter, ← Header.emitBlock_eq, Header.emitBlock_eq_render, Header.blockPulses, List.length_append,
    BitVec.toNat_ofNat, Nat.mod_eq_of_lt (by omega), Header.length_pilotPulses, Header.length_dataPulses]

/-! ## What a block depends on (R242) -/

/-- The warnings of both alphabets are read from the block's own bytes (R242). -/
theorem Header.allWarnBits_congr (h : Header) {m m' : Memory} {b n : Nat} (hs : h.size = n)
    (hm : Memory.AgreeOn m m' b (b + n)) : (h.pilotTable b).allWarnBits m = (h.pilotTable b).allWarnBits m' ∧
      (h.dataTable b).allWarnBits m = (h.dataTable b).allWarnBits m' :=
  let ⟨hpilot, hdata⟩ := h.tables_agree b n hs hm
  ⟨SymTable.allWarnBits_congr hpilot, SymTable.allWarnBits_congr hdata⟩

/-- Settles O46: the first failing check is the same in both states; without one, so are the header, the pulses and the
warnings. -/
theorem decodeBlockIsAFunctionOfTheBlockAndLevel : Obligations.DecodeBlockIsAFunctionOfTheBlockAndLevel := by
  intro s s' t t' base declLen hsize hlevel hm hexec hexec'
  have hsame : s.blockError base.toNat declLen.toNat = s'.blockError base.toNat declLen.toNat :=
    State.blockError_congr hsize hm
  cases hb : s.blockError base.toNat declLen.toNat with
  | some e =>
    rw [exec_decodeBlock_of_blockError hb] at hexec
    rw [exec_decodeBlock_of_blockError (hsame ▸ hb)] at hexec'
    cases hexec
    cases hexec'
    refine ⟨rfl, by simp, hlevel, ⟨[], 0, ?_⟩, fun h => ?_, fun _ => ⟨rfl, rfl, rfl⟩⟩
    · simp
    · cases e <;> cases h
  | none =>
    obtain ⟨-, hn, hsz, -, -, hsyms, hidx⟩ := (s.blockError_eq_none _ _ _ rfl).mp hb
    have hheader := readHeader_congr hn hm
    have hpulses := Header.blockPulses_congr _ _ _ hsz hm hsyms hidx
    obtain ⟨hpilot, hdata⟩ := Header.allWarnBits_congr _ hsz hm
    rw [exec_decodeBlock_of_blockError_none hb, State.commitBlock, Header.emitBlock_eq_render] at hexec
    rw [exec_decodeBlock_of_blockError_none (hsame ▸ hb), State.commitBlock, Header.emitBlock_eq_render, ← hheader,
      ← hpulses, ← hpilot, ← hdata, ← hlevel] at hexec'
    cases hexec
    cases hexec'
    exact ⟨rfl, by simp, rfl,
      ⟨_, _, List.append_assoc .., List.append_assoc .., BitVec.or_assoc .., BitVec.or_assoc ..⟩,
      fun _ => ⟨rfl, rfl, rfl, rfl, rfl⟩, fun h => absurd rfl h⟩

end Machine

end Sys2Proof

end

/-! Exceptions: a step without a command, how an error ends a command, an error of a stream repeated, and that nothing
but a host write to an absent address stops the machine. -/

section

namespace Sys2Proof.Machine

/-! ## Steps without a command (R61, R275, R290) -/

section
variable {s : State} {rest : List HostEvent}

/-- With nothing pending PDEC holds its state (R275). -/
theorem step_of_idle (hp : s.port = []) : step s = .next s := by
  simp only [step, State.takeEvent, hp]

theorem step_of_reset (hp : s.port = .reset :: rest) : step s = .next (State.applyReset { s with port := rest }) := by
  simp only [step, State.takeEvent, hp]

section
variable {addr : BitVec 32} {v : Byte} (hp : s.port = .write addr v :: rest)
include hp

theorem step_of_write (ha : addr.toNat < s.memSize) :
    step s = .next { s with port := rest, mem := s.mem.store addr.toNat v } := by
  simp only [step, State.takeEvent, hp]
  exact if_pos ha

theorem step_of_absent_write (ha : s.memSize ≤ addr.toNat) :
    step s = .fault (.hostWriteOutsideMemory addr.toNat) := by
  simp only [step, State.takeEvent, hp]
  exact if_neg (Nat.not_lt.mpr ha)

end

end

/-- Settles O3: the new memory is the old one with the byte stored. -/
theorem idleStepsAndHostWrites : Obligations.IdleStepsAndHostWrites := fun s =>
  ⟨step_of_idle, fun addr v _ hp =>
    ⟨fun ha => ⟨s.mem.store addr.toNat v, step_of_write hp ha, Memory.byte_store_same .., fun a hne =>
      Memory.byte_store_other _ _ a v hne.symm⟩, step_of_absent_write hp⟩⟩

/-! ## How a command ends (R262, R264) -/

/-- An error has a status of 2 to 9 (R260), so it is neither OK nor END. -/
theorem CmdError.isError_status (e : CmdError) : e.status.isError = true := by
  cases e <;> rfl

/-- Settles O48: an error and END are `State.failed` and `State.answered` as they stand; a completed command ends with
OK, and `ERR_INFO` is in the frame of its effect. -/
theorem errorsWriteStatusAndInfoOnly : Obligations.ErrorsWriteStatusAndInfoOnly := by
  intro i s t h
  cases exec_cases h with
  | raised e =>
    have herr : (s.raise e).lastStatus.isError = true := e.isError_status
    refine ⟨fun _ => rfl, fun hend => ?_, fun hok => ?_⟩
    · rw [hend] at herr
      cases herr
    · rw [hok] at herr
      cases herr
  | finished => exact ⟨nofun, fun _ => rfl, fun _ => rfl⟩
  | completed v s' hE =>
    obtain ⟨-, -, -, -, -, hinfo, -⟩ := hE.frame_eq
    exact ⟨nofun, nofun, fun _ => hinfo⟩

/-- Every command can end with OK (R264). -/
theorem ok_mem_statusesOf (i : Instr) : .ok ∈ statusesOf i := by
  cases i <;> exact List.mem_cons_self

/-- Settles O50: the statuses of the errors and of END stand in `exec_cases`. -/
theorem commandsEndWithTheirStatuses : Obligations.CommandsEndWithTheirStatuses := by
  intro i s t h
  cases exec_cases h with
  | raised e he => exact he
  | finished he => exact he
  | completed => exact ok_mem_statusesOf i

/-! ## An error of a stream (R267) -/

/-- `t` has all that PRLE_NEXT and DSS_NEXT read of `s`. -/
structure State.SameStreams (s t : State) : Prop where
  prle : t.prle = s.prle
  dss : t.dss = s.dss
  bsr : t.bsr = s.bsr
  mem : t.mem = s.mem
  memSize : t.memSize = s.memSize

/-- An error writes nothing a stream command reads. -/
theorem State.sameStreams_raise (s : State) (e : CmdError) : s.SameStreams (s.raise e) :=
  ⟨rfl, rfl, rfl, rfl, rfl⟩

theorem State.SameStreams.reading_eq {s t : State} (h : s.SameStreams t) {base len : Nat} (hr : s.hasRegion base len)
    (r : Result) : t.reading base len r = r :=
  t.reading_of_region (by rwa [State.hasRegion, h.memSize]) r

section
variable {s t : State} (herr : t.lastStatus.isError = true)
include herr

/-- The error of PRLE_NEXT is raised wherever the stream's entry is the same (R164). -/
theorem prleNext_error (h : exec .prleNext s = .next t) :
    ∃ e, t = s.raise e ∧ ∀ u, s.SameStreams u → exec .prleNext u = .next (u.raise e) := by
  simp only [exec, execPrleNext] at h
  split at h
  · cases h; cases herr
  next hn =>
    obtain ⟨hr, h⟩ := State.reading_next h
    split at h <;> cases h
    next hbad =>
      refine ⟨_, rfl, fun u hu => ?_⟩
      simp only [exec, execPrleNext, hu.prle, hu.mem]
      rw [if_neg hn, hu.reading_eq hr, if_pos hbad]
    · cases herr

/-- The error of DSS_NEXT is raised wherever the stream and its reader are the same (R184). -/
theorem dssNext_error (h : exec .dssNext s = .next t) :
    ∃ e, t = s.raise e ∧ ∀ u, s.SameStreams u → exec .dssNext u = .next (u.raise e) := by
  simp only [exec, execDssNext, State.reader_eq] at h
  split at h
  · cases h; cases herr
  next hn =>
    split at h
    · cases h
    next r hreader =>
      split at h
      next ht =>
        cases h
        refine ⟨_, rfl, fun u hu => ?_⟩
        simp only [exec, execDssNext, State.reader_eq, hu.dss, hu.bsr, hreader]
        rw [if_neg hn, if_pos ht]
      next ht =>
        obtain ⟨hr, h⟩ := State.reading_next h
        split at h <;> cases h
        next hbad =>
          refine ⟨_, rfl, fun u hu => ?_⟩
          simp only [exec, execDssNext, State.reader_eq, hu.dss, hu.bsr, hu.mem, hreader]
          rw [if_neg hn, if_neg ht, hu.reading_eq hr, if_pos hbad]
        · cases herr

end

/-- Settles O29: the error leaves the stream as it was, so the command raises it again. -/
theorem badEntryErrorRepeats : Obligations.BadEntryErrorRepeats := by
  intro s t i hi h herr
  obtain ⟨e, rfl, hagain⟩ :
      ∃ e, t = s.raise e ∧ ∀ u, s.SameStreams u → exec i u = .next (u.raise e) := by
    obtain rfl | rfl := hi
    · exact prleNext_error herr h
    · exact dssNext_error herr h
  exact ⟨_, hagain _ (s.sameStreams_raise e), rfl, rfl, rfl, rfl, rfl⟩

/-! ## Every command answers (R56, R261) -/

section
variable {s : State} (hs : s.Inv)
include hs

/-- The alphabet an operand selects lies in memory. -/
theorem State.Inv.alphabetValid (a : AlphaSel) : s.AlphabetValid (s.alpha a) := by
  obtain ⟨-, -, -, -, -, hpilot, hdata, -⟩ := hs
  cases a with
  | pilot => exact hpilot
  | data => exact hdata

/-- The record of a symbol that exists lies in memory (R56, R121). -/
theorem State.Inv.hasRegion_symbol {a : AlphaSel} {idx : Nat} (h : idx < (s.alpha a).table.count) :
    s.hasRegion ((s.alpha a).table.symAddr idx) (symbolBytes (s.alpha a).table.maxp) :=
  ((s.alpha a).table.symAddr_end_le h).trans (hs.alphabetValid a)

/-- A slot of a symbol that exists lies in its record. -/
theorem State.Inv.hasRegion_slot {a : AlphaSel} {idx slot : Nat} (h : idx < (s.alpha a).table.count)
    (hslot : slot < (s.alpha a).table.maxp) :
    s.hasRegion ((s.alpha a).table.symAddr idx + 1 + 2 * slot) 2 := by
  have hrecord := hs.hasRegion_symbol h
  rw [State.hasRegion, symbolBytes] at hrecord
  rw [State.hasRegion]
  omega

/-- The next entry of a stream that is not at its end lies in memory (R161, R162). -/
theorem State.Inv.hasRegion_entry (hn : s.prle.next ≠ s.prle.totp) :
    s.hasRegion (s.prle.base.toNat + 3 * s.prle.next.toNat) 3 := by
  obtain ⟨-, -, -, -, -, -, -, ⟨hnext, hregion, -⟩, -⟩ := hs
  have hlt : s.prle.next.toNat < s.prle.totp.toNat := by bv_omega
  rw [State.hasRegion] at hregion ⊢
  omega

/-- The bytes of a code that fits its reader lie in memory (R56, R140). -/
theorem State.Inv.hasRegion_code {i w : Nat} {r : Bsr} (hr : s.bsr[i]? = some r)
    (hfit : r.cursor.toNat + w ≤ 8 * r.len.toNat) :
    s.hasRegion (r.base.toNat + r.cursor.toNat / 8) (codeBytes r.cursor.toNat w) := by
  obtain ⟨-, -, -, -, -, -, -, -, -, hreaders, -⟩ := hs
  exact Bsr.hasRegion_code (hreaders r (List.mem_of_getElem? hr)).2 hfit

/-- The data stream's reader exists (R35). -/
theorem State.Inv.exists_dss_reader : ∃ r, s.bsr[s.dss.inst.toNat]? = some r := by
  obtain ⟨-, -, -, -, -, -, -, -, ⟨hinst, -⟩, -⟩ := hs
  exact ⟨_, List.getElem?_eq_getElem hinst⟩

/-- The two commands that examine a symbol check its alphabet and its index alike (R126, R208). -/
theorem examining_answers {i : Instr} {alpha idx : BitVec 8} (hi : i = .symGet alpha idx ∨ i = .emitSym alpha idx) :
    ∃ t, exec i s = .next t := by
  obtain rfl | rfl := hi
  all_goals
    simp only [exec, execSymGet, execEmitSym]
    split
    · exact ⟨_, rfl⟩
    split_ifs with h0 hidx
    · exact ⟨_, rfl⟩
    · exact ⟨_, rfl⟩
    · exact ⟨_, State.reading_of_region s (hs.hasRegion_symbol (Nat.lt_of_not_le hidx)) _⟩

theorem symDur_answers (alpha idx slot : BitVec 8) : ∃ t, exec (.symDur alpha idx slot) s = .next t := by
  simp only [exec, execSymDur]
  split
  · exact ⟨_, rfl⟩
  split_ifs with h0 hidx hslot
  · exact ⟨_, rfl⟩
  · exact ⟨_, rfl⟩
  · exact ⟨_, rfl⟩
  · exact ⟨_, State.reading_of_region s (hs.hasRegion_slot (Nat.lt_of_not_le hidx) (Nat.lt_of_not_le hslot)) _⟩

theorem bsrRead_answers (inst : BitVec 8) (width : BitVec 16) : ∃ t, exec (.bsrRead inst width) s = .next t := by
  simp only [exec, execBsrRead, State.reader_eq]
  split
  · exact ⟨_, rfl⟩
  next r hr =>
    split_ifs with hw hfit
    · exact ⟨_, rfl⟩
    · exact ⟨_, rfl⟩
    · exact ⟨_, State.reading_of_region s (hs.hasRegion_code hr (Nat.le_of_not_lt hfit)) _⟩

theorem prleNext_answers : ∃ t, exec .prleNext s = .next t := by
  simp only [exec, execPrleNext]
  split_ifs with hn hbad
  · exact ⟨_, rfl⟩
  · exact ⟨_, State.reading_of_region s (hs.hasRegion_entry hn) _⟩
  · exact ⟨_, State.reading_of_region s (hs.hasRegion_entry hn) _⟩

theorem dssNext_answers : ∃ t, exec .dssNext s = .next t := by
  obtain ⟨r, hr⟩ := hs.exists_dss_reader
  simp only [exec, execDssNext, State.reader_eq, hr]
  split_ifs with hn hfit hbad
  · exact ⟨_, rfl⟩
  · exact ⟨_, rfl⟩
  · exact ⟨_, State.reading_of_region s (hs.hasRegion_code hr (Nat.le_of_not_lt hfit)) _⟩
  · exact ⟨_, State.reading_of_region s (hs.hasRegion_code hr (Nat.le_of_not_lt hfit)) _⟩

end

/-- Settles O58: a command that reads memory through a descriptor or a reader has its read in memory by the invariant;
every other one checks its operands and answers. -/
theorem everyCommandCompletes : Obligations.EveryCommandCompletes := by
  intro i s hs
  cases i with
  | nop | lvlSet | warnClear | cntClear | prleRestart | emit | silence => exact ⟨_, rfl⟩
  | cfgWrite | bsrOpen | prleOpen | dssOpen =>
    simp only [exec, execCfgWrite, execBsrOpen, execPrleOpen, execDssOpen]
    split_ifs <;> exact ⟨_, rfl⟩
  | regRead | bsrRestart | decodeBlock =>
    simp only [exec, execRegRead, execBsrRestart, execDecodeBlock]
    split <;> exact ⟨_, rfl⟩
  | alphaBind =>
    simp only [exec, execAlphaBind]
    split
    · exact ⟨_, rfl⟩
    · split_ifs <;> exact ⟨_, rfl⟩
  | symGet => exact examining_answers hs (.inl rfl)
  | symDur => exact symDur_answers hs _ _ _
  | emitSym => exact examining_answers hs (.inr rfl)
  | bsrRead => exact bsrRead_answers hs _ _
  | prleNext => exact prleNext_answers hs
  | dssNext => exact dssNext_answers hs
  | dssRestart =>
    obtain ⟨r, hr⟩ := hs.exists_dss_reader
    exact ⟨_, exec_dssRestart_of_reader hr⟩

/-! ## Where a step stops (R50, R261) -/

/-- What is pending is in no part of the invariant. -/
theorem State.Inv.with_port {s : State} (hs : s.Inv) (rest : List HostEvent) : State.Inv { s with port := rest } :=
  hs

/-- Settles O59: of the host's events only a write can stop, for every command answers. -/
theorem stepsStopOnlyAtAbsentAddresses : Obligations.StepsStopOnlyAtAbsentAddresses := by
  intro s hs
  match hp : s.port with
  | [] => exact .inl ⟨_, step_of_idle hp⟩
  | .command f :: rest =>
    refine .inl ?_
    cases hd : decode f with
    | ok i =>
      rw [step_of_decode hp hd]
      exact everyCommandCompletes i _ (hs.with_port rest)
    | error r => exact ⟨_, step_of_reject hp hd⟩
  | .write addr v :: rest =>
    obtain ha | ha := Nat.lt_or_ge addr.toNat s.memSize
    · exact .inl ⟨_, step_of_write hp ha⟩
    · exact .inr ⟨addr, v, rest, rfl, ha⟩
  | .reset :: rest => exact .inl ⟨_, step_of_reset hp⟩

end Sys2Proof.Machine

end

/-! Reset: what the streams and the alphabets of a machine right after reset answer, and the reset event. -/

section

namespace Sys2Proof.Machine

/-! ## The first commands after reset (R292) -/

section
variable (p : Params) (m : Memory)

/-- After reset a reader that exists has an empty buffer (R42). -/
theorem State.bsr_resetWith {i : Nat} (h : i < p.nBsr) : (State.resetWith p m).bsr[i]? = some ⟨0, 0, 0⟩ :=
  List.getElem?_replicate_of_lt h

/-- After reset either alphabet is empty (R42). -/
theorem State.alpha_resetWith (a : AlphaSel) : (State.resetWith p m).alpha a = ⟨0, 0, 0⟩ := by
  cases a <;> rfl

/-- Every width is more than an empty buffer holds (R143). -/
theorem exec_bsrRead_resetWith {inst : BitVec 8} {width : BitVec 16} (hi : inst.toNat < p.nBsr)
    (h1 : 1 ≤ width.toNat) (h16 : width.toNat ≤ 16) :
    exec (.bsrRead inst width) (State.resetWith p m) =
      .next ((State.resetWith p m).failed .truncatedStream (BitVec.ofNat 64 (2 ^ 63 + width.toNat))) := by
  have hshort : 8 * (0 : BitVec 32).toNat < (0 : BitVec 35).toNat + width.toNat := by simpa using Nat.lt_of_succ_le h1
  simpa using exec_bsrRead_of_truncated (State.bsr_resetWith p m hi) (by omega) hshort

end

/-- Settles O6: both streams are at their ends, the buffers and the alphabets are empty. -/
theorem afterResetStreamsAndAlphabetsAreEmpty : Obligations.AfterResetStreamsAndAlphabetsAreEmpty := by
  intro p m _ s
  refine ⟨exec_prleNext_of_end rfl, exec_dssNext_of_end rfl, fun inst width => exec_bsrRead_resetWith p m,
    fun alpha idx slot h => ?_⟩
  obtain ⟨a, ha⟩ := exists_alphaOf h
  have hbit : alpha.toNat = a.bit.toNat := alphaOf_some ha
  have hempty : (s.alpha a).count = 0 := congrArg Alphabet.count (State.alpha_resetWith p m a)
  exact ⟨AsksSymbol.symGet.exec_of_empty hbit hempty, (AsksSymbol.symDur slot).exec_of_empty hbit hempty,
    exec_emitSym_of_empty hbit hempty⟩

/-! ## The reset event (R290) -/

/-- No register of the map reads what is pending. -/
theorem State.readReg_with_port (s : State) (rest : List HostEvent) (r : Reg) :
    State.readReg { s with port := rest } r = s.readReg r := rfl

/-- Settles O4: the reset event leaves the machine right after reset with its own parameters and memory, but for what is
pending; the registers are those of O5. -/
theorem resetEventRestoresEveryRegister : Obligations.ResetEventRestoresEveryRegister := by
  intro s rest hp
  obtain ⟨hregs, -⟩ := resetLeavesTheStatedValues { nBsr := s.nBsr, memSize := s.memSize } s.mem
  exact ⟨_, step_of_reset hp, fun r => (State.readReg_with_port _ rest r).trans (hregs r), rfl, rfl, rfl,
    List.length_replicate, rfl, rfl⟩

end Sys2Proof.Machine

end
